-- ==== Sys2Proof/Word.lean ====
section
/-! DEFINITION. The word types of the block (spec/00_scope.md R7: all values are unsigned bit vectors). -/

namespace Sys2Proof

/-- A register, a command word, a system address (10_state R39, 30_encoding R90, 00_scope R6 ADDR_W = 32). -/
abbrev Word := BitVec 32

/-- A payload byte, a FIFO entry, a shift register (00_scope R6 SHIFT_WIDTH = 8). -/
abbrev Byte := BitVec 8

/-- An instruction-memory offset (10_state R29: 5 bits, arithmetic modulo 32). -/
abbrev Offset := BitVec 5

end Sys2Proof
end

