-- ==== Sys2Proof/Syntax.lean ====
section
/-! DEFINITION. The instructions of the block: the fourteen commands of spec/30_encoding.md R94, one constructor
per row of spec/opcode_table.json. -/

namespace Sys2Proof

/-- A command (30_encoding R94). The only operand in a command word is DMA_STOP's ARG, an unsigned channel number
(R92); every other operand is read from registers. -/
inductive Instr where
  /-- NOP (40_control_pins R121) -/
  | nop
  /-- PIN_CONFIG (40_control_pins R123) -/
  | pinConfig
  /-- SM_LOAD (41_streamer R151) -/
  | smLoad
  /-- SM_CONFIG (41_streamer R154) -/
  | smConfig
  /-- SM_ENABLE (41_streamer R157) -/
  | smEnable
  /-- SM_DISABLE (41_streamer R158) -/
  | smDisable
  /-- SM_RESTART (41_streamer R159) -/
  | smRestart
  /-- DMA_START (42_dma_feeder R203) -/
  | dmaStart
  /-- DMA_STOP (42_dma_feeder R211), `c` = ARG -/
  | dmaStop (c : Nat)
  /-- RM_ARM (43_reset_monitor R251) -/
  | rmArm
  /-- RM_CLEAR (43_reset_monitor R253) -/
  | rmClear
  /-- RST_DRIVE_LOW (40_control_pins R127) -/
  | rstDriveLow
  /-- RST_RELEASE (40_control_pins R128) -/
  | rstRelease
  /-- ERR_CLEAR (40_control_pins R122) -/
  | errClear
deriving DecidableEq, Repr

end Sys2Proof
end

