-- ==== Sys2Proof/Decode.lean ====
section
/-! DEFINITION. Decoding a command word (spec/30_encoding.md R91, R95 to R97), total on every word and rejecting by
name, and after it the encoder, from the table of R94. -/

namespace Sys2Proof

/-- Why a command word names no command (30_encoding R95). -/
inductive DecodeError where
  /-- OP ≥ 0x0E (30_encoding R96) -/
  | illegalOpcode
  /-- RSV ≠ 0, or ARG ≠ 0 with OP ≠ 0x08 (30_encoding R97) -/
  | reservedBits
deriving DecidableEq, Repr

/-- The OP field, bits 31:24 (30_encoding R91). -/
def opField (w : Word) : Byte := w.extractLsb' 24 8

/-- The ARG field, bits 23:16 (30_encoding R91). -/
def argField (w : Word) : Byte := w.extractLsb' 16 8

/-- The RSV field, bits 15:0 (30_encoding R91). -/
def rsvField (w : Word) : BitVec 16 := w.extractLsb' 0 16

/-- The opcode map (30_encoding R94), `arg` zero-extended (R92); `none` for a reserved opcode. -/
def commandOf (op arg : Nat) : Option Instr :=
  match op with
  | 0x00 => some .nop
  | 0x01 => some .pinConfig
  | 0x02 => some .smLoad
  | 0x03 => some .smConfig
  | 0x04 => some .smEnable
  | 0x05 => some .smDisable
  | 0x06 => some .smRestart
  | 0x07 => some .dmaStart
  | 0x08 => some (.dmaStop arg)
  | 0x09 => some .rmArm
  | 0x0A => some .rmClear
  | 0x0B => some .rstDriveLow
  | 0x0C => some .rstRelease
  | 0x0D => some .errClear
  | _ => none

/-- The decode checks of 30_encoding R95, in its order: the opcode, RSV, ARG. (The fatal check, which comes before
them, reads the state: `Machine.unlessFatal`.) -/
def decode (w : Word) : Except DecodeError Instr :=
  match commandOf (opField w).toNat (argField w).toNat with
  | none => .error .illegalOpcode
  | some i =>
    if rsvField w ≠ 0 then .error .reservedBits
    else if argField w ≠ 0 ∧ opField w ≠ 0x08 then .error .reservedBits
    else .ok i

/-- The OP column of 30_encoding R94. -/
def Instr.opcode : Instr → Byte
  | .nop => 0x00
  | .pinConfig => 0x01
  | .smLoad => 0x02
  | .smConfig => 0x03
  | .smEnable => 0x04
  | .smDisable => 0x05
  | .smRestart => 0x06
  | .dmaStart => 0x07
  | .dmaStop _ => 0x08
  | .rmArm => 0x09
  | .rmClear => 0x0A
  | .rstDriveLow => 0x0B
  | .rstRelease => 0x0C
  | .errClear => 0x0D

/-- The ARG field of an instruction: 0 but for DMA_STOP (30_encoding R91). -/
def Instr.arg : Instr → Byte
  | .dmaStop c => BitVec.ofNat 8 c
  | .nop | .pinConfig | .smLoad | .smConfig | .smEnable | .smDisable | .smRestart | .dmaStart
  | .rmArm | .rmClear | .rstDriveLow | .rstRelease | .errClear => 0

/-- The command word of an instruction, {OP, ARG, RSV = 0} (30_encoding R91, R94). -/
def encode (i : Instr) : Word := i.opcode ++ i.arg ++ (0 : BitVec 16)

/-- The decoder on a table row's bits, numbered as spec/opcode_table.json numbers them. A command is one 32-bit
word (30_encoding R90): of `w` the low `nbits` bits count, and a bit above bit 31 makes it no command. -/
def decodeTableWord (nbits w : Nat) : Option Instr :=
  let v := w % 2 ^ nbits
  if v < 2 ^ 32 then
    match decode (BitVec.ofNat 32 v) with
    | .ok i => some i
    | .error _ => none
  else none

end Sys2Proof
end

