-- ==== Sys2Proof/Config.lean ====
section
/-! DEFINITION. The parameters of the block (spec/00_scope.md R6): what an implementation fixes, held fixed for a
whole run (10_state R20). BUS_PROGRAM, a function in the spec (41_streamer R176), is written as plain data: one
decision tree over the view for each program word; Laws/BusProgram.lean proves that every function of the view
that R176 admits is the function of some tree (log 8). What the trees and the parameters MEAN stands in
Machine/BusProgram.lean. -/

namespace Sys2Proof

/-- What a bus program sees of the state at its step (41_streamer R176, `view`). -/
structure BusView where
  fifoNonempty : Bool
  osr : Byte
  osrCount : Fin 9
  isr : Byte
  isrCount : Fin 9
  strobe0 : Bool
  strobe1 : Bool
deriving DecidableEq, Repr

/-- One question a bus program may ask of its view. -/
inductive BusTest where
  | fifoNonempty
  | osrBit (i : Fin 8)
  | osrCountIs (n : Fin 9)
  | isrBit (i : Fin 8)
  | isrCountIs (n : Fin 9)
  | strobe0
  | strobe1
deriving DecidableEq, Repr

/-- A byte a bus program writes: one it names, or one it sees. -/
inductive BusByte where
  | const (v : Byte)
  | osr
  | isr
deriving DecidableEq, Repr

/-- One part of an effect (41_streamer R176): a pull (R163), a `WriteData` (R164), a `WriteSide` (R165), or a
write to a shift register or its count. -/
inductive BusAction where
  | pull
  | writeData (v : BusByte)
  | writeSide (v : BitVec 3)
  | setOsr (v : BusByte)
  | setOsrCount (n : Fin 9)
  | setIsr (v : BusByte)
  | setIsrCount (n : Fin 9)
deriving DecidableEq, Repr

/-- One effect (41_streamer R176): the new offset k' and the parts, in the order they act (log 9). -/
structure BusEffect where
  next : Nat
  acts : List BusAction
deriving DecidableEq, Repr

/-- One program word: a decision tree whose leaves stall or have one effect (41_streamer R176). -/
inductive BusTree where
  | stall
  | effect (e : BusEffect)
  | ask (t : BusTest) (yes no : BusTree)
deriving DecidableEq, Repr

/-- The parameters of 00_scope R6 that are not fixed there. PROG_LEN is the length of `program`. PayloadMem is
`Machine.State.mem`, since the platform may change it during a run (20_memory R78). -/
structure Config where
  /-- SIDESET_EN -/
  sidesetEn : Bool
  /-- SIDESET_BASE -/
  sidesetBase : Nat
  /-- SHIFT_DIR (true = right); visible in CFG1 only (41_streamer R164) -/
  shiftDir : Bool
  /-- NUM_PINS -/
  numPins : Nat
  /-- DATA_BASE -/
  dataBase : Nat
  /-- STROBE0_PIN -/
  strobe0Pin : Nat
  /-- STROBE1_PIN -/
  strobe1Pin : Nat
  /-- RST_PIN -/
  rstPin : Nat
  /-- FIFO_DEPTH -/
  fifoDepth : Nat
  /-- IMEM_WORDS -/
  imemWords : Nat
  /-- NUM_CH -/
  numCh : Nat
  /-- TS_WIDTH -/
  tsWidth : Nat
  /-- REG_BASE -/
  regBase : Word
  /-- BUS_PROGRAM, one tree per word -/
  program : List BusTree
deriving DecidableEq, Repr

/-- PROG_LEN (00_scope R6). -/
abbrev Config.progLen (c : Config) : Nat := c.program.length

/-- T_DEBOUNCE, "fixed constant": 500 ticks (00_scope R6, 43_reset_monitor R240). -/
abbrev tDebounce : Nat := 500

/-- DATA_LINES (00_scope R6). -/
abbrev dataLines : Nat := 8

/-- SIDESET_DATA_BITS (00_scope R6). -/
abbrev sidesetDataBits : Nat := 3

end Sys2Proof
end

