-- ==== Sys2Proof/Machine/BusProgram.lean ====
section
/-! DEFINITION. What a bus program's decision trees mean (spec/41_streamer.md R176), and the reference
program (R179 to R183). -/

namespace Sys2Proof

/-- The answer to a question about the view. -/
def BusTest.eval (v : BusView) : BusTest → Bool
  | .fifoNonempty => v.fifoNonempty
  | .osrBit i => v.osr.getLsbD i.val
  | .osrCountIs n => decide (v.osrCount = n)
  | .isrBit i => v.isr.getLsbD i.val
  | .isrCountIs n => decide (v.isrCount = n)
  | .strobe0 => v.strobe0
  | .strobe1 => v.strobe1

/-- The byte named, read in the view (the state before the step). -/
def BusByte.eval (v : BusView) : BusByte → Byte
  | .const b => b
  | .osr => v.osr
  | .isr => v.isr

/-- `prog(k, view)` for the word at k (41_streamer R176): `none` is a stall. -/
def BusTree.eval (v : BusView) : BusTree → Option BusEffect
  | .stall => none
  | .effect e => some e
  | .ask t yes no => if t.eval v then yes.eval v else no.eval v

/-- Reference offset 0, PULL (41_streamer R180). -/
def refPull : BusTree :=
  .ask .fifoNonempty (.effect { next := 1, acts := [.pull] }) .stall

/-- Reference offset 1, OUT (41_streamer R181). -/
def refOut : BusTree :=
  .effect { next := 2, acts := [.writeData .osr, .setOsr (.const 0), .setOsrCount 0] }

/-- Reference offset 2, WAITLO (41_streamer R182). -/
def refWaitLo : BusTree :=
  .ask .strobe0 .stall (.effect { next := 3, acts := [] })

/-- Reference offset 3, WAITHI (41_streamer R183). -/
def refWaitHi : BusTree :=
  .ask .strobe0 (.effect { next := 0, acts := [] }) .stall

/-- The reference program (41_streamer R179), PROG_LEN = 4. -/
def refProgram : List BusTree := [refPull, refOut, refWaitLo, refWaitHi]

end Sys2Proof
end

