-- ==== Sys2Proof/Machine/Parameters.lean ====
section
/-! DEFINITION. What the parameters of spec/00_scope.md R6 mean: register fields, the read-only configuration
registers (10_state R48 to R50), the pin geometry (10_state R27, 41_streamer R164), the timebase's arithmetic
(00_scope R7), the offset of a bus address (20_memory R61), and the example parameters. -/

namespace Sys2Proof

/-! ### Register fields -/

/-- A one-bit field at bit `i` of a register. -/
def flagAt (i : Nat) (b : Bool) : Word := if b then 1#32 <<< i else 0#32

/-- A field of `width` bits whose lowest bit is bit `lo` of a register. -/
def fieldAt (lo width v : Nat) : Word := BitVec.ofNat 32 (v % 2 ^ width) <<< lo

/-! ### Configuration registers -/

/-- CFG0 (10_state R48). -/
def Config.cfg0 (c : Config) : Word :=
  fieldAt 0 5 c.dataBase ||| fieldAt 8 5 c.strobe0Pin ||| fieldAt 16 5 c.strobe1Pin ||| fieldAt 24 5 c.rstPin

/-- CFG1 (10_state R49). -/
def Config.cfg1 (c : Config) : Word :=
  fieldAt 0 5 c.sidesetBase ||| flagAt 5 c.sidesetEn ||| flagAt 6 c.shiftDir ||| fieldAt 8 4 c.fifoDepth
    ||| fieldAt 16 5 c.numCh ||| fieldAt 24 6 c.imemWords

/-- CFG2 (10_state R50): PROG_LEN, then OUT_COUNT = 8, PULL_THRESH = 8, AUTOPULL = 0, FJOIN_TX = 1,
SIDESET_OPT = 1, SIDESET_DATA_BITS = 3. -/
def Config.cfg2 (c : Config) : Word :=
  fieldAt 0 6 c.progLen ||| fieldAt 8 4 8 ||| fieldAt 12 4 8 ||| flagAt 16 false ||| flagAt 17 true
    ||| flagAt 18 true ||| fieldAt 19 3 sidesetDataBits

/-! ### Pin geometry -/

/-- `isData(p)` (10_state R27). -/
def Config.isData (c : Config) (p : Nat) : Bool :=
  decide (c.dataBase ≤ p) && decide (p < c.dataBase + dataLines)

/-- `isSide(p)` (10_state R27). -/
def Config.isSide (c : Config) (p : Nat) : Bool :=
  c.sidesetEn && decide (c.sidesetBase ≤ p) && decide (p < c.sidesetBase + sidesetDataBits)

/-- Bit `i` says whether side-set pin `i` is also a data pin (41_streamer R164). -/
def Config.sharedSide (c : Config) : BitVec 3 :=
  BitVec.ofBool (c.isData (c.sidesetBase + 2)) ++ BitVec.ofBool (c.isData (c.sidesetBase + 1))
    ++ BitVec.ofBool (c.isData c.sidesetBase)

/-! ### Timebase -/

/-- `a +W b` on the timebase, W = TS_WIDTH (00_scope R7, 10_state R22). -/
def Config.timeAdd (c : Config) (a b : Nat) : Nat := (a + b) % 2 ^ c.tsWidth

/-- `a -W b` on the timebase, W = TS_WIDTH (00_scope R7; 43_reset_monitor R248, log 24). -/
def Config.timeSub (c : Config) (a b : Nat) : Nat := (((a : Int) - (b : Int)) % ((2 ^ c.tsWidth : Nat) : Int)).toNat

/-! ### Register space -/

/-- The offset of a bus address: the bits 7:0 of its distance from REG_BASE (20_memory R61, log 15). -/
def Config.regOffset (c : Config) (addr : Word) : Byte := (addr - c.regBase).extractLsb' 0 8

/-! ### Example parameters -/

/-- The example parameters of 00_scope R6 (those of 95_test_vectors). REG_BASE is open and has no example value:
0 is a DESIGN CHOICE (log 7). -/
def exampleConfig : Config where
  sidesetEn := false
  sidesetBase := 5
  shiftDir := true
  numPins := 30
  dataBase := 0
  strobe0Pin := 8
  strobe1Pin := 9
  rstPin := 10
  fifoDepth := 8
  imemWords := 32
  numCh := 12
  tsWidth := 64
  regBase := 0
  program := refProgram

end Sys2Proof
end

