-- ==== Sys2Proof/Machine/State.lean ====
section
/-! DEFINITION. The state of the block (spec/10_state.md R20 to R38), the inputs of its run (parameters, payload
memory, environment, the host's accesses and the order of the agents' steps), its reset (R55), and the reasons a
step can stop. Field names are the spec's own. -/

namespace Sys2Proof.Machine

/-- The monitor's phase (10_state R23): ArmedForFall = 0, ArmedForRise = 1 in STATUS.PHASE. -/
inductive Phase where
  | armedForFall
  | armedForRise
deriving DecidableEq, Repr

/-- One DMA channel (10_state R33). -/
structure Channel where
  /-- `ch_own[c]` -/
  own : Bool
  /-- `ch_busy[c]` -/
  busy : Bool
  /-- `ch_read_addr[c]` -/
  read_addr : Word
  /-- `ch_count[c]` -/
  count : Word
deriving DecidableEq, Repr

/-- A channel after block reset (10_state R55). -/
def Channel.reset : Channel := { own := false, busy := false, read_addr := 0, count := 0 }

/-- PayloadMem (00_scope R6, 20_memory R66): the readable system addresses, strictly rising, and their bytes. An
address that is not listed is one that PayloadMem does not admit (log 13). -/
abbrev Memory := List Host.Cell

/-- The width of a host access (20_memory R70). -/
inductive Width where
  | w8
  | w16
  | w32
deriving DecidableEq, Repr

/-- One pending line of the host's program (30_encoding R99): a register write or read at a bus address, a POLL that
repeats a read until the field of `width` bits at bit `lo` equals `v`, a WAIT of `n` ticks (log 4). -/
inductive HostOp where
  | write (width : Width) (addr value : Word)
  | read (width : Width) (addr : Word)
  | poll (addr : Word) (lo width v : Nat)
  | wait (n : Nat)
deriving DecidableEq, Repr

/-- Which agent moves (60_exceptions R300): the host (its next pending line), the streamer, the DMA, the environment
(ENV TICK, ENV RST, ENV STB0, ENV STB1 of 30_encoding R101), the platform that owns payload memory (20_memory R78),
or block reset (70_reset_and_hazards R320). -/
inductive Turn where
  | host
  | streamer
  | dma
  | tick
  | rst (v : Bool)
  | stb0 (v : Bool)
  | stb1 (v : Bool)
  /-- what the platform makes of one address; a write of the host's own to payload bytes (20_memory R78), for which
  30_encoding R99 has no line and 60_exceptions R300 no step, is such a turn too: a DESIGN CHOICE (log 26) -/
  | payload (addr : Word) (b : Option Byte)
  | blockReset
deriving DecidableEq, Repr

/-- Why the machine stops with a fault. -/
inductive Fault where
  /-- Raised by the streamer's step when `sm_pc` is outside the program while enabled (41_streamer R178: "a model
  that meets one faults"; 93_implementation_defined U2). Safe: no run of a well-formed configuration meets it. -/
  | pcOutsideProgram
  /-- Raised by the streamer's step when BUS_PROGRAM breaks its step contract (41_streamer R176 to R178;
  93_implementation_defined U2). Safe: no run of a well-formed configuration meets it. -/
  | busProgramBroken
deriving DecidableEq, Repr

/-- Why the machine refuses a step. -/
inductive Refusal where
  /-- Raised by `exec` for an instruction that has no meaning yet; no instruction is left without one. Safe. -/
  | notModelled (mnemonic : String)
  /-- Raised by the host's step for a register access that is not an aligned 32-bit one (20_memory R70: "a model
  refuses it"; 93_implementation_defined U26). Safe: the machine stops where the spec gives no meaning. -/
  | undefinedAccess
deriving DecidableEq, Repr

/-- The state. The first six fields are the inputs of the run, the next three the environment's lines, the rest the
block's own state (10_state R22 to R38). -/
structure State where
  /-- the parameters (00_scope R6), written by no step (10_state R20) -/
  cfg : Config
  /-- PayloadMem -/
  mem : Memory
  /-- the agents' turns still to come (log 1) -/
  sched : List Turn
  /-- the host's pending lines, in program order (log 4) -/
  host : List HostOp
  /-- how many ticks the host's current WAIT has let pass (log 4) -/
  host_wait : Option Nat
  /-- what the host's last register read returned (log 5) -/
  host_rdata : Option Word
  ext_rst : Bool
  strobe0_in : Bool
  strobe1_in : Bool
  /-- the timebase, in ticks of 1 µs: TS_WIDTH bits, a number since TS_WIDTH is a parameter (log 24) -/
  now : Nat
  rm_phase : Phase
  /-- TS_WIDTH bits -/
  rm_lastFall : Nat
  rm_pending : Bool
  rm_armed : Bool
  rst_drive : Bool
  pins_configured : Bool
  data_out : Byte
  data_oe : Bool
  sideset_out : BitVec 3
  side_owner : BitVec 3
  sm_loaded : Bool
  sm_handle : Offset
  sm_configured : Bool
  sm_enabled : Bool
  sm_pc : Offset
  osr : Byte
  osr_count : Fin 9
  isr : Byte
  isr_count : Fin 9
  fifo : List Byte
  imem_own : Word
  imem_ext : Word
  ch : List Channel
  feeder_active : Bool
  feeder_ch : Byte
  ext_claim : Word
  err : Bool
  errcode : Byte
  err_op : Byte
  err_async : Bool
  fatal : Bool
  fatal_cause : Byte
  res_handle : Byte
  res_ch : Byte
  dma_src : Word
  dma_count : Word
deriving DecidableEq, Repr

/-- The block under the parameters `c` right after block reset, with the environment's lines at the default start of
95_test_vectors (log 12), nothing readable in payload memory and nothing scheduled (10_state R55). -/
def State.initial (c : Config) : State where
  cfg := c
  mem := []
  sched := []
  host := []
  host_wait := none
  host_rdata := none
  ext_rst := true
  strobe0_in := false
  strobe1_in := false
  now := 0
  rm_phase := .armedForFall
  rm_lastFall := 0
  rm_pending := false
  rm_armed := false
  rst_drive := false
  pins_configured := false
  data_out := 0x00
  data_oe := false
  sideset_out := 0b000
  side_owner := 0b000
  sm_loaded := false
  sm_handle := 0
  sm_configured := false
  sm_enabled := false
  sm_pc := 0
  osr := 0
  osr_count := 0
  isr := 0
  isr_count := 0
  fifo := []
  imem_own := 0
  imem_ext := 0
  ch := List.replicate c.numCh Channel.reset
  feeder_active := false
  feeder_ch := 0
  ext_claim := 0
  err := false
  errcode := 0
  err_op := 0
  err_async := false
  fatal := false
  fatal_cause := 0
  res_handle := 0
  res_ch := 0
  dma_src := 0
  dma_count := 0

/-- The machine right after reset, under the example parameters of 00_scope R6 (log 7). -/
def State.reset : State := State.initial exampleConfig

/-- What a step answers. -/
abbrev Result := Host.Outcome State Fault Refusal

end Sys2Proof.Machine
end

