-- ==== Sys2Proof/Machine/Ops.lean ====
section
/-! DEFINITION. The shared operations over the state: payload memory, the DMA channels, the transmit FIFO; raising an
error or a fatal error, which is the block's whole exception entry, and clearing the error record, its return
(spec/60_exceptions.md R283, R286, R294, R295); block reset (70_reset_and_hazards R320). -/

namespace Sys2Proof.Machine

/-! ### Payload memory -/

/-- `MemRead(addr, 1)` (20_memory R66): the byte at an address, or `none`, which is `refused`. -/
def Memory.read : Memory → Nat → Option Byte
  | [], _ => none
  | (k, b) :: rest, a => if k = a then some b else Memory.read rest a

/-- The platform puts a readable byte at an address (20_memory R78). -/
def Memory.put : Memory → Nat → Byte → Memory
  | [], a, b => [(a, b)]
  | (k, x) :: rest, a, b =>
    if a < k then (a, b) :: (k, x) :: rest
    else if a = k then (a, b) :: rest
    else (k, x) :: Memory.put rest a b

/-- The platform stops admitting reads of an address (93_implementation_defined U4, U20). -/
def Memory.drop : Memory → Nat → Memory
  | [], _ => []
  | (k, x) :: rest, a => if k = a then rest else (k, x) :: Memory.drop rest a

/-- What the platform makes of an address: readable with a byte, or not readable. -/
def Memory.update (m : Memory) (a : Nat) (b : Option Byte) : Memory :=
  match b with
  | some x => m.put a x
  | none => m.drop a

/-- The addresses rise strictly from above `low`. -/
def Memory.risesFrom : Nat → Memory → Bool
  | _, [] => true
  | low, (k, _) :: rest => decide (low ≤ k) && Memory.risesFrom (k + 1) rest

/-- The canonical form: addresses strictly rising and inside the 32-bit space (20_memory R62). An unlisted address
is not readable, and no listed entry can say that, so equal memories are equal lists. -/
def Memory.wf (m : Memory) : Bool := m.risesFrom 0 && m.all (fun c => decide (c.1 < 2 ^ 32))

/-! ### DMA channels -/

/-- The registers of channel `c` (10_state R33). A number outside the pool has no channel: it reads as a free idle
one (log 18). -/
def State.chan (s : State) (c : Nat) : Channel := s.ch.getD c Channel.reset

/-- Channel `c` holds `x` from now on. -/
def State.setChan (s : State) (c : Nat) (x : Channel) : State := { s with ch := s.ch.set c x }

/-- The number of the feeder's channel (10_state R34). -/
def State.feederIndex (s : State) : Nat := s.feeder_ch.toNat

/-! ### Transmit FIFO -/

/-- `FifoPush(b)` (00_scope R8, 41_streamer R162). -/
def State.fifoPush (s : State) (b : Byte) : State := { s with fifo := s.fifo ++ [b] }

/-- A pull, `osr <- FifoPop(); osr_count <- 8` (41_streamer R163); it is only done on a FIFO that holds a byte. -/
def State.pull (s : State) : State :=
  match s.fifo with
  | [] => s
  | b :: rest => { s with fifo := rest, osr := b, osr_count := 8 }

/-! ### Errors -/

/-- The non-fatal errors (60_exceptions R281). -/
inductive ErrorCode where
  | illegalOpcode
  | reservedBits
  | alreadyLoaded
  | notLoaded
  | cfgWhileEnabled
  | notReady
  | dmaAlreadyActive
  | badChannel
  | armWhilePending
  | dmaReadFault
deriving DecidableEq, Repr

/-- The `code` column of 60_exceptions R281. -/
def ErrorCode.byte : ErrorCode → Byte
  | .illegalOpcode => 0x01
  | .reservedBits => 0x02
  | .alreadyLoaded => 0x03
  | .notLoaded => 0x04
  | .cfgWhileEnabled => 0x05
  | .notReady => 0x06
  | .dmaAlreadyActive => 0x07
  | .badChannel => 0x08
  | .armWhilePending => 0x09
  | .dmaReadFault => 0x0A

/-- The fatal causes (60_exceptions R282). -/
inductive FatalCause where
  | imemExhausted
  | dmaNoChannel
deriving DecidableEq, Repr

/-- The `cause` column of 60_exceptions R282. -/
def FatalCause.byte : FatalCause → Byte
  | .imemExhausted => 0x01
  | .dmaNoChannel => 0x02

/-- `raise Error(code)` from a command with opcode `op` (60_exceptions R283). -/
def State.raiseError (s : State) (code : ErrorCode) (op : Byte) : State :=
  { s with err := true, errcode := code.byte, err_op := op, err_async := false }

/-- The error record of an autonomous step (60_exceptions R283, 42_dma_feeder R209). -/
def State.raiseAsync (s : State) (code : ErrorCode) : State :=
  { s with err := true, errcode := code.byte, err_op := 0x00, err_async := true }

/-- `raise Fatal(cause)` from a command with opcode `op` (60_exceptions R286). -/
def State.raiseFatal (s : State) (cause : FatalCause) (op : Byte) : State :=
  { s with fatal := true, fatal_cause := cause.byte, err_op := op }

/-- The return (60_exceptions R295): the error record is cleared, the fatal record is not (40_control_pins R122). -/
def State.clearError (s : State) : State :=
  { s with err := false, errcode := 0x00, err_op := 0x00, err_async := false }

/-- The fatal check that comes before every command (30_encoding R95, 60_exceptions R287): in the fatal state the
command is ignored. -/
def unlessFatal (s : State) (run : Result) : Result := if s.fatal then .next s else run

/-! ### Block reset -/

/-- Block reset (70_reset_and_hazards R320): the block's own fields take the values of 10_state R55. The parameters,
PayloadMem and the environment's lines stay; so do the turns and the host lines still to come, the host's WAIT and its
last read value (log 16). -/
def State.blockReset (s : State) : State :=
  { State.initial s.cfg with
    mem := s.mem, sched := s.sched, host := s.host, host_wait := s.host_wait, host_rdata := s.host_rdata,
    ext_rst := s.ext_rst, strobe0_in := s.strobe0_in, strobe1_in := s.strobe1_in }

end Sys2Proof.Machine
end

