-- ==== Sys2Proof/Machine/Flags.lean ====
section
/-! DEFINITION. The signals and flags computed from the state, never stored (spec/10_state.md R25, R27, R54), and the
status words that show them (R41, R42). -/

namespace Sys2Proof.Machine

/-- `rst_line = ext_rst AND NOT rst_drive`, the wired-AND of 10_state R25. -/
def State.rstLine (s : State) : Bool := s.ext_rst && !s.rst_drive

/-- `fifo_level` (10_state R54). -/
abbrev State.fifoLevel (s : State) : Nat := s.fifo.length

/-- DREQ, the streamer's request for the next byte (10_state R54, 42_dma_feeder R201). -/
def State.dreq (s : State) : Bool := decide (s.fifoLevel < s.cfg.fifoDepth)

/-- `claimed[c] = ch_own[c] OR ext_claim[c]` (10_state R54). -/
def State.claimed (s : State) (c : Nat) : Bool := (s.chan c).own || s.ext_claim.getLsbD c

/-- The jump-condition input (10_state R54, 41_streamer R166): asserted at level 1. -/
def State.strobe (s : State) : Bool := s.strobe0_in

/-- `feeder_active AND ch_busy[feeder_ch]`, STATUS.DMA_BUSY (10_state R41). -/
def State.dmaBusy (s : State) : Bool := s.feeder_active && (s.chan s.feederIndex).busy

/-! ### Status words -/

/-- STATUS.PHASE (10_state R41): 0 ArmedForFall, 1 ArmedForRise. -/
def Phase.flag : Phase → Bool
  | .armedForFall => false
  | .armedForRise => true

/-- STATUS (10_state R41). -/
def State.statusWord (s : State) : Word :=
  flagAt 0 s.rm_pending ||| flagAt 1 s.rm_armed ||| flagAt 2 s.rm_phase.flag
    ||| flagAt 3 s.rstLine ||| flagAt 4 s.rst_drive ||| flagAt 5 s.pins_configured
    ||| flagAt 6 s.sm_loaded ||| flagAt 7 s.sm_configured ||| flagAt 8 s.sm_enabled
    ||| flagAt 9 s.feeder_active ||| flagAt 10 s.dmaBusy
    ||| flagAt 11 s.dreq ||| flagAt 12 (decide (s.fifoLevel = 0))
    ||| flagAt 13 (decide (s.fifoLevel = s.cfg.fifoDepth))
    ||| flagAt 14 s.err ||| flagAt 15 s.fatal ||| fieldAt 16 4 s.fifoLevel

/-- ERRINFO (10_state R42). -/
def State.errinfoWord (s : State) : Word :=
  fieldAt 0 8 s.errcode.toNat ||| fieldAt 8 8 s.err_op.toNat ||| fieldAt 16 8 s.fatal_cause.toNat
    ||| flagAt 24 s.err_async

/-! ### Pads -/

/-- What is on a pad: high impedance, or a driven level (10_state R27). -/
inductive Pad where
  | z
  | level (v : Bool)
deriving DecidableEq, Repr

/-- What the target sees on pin `p`, the reset line apart (10_state R27). -/
def State.pad (s : State) (p : Nat) : Pad :=
  if !(s.pins_configured && s.data_oe) then .z
  else if s.cfg.isSide p && !s.cfg.isData p then .level (s.sideset_out.getLsbD (p - s.cfg.sidesetBase))
  else if s.cfg.isData p && s.cfg.isSide p && s.side_owner.getLsbD (p - s.cfg.sidesetBase) then
    .level (s.sideset_out.getLsbD (p - s.cfg.sidesetBase))
  else if s.cfg.isData p then .level (s.data_out.getLsbD (p - s.cfg.dataBase))
  else .z

/-- What the block puts on the reset pin (10_state R25, 20_memory R65): low while it drives, else nothing. -/
def State.resetPad (s : State) : Pad := if s.rst_drive then .level false else .z

end Sys2Proof.Machine
end

