-- ==== Sys2Proof/Machine/Monitor.lean ====
section
/-! DEFINITION. The ResetMonitor (spec/43_reset_monitor.md): the edge rules, run in the step that changes the line,
the tick, and the commands RM_ARM and RM_CLEAR. -/

namespace Sys2Proof.Machine

/-- `Fall()` (43_reset_monitor R244 to R246). -/
def State.fall (s : State) : State :=
  if s.rm_armed && decide (s.rm_phase = .armedForFall) then
    { s with rm_lastFall := s.now, rm_phase := .armedForRise }
  else s

/-- `Glitch()` (43_reset_monitor R249). -/
def State.glitch (s : State) : State := { s with rm_phase := .armedForFall }

/-- `Accept()` (43_reset_monitor R250). -/
def State.accept (s : State) : State :=
  { s with rm_pending := true, rm_armed := false, rm_phase := .armedForFall }

/-- `elapsed` in ticks, modulo 2^TS_WIDTH (43_reset_monitor R248, R257; log 24). -/
def State.elapsed (s : State) : Nat := s.cfg.timeSub s.now s.rm_lastFall

/-- `Rise()` (43_reset_monitor R244, R247, R248). -/
def State.rise (s : State) : State :=
  if s.rm_armed && decide (s.rm_phase = .armedForRise) then
    if tDebounce ≤ s.elapsed then s.accept else s.glitch
  else s

/-- `LineChanged(old, new)`, where `new` is the line's level in `s` (43_reset_monitor R243). -/
def State.lineChanged (s : State) (old : Bool) : State :=
  match old, s.rstLine with
  | true, false => s.fall
  | false, true => s.rise
  | true, true => s
  | false, false => s

/-- The tick step (43_reset_monitor R241). A WAIT that the host is in has let one tick more pass (30_encoding R99,
log 4). -/
def State.tick (s : State) : State :=
  { s with now := s.cfg.timeAdd s.now 1, host_wait := s.host_wait.map (· + 1) }

/-- The target sets its level on the reset line (43_reset_monitor R242). -/
def State.setExtRst (s : State) (v : Bool) : State := State.lineChanged { s with ext_rst := v } s.rstLine

/-- RM_ARM (43_reset_monitor R251, R252). -/
def execRmArm (s : State) : Result :=
  unlessFatal s <|
    if s.rm_pending then .next (s.raiseError .armWhilePending Instr.rmArm.opcode)
    else .next { s with rm_armed := true, rm_phase := .armedForFall }

/-- RM_CLEAR (43_reset_monitor R253). -/
def execRmClear (s : State) : Result := unlessFatal s <| .next { s with rm_pending := false }

end Sys2Proof.Machine
end

