-- ==== Sys2Proof/Machine/Control.lean ====
section
/-! DEFINITION. The control, pin and reset-line commands (spec/40_control_pins.md): NOP, ERR_CLEAR, PIN_CONFIG,
RST_DRIVE_LOW, RST_RELEASE. -/

namespace Sys2Proof.Machine

/-- NOP (40_control_pins R121). -/
def execNop (s : State) : Result := unlessFatal s <| .next s

/-- ERR_CLEAR (40_control_pins R122). -/
def execErrClear (s : State) : Result := unlessFatal s <| .next s.clearError

/-- PIN_CONFIG (40_control_pins R123). -/
def execPinConfig (s : State) : Result := unlessFatal s <| .next { s with pins_configured := true }

/-- RST_DRIVE_LOW (40_control_pins R127). -/
def execRstDriveLow (s : State) : Result :=
  unlessFatal s <| .next (State.lineChanged { s with rst_drive := true } s.rstLine)

/-- RST_RELEASE (40_control_pins R128). -/
def execRstRelease (s : State) : Result :=
  unlessFatal s <| .next (State.lineChanged { s with rst_drive := false } s.rstLine)

end Sys2Proof.Machine
end

