-- ==== Sys2Proof/Machine/Feeder.lean ====
section
/-! DEFINITION. The DmaFeeder (spec/42_dma_feeder.md): the channel pool, the commands DMA_START and DMA_STOP, and the
DMA's step, one byte transfer. -/

namespace Sys2Proof.Machine

/-- The lowest-numbered unclaimed channel of the pool (42_dma_feeder R204). -/
def State.freeChannel (s : State) : Option Nat := (List.range s.cfg.numCh).find? (fun c => !s.claimed c)

/-- DMA_START (42_dma_feeder R203 to R206). -/
def execDmaStart (s : State) : Result :=
  unlessFatal s <|
    if s.feeder_active then .next (s.raiseError .dmaAlreadyActive Instr.dmaStart.opcode)
    else
      match s.freeChannel with
      | none => .next (s.raiseFatal .dmaNoChannel Instr.dmaStart.opcode)
      | some c =>
        .next { s.setChan c { own := true, busy := decide (s.dma_count ≠ 0), read_addr := s.dma_src,
                              count := s.dma_count } with
          feeder_active := true
          feeder_ch := BitVec.ofNat 8 c
          res_ch := BitVec.ofNat 8 c }

/-- DMA_STOP on channel `c` (42_dma_feeder R211 to R213). -/
def execDmaStop (c : Nat) (s : State) : Result :=
  unlessFatal s <|
    if s.cfg.numCh ≤ c then .next (s.raiseError .badChannel (Instr.dmaStop c).opcode)
    else if !(s.chan c).own then .next s
    else
      .next { s.setChan c { own := false, busy := false, read_addr := (s.chan c).read_addr, count := 0 } with
        feeder_active := false }

/-- `DmaReadFault(c)` (42_dma_feeder R209). -/
def State.dmaReadFault (s : State) (c : Nat) : State :=
  (s.setChan c { s.chan c with busy := false }).raiseAsync .dmaReadFault

/-- The channel after a transfer (42_dma_feeder R208, R210; 20_memory R84). -/
def Channel.advance (x : Channel) : Channel :=
  { x with read_addr := x.read_addr + 1, count := x.count - 1, busy := x.busy && decide (x.count - 1 ≠ 0) }

/-- One transfer of byte `b` on channel `c` (42_dma_feeder R208). -/
def State.dmaTransfer (s : State) (c : Nat) (b : Byte) : State :=
  (s.fifoPush b).setChan c (s.chan c).advance

/-- When the DMA has a step (42_dma_feeder R208, 60_exceptions R300). -/
def State.dmaReady (s : State) : Bool := s.feeder_active && (s.chan s.feederIndex).busy && s.dreq

/-- The DMA's turn (42_dma_feeder R208). When it is not ready it has no step: its turn passes and changes nothing
(log 2). It reads memory at the moment of its own step (20_memory R78). 20_memory R73 leaves to the platform
whether that read has a side effect in system memory: here the turn leaves memory as it is, a DESIGN CHOICE, and such an
effect is a platform turn of its own (log 25). -/
def dmaStep (s : State) : State :=
  if s.dmaReady then
    match s.mem.read (s.chan s.feederIndex).read_addr.toNat with
    | none => s.dmaReadFault s.feederIndex
    | some b => s.dmaTransfer s.feederIndex b
  else s

end Sys2Proof.Machine
end

