-- ==== Sys2Proof/WellFormed.lean ====
section
/-! DEFINITION. Which instructions, bus programs and configurations are well-formed: the field width of
spec/30_encoding.md R91, the step contract of 41_streamer R176 to R178, and the constraints in the last column of
00_scope R6. Each is a Bool, so that `decide` runs it. -/

namespace Sys2Proof

/-- An instruction fits its word: ARG has 8 bits (30_encoding R91, R92). A channel at or above NUM_CH is
well-formed: it raises BAD_CHANNEL (42_dma_feeder R213). -/
def Instr.wf : Instr → Bool
  | .dmaStop c => decide (c < 256)
  | .nop | .pinConfig | .smLoad | .smConfig | .smEnable | .smDisable | .smRestart | .dmaStart
  | .rmArm | .rmClear | .rstDriveLow | .rstRelease | .errClear => true

/-- Is this part a `WriteData`? -/
def BusAction.isData : BusAction → Bool
  | .writeData _ => true
  | _ => false

/-- Is this part a `WriteSide`? -/
def BusAction.isSide : BusAction → Bool
  | .writeSide _ => true
  | _ => false

/-- Is this part a pull? -/
def BusAction.isPull : BusAction → Bool
  | .pull => true
  | _ => false

/-- An effect obeys the contract: k' < PROG_LEN (41_streamer R178), at most one pull (R176, R177), at most one
`WriteData` and one `WriteSide` (R176), and no `WriteSide` unless SIDESET_EN = 1 (R165). -/
def BusEffect.wf (c : Config) (e : BusEffect) : Bool :=
  decide (e.next < c.progLen) && decide (e.acts.countP BusAction.isPull ≤ 1)
    && decide (e.acts.countP BusAction.isData ≤ 1) && decide (e.acts.countP BusAction.isSide ≤ 1)
    && (c.sidesetEn || !e.acts.any BusAction.isSide)

/-- Every effect of a program word obeys the contract. -/
def BusTree.wf (c : Config) : BusTree → Bool
  | .stall => true
  | .effect e => e.wf c
  | .ask _ yes no => yes.wf c && no.wf c

/-- The constraints of 00_scope R6. -/
def Config.wf (c : Config) : Bool :=
  decide (c.sidesetBase + sidesetDataBits ≤ c.numPins) && decide (c.numPins ≤ 32)
    && decide (c.dataBase + dataLines ≤ c.numPins)
    && decide (c.strobe0Pin < c.numPins)
    && !(decide (c.dataBase ≤ c.strobe0Pin) && decide (c.strobe0Pin < c.dataBase + dataLines))
    && decide (c.strobe1Pin < c.numPins) && decide (c.rstPin < c.numPins)
    && decide (1 ≤ c.fifoDepth) && decide (c.fifoDepth ≤ 15)
    && decide (1 ≤ c.imemWords) && decide (c.imemWords ≤ 32)
    && decide (1 ≤ c.progLen) && decide (c.progLen ≤ c.imemWords)
    && decide (1 ≤ c.numCh) && decide (c.numCh ≤ 31)
    && decide (10 ≤ c.tsWidth) && decide (c.regBase.toNat % 4 = 0)
    && c.program.all (BusTree.wf c)

end Sys2Proof
end

