-- ==== Sys2Proof/Machine/Streamer.lean ====
section
/-! DEFINITION. The ParallelStreamer (spec/41_streamer.md): placement in instruction memory, the commands SM_LOAD,
SM_CONFIG, SM_ENABLE, SM_DISABLE and SM_RESTART, the strobes, and the streamer's step, one step of BUS_PROGRAM. -/

namespace Sys2Proof.Machine

/-! ### Placement -/

/-- The bits `o + len - 1 : o` of an instruction-memory map (41_streamer R151). -/
def region (o len : Nat) : Word := BitVec.ofNat 32 (2 ^ len - 1) <<< o

/-- The words in use, by this block or by another user (41_streamer R151, `used`). -/
def State.imemUsed (s : State) : Word := s.imem_own ||| s.imem_ext

/-- Is the region of `len` words at `o` free? -/
def State.regionFree (s : State) (len o : Nat) : Bool := decide (s.imemUsed &&& region o len = 0)

/-- The offset that SM_LOAD's loop finds: the highest one whose region is free (41_streamer R151, R152). -/
def State.placement (s : State) : Option Nat :=
  if s.cfg.progLen ≤ s.cfg.imemWords then
    (List.range (s.cfg.imemWords - s.cfg.progLen + 1)).reverse.find? (s.regionFree s.cfg.progLen)
  else none

/-! ### Commands -/

/-- `ClearPipeline()` (41_streamer R160). -/
def State.clearPipeline (s : State) : State :=
  { s with fifo := [], osr := 0, osr_count := 0, isr := 0, isr_count := 0, sm_pc := s.sm_handle }

/-- SM_LOAD (41_streamer R151 to R153). -/
def execSmLoad (s : State) : Result :=
  unlessFatal s <|
    if s.sm_loaded then .next (s.raiseError .alreadyLoaded Instr.smLoad.opcode)
    else
      match s.placement with
      | some o =>
        .next { s with
          imem_own := s.imem_own ||| region o s.cfg.progLen
          sm_handle := BitVec.ofNat 5 o
          res_handle := BitVec.ofNat 8 o
          sm_loaded := true }
      | none => .next (s.raiseFatal .imemExhausted Instr.smLoad.opcode)

/-- SM_CONFIG (41_streamer R154). -/
def execSmConfig (s : State) : Result :=
  unlessFatal s <|
    if !s.sm_loaded then .next (s.raiseError .notLoaded Instr.smConfig.opcode)
    else if s.sm_enabled then .next (s.raiseError .cfgWhileEnabled Instr.smConfig.opcode)
    else .next { s.clearPipeline with data_oe := true, sm_configured := true }

/-- SM_ENABLE (41_streamer R157). -/
def execSmEnable (s : State) : Result :=
  unlessFatal s <|
    if !s.pins_configured || !s.sm_configured then .next (s.raiseError .notReady Instr.smEnable.opcode)
    else .next { s with sm_enabled := true }

/-- SM_DISABLE (41_streamer R158). -/
def execSmDisable (s : State) : Result := unlessFatal s <| .next { s with sm_enabled := false }

/-- SM_RESTART (41_streamer R159): disabled, then the pipeline cleared; it does not enable again (90_conflicts C1). -/
def execSmRestart (s : State) : Result :=
  unlessFatal s <| .next (State.clearPipeline { s with sm_enabled := false })

/-! ### Datapath and the bus program's step -/

/-- `WriteData(v)` (41_streamer R164). -/
def State.writeData (s : State) (v : Byte) : State :=
  { s with data_out := v, side_owner := s.side_owner &&& ~~~s.cfg.sharedSide }

/-- `WriteSide(v)` (41_streamer R165). -/
def State.writeSide (s : State) (v : BitVec 3) : State := { s with sideset_out := v, side_owner := 0b111 }

/-- What the bus program sees (41_streamer R176). -/
def State.busView (s : State) : BusView where
  fifoNonempty := decide (0 < s.fifoLevel)
  osr := s.osr
  osrCount := s.osr_count
  isr := s.isr
  isrCount := s.isr_count
  strobe0 := s.strobe
  strobe1 := s.strobe1_in

/-- One part of an effect acts; bytes are read in the view `v` of the state before the step (41_streamer R176). -/
def State.act (v : BusView) (s : State) : BusAction → State
  | .pull => s.pull
  | .writeData b => s.writeData (b.eval v)
  | .writeSide x => s.writeSide x
  | .setOsr b => { s with osr := b.eval v }
  | .setOsrCount n => { s with osr_count := n }
  | .setIsr b => { s with isr := b.eval v }
  | .setIsrCount n => { s with isr_count := n }

/-- `k = (sm_pc - sm_handle) mod 32` (41_streamer R176). -/
def State.progOffset (s : State) : Nat := (s.sm_pc - s.sm_handle).toNat

/-- The parts act in order, then `sm_pc <- sm_handle + k'` modulo 32 (41_streamer R176). -/
def State.applyEffect (s : State) (e : BusEffect) : State :=
  { e.acts.foldl (State.act s.busView) s with sm_pc := s.sm_handle + BitVec.ofNat 5 e.next }

/-- Does the effect wait for a byte: a pull on an empty FIFO has no step (41_streamer R163, R185). -/
def State.pullWaits (s : State) (e : BusEffect) : Bool := s.fifo.isEmpty && e.acts.any BusAction.isPull

/-- The streamer's turn (41_streamer R168, R176). A disabled or stalled streamer has no step: its turn passes and
changes nothing (log 2). -/
def streamerStep (s : State) : Result :=
  if !s.sm_enabled then .next s
  else
    match s.cfg.program[s.progOffset]? with
    | none => .fault .pcOutsideProgram
    | some word =>
      match word.eval s.busView with
      | none => .next s
      | some e =>
        if !e.wf s.cfg then .fault .busProgramBroken
        else if s.pullWaits e then .next s
        else .next (s.applyEffect e)

end Sys2Proof.Machine
end

