-- ==== Sys2Proof/Machine/Dispatch.lean ====
section
/-! DEFINITION. The meaning of every instruction: one arm per constructor of `Instr`, one direct call each. -/

namespace Sys2Proof.Machine

/-- The effect of a command (spec/30_encoding.md R95, the rule of its row in R94). -/
def exec (i : Instr) (s : State) : Host.Outcome State Fault Refusal :=
  match i with
  | .nop => Sys2Proof.Machine.execNop s
  | .pinConfig => Sys2Proof.Machine.execPinConfig s
  | .smLoad => Sys2Proof.Machine.execSmLoad s
  | .smConfig => Sys2Proof.Machine.execSmConfig s
  | .smEnable => Sys2Proof.Machine.execSmEnable s
  | .smDisable => Sys2Proof.Machine.execSmDisable s
  | .smRestart => Sys2Proof.Machine.execSmRestart s
  | .dmaStart => Sys2Proof.Machine.execDmaStart s
  | .dmaStop c => Sys2Proof.Machine.execDmaStop c s
  | .rmArm => Sys2Proof.Machine.execRmArm s
  | .rmClear => Sys2Proof.Machine.execRmClear s
  | .rstDriveLow => Sys2Proof.Machine.execRstDriveLow s
  | .rstRelease => Sys2Proof.Machine.execRstRelease s
  | .errClear => Sys2Proof.Machine.execErrClear s

end Sys2Proof.Machine
end

