-- ==== Sys2Proof/Machine/Operands.lean ====
section
/-! DEFINITION. The operand forms of the block: the register block's map (spec/10_state.md R39 to R52), its plain
reads and writes (40_control_pins R129, R130), and which accesses exist at all (20_memory R61, R70). DMA_STOP's ARG
is the one operand in a command word (30_encoding R92) and is decoded in Decode.lean; DMA_START's operands are the
registers DMA_SRC and DMA_COUNT. -/

namespace Sys2Proof.Machine

/-- The named registers (10_state R39). -/
inductive Reg where
  | CMD
  | STATUS
  | ERRINFO
  | RESULT
  | DMA_SRC
  | DMA_COUNT
  | EXT_CLAIM
  | IMEM_EXT
  | CFG0
  | CFG1
  | CFG2
  | DMA_REMAIN
deriving DecidableEq, Repr

/-- The `offset` column of 10_state R39. -/
def Reg.offset : Reg → Byte
  | .CMD => 0x00
  | .STATUS => 0x04
  | .ERRINFO => 0x08
  | .RESULT => 0x0C
  | .DMA_SRC => 0x10
  | .DMA_COUNT => 0x14
  | .EXT_CLAIM => 0x18
  | .IMEM_EXT => 0x1C
  | .CFG0 => 0x20
  | .CFG1 => 0x24
  | .CFG2 => 0x28
  | .DMA_REMAIN => 0x2C

/-- The register at an offset; `none` for a reserved one (10_state R52). -/
def Reg.at (o : Byte) : Option Reg :=
  match o.toNat with
  | 0x00 => some .CMD
  | 0x04 => some .STATUS
  | 0x08 => some .ERRINFO
  | 0x0C => some .RESULT
  | 0x10 => some .DMA_SRC
  | 0x14 => some .DMA_COUNT
  | 0x18 => some .EXT_CLAIM
  | 0x1C => some .IMEM_EXT
  | 0x20 => some .CFG0
  | 0x24 => some .CFG1
  | 0x28 => some .CFG2
  | 0x2C => some .DMA_REMAIN
  | _ => none

/-- The bits `n-1:0` of a word; the bits above read 0 (10_state R46, R47). -/
def lowBits (n : Nat) (v : Word) : Word := v &&& BitVec.ofNat 32 (2 ^ n - 1)

/-- The value of a named register (10_state R40 to R51). CMD reads 0. -/
def Reg.value (s : State) : Reg → Word
  | .CMD => 0
  | .STATUS => s.statusWord
  | .ERRINFO => s.errinfoWord
  | .RESULT => fieldAt 0 8 s.res_handle.toNat ||| fieldAt 8 8 s.res_ch.toNat
  | .DMA_SRC => s.dma_src
  | .DMA_COUNT => s.dma_count
  | .EXT_CLAIM => lowBits s.cfg.numCh s.ext_claim
  | .IMEM_EXT => lowBits s.cfg.imemWords s.imem_ext
  | .CFG0 => s.cfg.cfg0
  | .CFG1 => s.cfg.cfg1
  | .CFG2 => s.cfg.cfg2
  | .DMA_REMAIN => if s.feeder_active then (s.chan s.feederIndex).count else 0

/-- Host register read at offset `o` (40_control_pins R130): CMD and reserved offsets read 0. -/
def State.readReg (s : State) (o : Byte) : Word :=
  match Reg.at o with
  | some r => r.value s
  | none => 0

/-- Host register write to a register other than CMD (40_control_pins R129): read-only and reserved offsets ignore
it. A write to CMD executes a command (10_state R40) and does not come here. -/
def State.writeReg (s : State) (o : Byte) (v : Word) : State :=
  match Reg.at o with
  | some .DMA_SRC => { s with dma_src := v }
  | some .DMA_COUNT => { s with dma_count := v }
  | some .EXT_CLAIM => { s with ext_claim := lowBits s.cfg.numCh v }
  | some .IMEM_EXT => { s with imem_ext := lowBits s.cfg.imemWords v }
  | _ => s

/-- The accesses the spec defines: aligned 32-bit ones (20_memory R70). -/
def accessDefined (w : Width) (o : Byte) : Bool := decide (w = .w32) && decide (o.toNat % 4 = 0)

end Sys2Proof.Machine
end

