-- ==== Sys2Proof/Machine/Agents.lean ====
section
/-! DEFINITION. The agents' turns (spec/60_exceptions.md R300): the host's register accesses and commands, the
streamer, the DMA, the environment, the platform, block reset. -/

namespace Sys2Proof.Machine

/-! ### The host -/

/-- The error a rejected word raises (30_encoding R96, R97). -/
def decodeErrorCode : DecodeError → ErrorCode
  | .illegalOpcode => .illegalOpcode
  | .reservedBits => .reservedBits

/-- A write of word `w` to CMD (30_encoding R95): ignored in the fatal state, an error where the word names no
command, else the command's effect. -/
def executeWord (w : Word) (s : State) : Result :=
  unlessFatal s <|
    match decode w with
    | .ok i => exec i s
    | .error e => .next (s.raiseError (decodeErrorCode e) (opField w))

/-- A host register write (10_state R40, 40_control_pins R129, 20_memory R70). -/
def hostWrite (width : Width) (addr v : Word) (s : State) : Result :=
  if accessDefined width (s.cfg.regOffset addr) then
    if s.cfg.regOffset addr = 0x00 then executeWord v s
    else .next (s.writeReg (s.cfg.regOffset addr) v)
  else .refused .undefinedAccess

/-- A host register read (40_control_pins R130): the block is unchanged, the host holds the value. -/
def hostRead (width : Width) (addr : Word) (s : State) : Result :=
  if accessDefined width (s.cfg.regOffset addr) then
    .next { s with host_rdata := some (s.readReg (s.cfg.regOffset addr)) }
  else .refused .undefinedAccess

/-- One read of a POLL (30_encoding R99): while the field is not `v`, the line stays pending, with no timeout
(60_exceptions R303); a `v` that the field cannot hold is awaited for ever. `s` already lacks the line, `line`. -/
def hostPoll (line : HostOp) (addr : Word) (lo width v : Nat) (s : State) : Result :=
  if accessDefined .w32 (s.cfg.regOffset addr) then
    let r := s.readReg (s.cfg.regOffset addr)
    if (r.extractLsb' lo width).toNat = v then .next { s with host_rdata := some r }
    else .next { s with host_rdata := some r, host := line :: s.host }
  else .refused .undefinedAccess

/-- A WAIT (30_encoding R99): the line begins at the host's first turn on it and ends at a turn by which `n` ticks or
more have passed (log 4). `s` already lacks the line, `line`. -/
def hostWaitStep (line : HostOp) (n : Nat) (s : State) : State :=
  let passed := s.host_wait.getD 0
  if n ≤ passed then { s with host_wait := none }
  else { s with host_wait := some passed, host := line :: s.host }

/-- The host's turn: its next pending line, in program order (20_memory R77). With none pending it does nothing. -/
def hostStep (s : State) : Result :=
  match s.host with
  | [] => .next s
  | .write width addr v :: rest => hostWrite width addr v { s with host := rest }
  | .read width addr :: rest => hostRead width addr { s with host := rest }
  | .poll addr lo width v :: rest => hostPoll (.poll addr lo width v) addr lo width v { s with host := rest }
  | .wait n :: rest => .next (hostWaitStep (.wait n) n { s with host := rest })

/-! ### Every agent -/

/-- The turn of an agent (60_exceptions R300; 43_reset_monitor R241, R242; 41_streamer R167, R168;
42_dma_feeder R208; 20_memory R78; 70_reset_and_hazards R320). -/
def runTurn (t : Turn) (s : State) : Result :=
  match t with
  | .host => hostStep s
  | .streamer => streamerStep s
  | .dma => .next (dmaStep s)
  | .tick => .next s.tick
  | .rst v => .next (s.setExtRst v)
  | .stb0 v => .next { s with strobe0_in := v }
  | .stb1 v => .next { s with strobe1_in := v }
  | .payload addr b => .next { s with mem := s.mem.update addr.toNat b }
  | .blockReset => .next s.blockReset

/-- The machine's step: the next agent of the schedule takes its turn. With no turn scheduled no agent moves and
nothing changes (00_scope R9, log 3). -/
def nextTurn (s : State) : Result :=
  match s.sched with
  | [] => .next s
  | t :: rest => runTurn t { s with sched := rest }

/-- The state in which the host's very next access, taken at the very next step, writes `w` to CMD (log 6). -/
def State.beforeCommand (s : State) (w : Word) : State :=
  { s with sched := .host :: s.sched, host := .write .w32 s.cfg.regBase w :: s.host }

end Sys2Proof.Machine
end

