-- ==== Sys2Proof/Machine/Step.lean ====
section
/-! DEFINITION. The step function: one atomic step of one agent (spec/00_scope.md R9). -/

namespace Sys2Proof.Machine

/-- One step (00_scope R9, 20_memory R76): the agent whose turn it is moves. -/
def step (s : State) : Host.Outcome State Fault Refusal := nextTurn s

/-- `s` with the command word whose table bits are `w` made the host's next access (log 6). A command is one 32-bit
word (30_encoding R90); the bits at and above `nbits` are 0. -/
def State.withFetchWord (s : State) (nbits w : Nat) : State :=
  s.beforeCommand (BitVec.ofNat 32 (w % 2 ^ nbits))

end Sys2Proof.Machine
end

