-- ==== Sys2Proof/Machine/HostSyntax.lean ====
section
/-! DEFINITION. The host's assembly lines and pseudo-instructions, and the lines that fix an interleaving, as data
that a run can be given (spec/30_encoding.md R99 to R101). -/

namespace Sys2Proof.Machine

/-- A field of a register, for POLL (30_encoding R99). -/
structure RegField where
  reg : Reg
  lo : Nat
  width : Nat
deriving DecidableEq, Repr

/-- STATUS.PENDING (10_state R41). -/
def statusPending : RegField := { reg := .STATUS, lo := 0, width := 1 }

/-- STATUS.RST_LEVEL (10_state R41). -/
def statusRstLevel : RegField := { reg := .STATUS, lo := 3, width := 1 }

/-- A host line (30_encoding R99). -/
inductive Line where
  /-- `W <REG>, <value>` -/
  | W (r : Reg) (v : Word)
  /-- `R <REG>` -/
  | R (r : Reg)
  /-- `C <MNEMONIC>` and `C DMA_STOP <ch>` -/
  | C (i : Instr)
  /-- `POLL <REG>.<FIELD> == <v>` -/
  | POLL (f : RegField) (v : Nat)
  /-- `WAIT <n>` -/
  | WAIT (n : Nat)
deriving DecidableEq, Repr

/-- The bus address of a register (20_memory R61). -/
def Reg.address (c : Config) (r : Reg) : Word := c.regBase + r.offset.setWidth 32

/-- The word of a `C` line (30_encoding R99): that of the row, and for DMA_STOP `0x08000000 | (ch << 16)`. -/
def lineWord : Instr → Word
  | .dmaStop c => 0x08000000#32 ||| BitVec.ofNat 32 c <<< 16
  | .nop => encode .nop
  | .pinConfig => encode .pinConfig
  | .smLoad => encode .smLoad
  | .smConfig => encode .smConfig
  | .smEnable => encode .smEnable
  | .smDisable => encode .smDisable
  | .smRestart => encode .smRestart
  | .dmaStart => encode .dmaStart
  | .rmArm => encode .rmArm
  | .rmClear => encode .rmClear
  | .rstDriveLow => encode .rstDriveLow
  | .rstRelease => encode .rstRelease
  | .errClear => encode .errClear

/-- The access a line makes (30_encoding R99). -/
def Line.op (c : Config) : Line → HostOp
  | .W r v => .write .w32 (r.address c) v
  | .R r => .read .w32 (r.address c)
  | .C i => .write .w32 (Reg.CMD.address c) (lineWord i)
  | .POLL f v => .poll (f.reg.address c) f.lo f.width v
  | .WAIT n => .wait n

/-- The pseudo-instructions (30_encoding R100). -/
inductive Pseudo where
  | SETUP
  | START (src n : Word)
  | PULSE_RESET (t : Nat)
  | TEARDOWN (c : Nat)
  | CYCLE (src n : Word) (c t : Nat)
deriving DecidableEq, Repr

/-- `SETUP` (30_encoding R100, 70_reset_and_hazards R323). -/
def setupLines : List Line := [.C .pinConfig, .C .smLoad, .C .smConfig]

/-- `START <src>, <n>` (30_encoding R100). -/
def startLines (src n : Word) : List Line := [.W .DMA_SRC src, .W .DMA_COUNT n, .C .dmaStart]

/-- `PULSE_RESET <t>` (30_encoding R100). -/
def pulseResetLines (t : Nat) : List Line := [.C .rstDriveLow, .WAIT t, .C .rstRelease]

/-- `TEARDOWN <ch>` (30_encoding R100, 70_reset_and_hazards R335). -/
def teardownLines (c : Nat) : List Line := [.C (.dmaStop c), .C .smRestart, .C .rmClear]

/-- The expansions (30_encoding R100). -/
def Pseudo.expand : Pseudo → List Line
  | .SETUP => setupLines
  | .START src n => startLines src n
  | .PULSE_RESET t => pulseResetLines t
  | .TEARDOWN c => teardownLines c
  | .CYCLE src n c t =>
    startLines src n ++ pulseResetLines t
      ++ [.C .smEnable, .POLL statusRstLevel 1, .C .rmArm, .POLL statusPending 1, .POLL statusRstLevel 1]
      ++ teardownLines c

/-- The lines that fix an interleaving (30_encoding R101). -/
inductive EnvLine where
  /-- `ENV RST <0|1>` -/
  | RST (v : Bool)
  /-- `ENV STB0 <0|1>` -/
  | STB0 (v : Bool)
  /-- `ENV STB1 <0|1>` -/
  | STB1 (v : Bool)
  /-- `ENV TICK <n>` -/
  | TICK (n : Nat)
  /-- `DMA` -/
  | DMA
  /-- `SM` -/
  | SM
deriving DecidableEq, Repr

/-- The turns such a line stands for (30_encoding R101). -/
def EnvLine.turns : EnvLine → List Turn
  | .RST v => [.rst v]
  | .STB0 v => [.stb0 v]
  | .STB1 v => [.stb1 v]
  | .TICK n => List.replicate n .tick
  | .DMA => [.dma]
  | .SM => [.streamer]

end Sys2Proof.Machine
end

