-- ==== Sys2Proof/Safety.lean ====
section
/-! DEFINITION. What counts as a safe state and a safe run of the block: the invariants the spec states of its own
state, the states a run reaches, and the words claims about runs are made of (spec/60_exceptions.md R304: a claim
about the block is one about every finite prefix of a run). -/

namespace Sys2Proof.Machine

/-- What holds of every state that a run of a well-formed configuration reaches. -/
structure State.Inv (s : State) : Prop where
  /-- the parameters meet 00_scope R6 -/
  cfg_wf : s.cfg.wf = true
  /-- payload memory is in its canonical form (20_memory R62) -/
  mem_wf : s.mem.wf = true
  /-- `now` has TS_WIDTH bits (10_state R22) -/
  now_bound : s.now < 2 ^ s.cfg.tsWidth
  /-- `rm_lastFall` has TS_WIDTH bits (10_state R23) -/
  lastFall_bound : s.rm_lastFall < 2 ^ s.cfg.tsWidth
  /-- 0 to FIFO_DEPTH entries (10_state R31, 41_streamer R162) -/
  fifo_bound : s.fifo.length ≤ s.cfg.fifoDepth
  /-- the pool has NUM_CH channels (10_state R33) -/
  channels : s.ch.length = s.cfg.numCh
  /-- the feeder's channel is one of the pool (10_state R34) -/
  feeder_in_pool : s.feeder_active = true → s.feederIndex < s.cfg.numCh
  /-- a channel is owned exactly when it is the active feeder's (10_state R34) -/
  feeder_owns : ∀ c < s.cfg.numCh, (s.chan c).own = true ↔ s.feeder_active = true ∧ c = s.feederIndex
  /-- a busy channel is owned and has transfers remaining (10_state R33) -/
  busy_remaining : ∀ c < s.cfg.numCh, (s.chan c).busy = true → (s.chan c).own = true ∧ (s.chan c).count ≠ 0
  /-- RESULT.DMA_CH is the active feeder's channel (42_dma_feeder R203) -/
  result_channel : s.feeder_active = true → s.res_ch = s.feeder_ch
  /-- the bits of EXT_CLAIM above NUM_CH are 0 (10_state R46) -/
  ext_claim_legal : lowBits s.cfg.numCh s.ext_claim = s.ext_claim
  /-- the bits of IMEM_EXT above IMEM_WORDS are 0 (10_state R47) -/
  imem_ext_legal : lowBits s.cfg.imemWords s.imem_ext = s.imem_ext
  /-- the loaded program lies inside instruction memory and owns exactly its words (10_state R32, 41_streamer R151) -/
  loaded_region : s.sm_loaded = true →
    s.sm_handle.toNat + s.cfg.progLen ≤ s.cfg.imemWords ∧ s.imem_own = region s.sm_handle.toNat s.cfg.progLen
      ∧ s.res_handle.toNat = s.sm_handle.toNat
  /-- before the load the block owns no word (10_state R32, R55) -/
  unloaded_region : s.sm_loaded = false → s.imem_own = 0 ∧ s.sm_handle = 0 ∧ s.res_handle = 0
  /-- configured only after loaded (41_streamer R154) -/
  configured_loaded : s.sm_configured = true → s.sm_loaded = true
  /-- enabled only when the pins and the streamer are configured (41_streamer R157) -/
  enabled_ready : s.sm_enabled = true → s.pins_configured = true ∧ s.sm_configured = true
  /-- the output enable is SM_CONFIG's (41_streamer R154) -/
  output_enable : s.data_oe = s.sm_configured
  /-- `sm_pc` stays inside the program (10_state R29, 41_streamer R178) -/
  pc_in_program : s.sm_configured = true → s.progOffset < s.cfg.progLen
  /-- a pending reset means a disarmed monitor (43_reset_monitor R250, R252) -/
  pending_disarmed : s.rm_pending = true → s.rm_armed = false
  /-- in ArmedForRise the monitor is armed and the line is low (43_reset_monitor R246) -/
  rise_phase : s.rm_phase = .armedForRise → s.rm_armed = true ∧ s.rstLine = false
  /-- only the codes of 60_exceptions R281 are recorded, and NONE exactly when no error is -/
  error_record : s.errcode.toNat ≤ 0x0A ∧ (s.err = false ↔ s.errcode = 0)
  /-- an asynchronous error is a DMA read fault (60_exceptions R283, 42_dma_feeder R209) -/
  async_record : s.err_async = true ↔ s.errcode = 0x0A
  /-- only the causes of 60_exceptions R282 are recorded, and NONE exactly when not fatal -/
  fatal_record : s.fatal_cause.toNat ≤ 0x02 ∧ (s.fatal = false ↔ s.fatal_cause = 0)
  /-- with SIDESET_EN = 0 the side-set outputs keep their reset values (41_streamer R165) -/
  sideset_off : s.cfg.sidesetEn = false → s.sideset_out = 0 ∧ s.side_owner = 0

/-- `s`, but with the turn `t` before every other. -/
def State.withTurn (s : State) (t : Turn) : State := { s with sched := t :: s.sched }

/-- `s`, but with the host's turn before every other and the line `op` before every other host line. -/
def State.withHostOp (s : State) (op : HostOp) : State :=
  { s with sched := .host :: s.sched, host := op :: s.host }

/-- The next step is the turn `t`. -/
def State.takesTurn (s : State) (t : Turn) : Prop := ∃ rest, s.sched = t :: rest

/-- The next step is the host's write of a word that is the command `i`, in a block that is not fatal: the next step
runs `i` (30_encoding R95). -/
def State.runsCommand (s : State) (i : Instr) : Prop :=
  ∃ addr w ops, s.takesTurn .host ∧ s.host = .write .w32 addr w :: ops ∧ s.cfg.regOffset addr = 0
    ∧ decode w = .ok i ∧ s.fatal = false

/-- The next step is the host's write of a word that names no command, in a block that is not fatal (30_encoding R96,
R97). -/
def State.runsIllegalWord (s : State) : Prop :=
  ∃ addr w ops e, s.takesTurn .host ∧ s.host = .write .w32 addr w :: ops ∧ s.cfg.regOffset addr = 0
    ∧ decode w = .error e ∧ s.fatal = false

/-- `n` steps, stopping at the first fault or refusal (the `run` of Host/Core.lean at this machine). -/
def run : Nat → State → Result
  | 0, s => .next s
  | n + 1, s =>
    match step s with
    | .next t => run n t
    | .fault r => .fault r
    | .refused r => .refused r

/-- `t` is reached from `s` in `n` steps, none of which stopped. -/
def RunsTo (n : Nat) (s t : State) : Prop := run n s = .next t

/-- How many bytes the next `n` steps push into the FIFO (42_dma_feeder R217). -/
def pushesIn : Nat → State → Nat
  | 0, _ => 0
  | n + 1, s =>
    match step s with
    | .next t => (if s.fifo.length < t.fifo.length then 1 else 0) + pushesIn n t
    | .fault _ => 0
    | .refused _ => 0

/-- How many bytes the next `n` steps pull out of the FIFO (42_dma_feeder R217): a streamer's turn that shortens it. -/
def pullsIn : Nat → State → Nat
  | 0, _ => 0
  | n + 1, s =>
    match step s with
    | .next t => (if s.sched.head? = some .streamer ∧ t.fifo.length < s.fifo.length then 1 else 0) + pullsIn n t
    | .fault _ => 0
    | .refused _ => 0

/-- The bytes that the next `n` steps pull out of the FIFO, in order (41_streamer R162, R163): a streamer's turn that
shortens it takes its head. -/
def pulledBytes : Nat → State → List Byte
  | 0, _ => []
  | n + 1, s =>
    match step s with
    | .next t => (if s.sched.head? = some .streamer ∧ t.fifo.length < s.fifo.length then s.fifo.take 1 else [])
        ++ pulledBytes n t
    | .fault _ => []
    | .refused _ => []

/-- The bytes that the next `n` steps push into the FIFO, in order (41_streamer R162): those behind the old tail. -/
def pushedBytes : Nat → State → List Byte
  | 0, _ => []
  | n + 1, s =>
    match step s with
    | .next t => (if s.fifo.length < t.fifo.length then t.fifo.drop s.fifo.length else []) ++ pushedBytes n t
    | .fault _ => []
    | .refused _ => []

/-- How often the next `n` steps assert the strobe (41_streamer R166, R184). -/
def strobeAssertions : Nat → State → Nat
  | 0, _ => 0
  | n + 1, s =>
    match step s with
    | .next t => (if s.strobe0_in = false ∧ t.strobe0_in = true then 1 else 0) + strobeAssertions n t
    | .fault _ => 0
    | .refused _ => 0

/-- The next step keeps a strobe level that the reference program has still to test (41_streamer R184): it is not
asserted before the streamer is past WAITLO, nor deasserted while the streamer is at WAITHI. -/
def State.holdsStrobe (s : State) : Prop :=
  (s.takesTurn (.stb0 true) → s.strobe0_in = true ∨ (s.sm_pc - s.sm_handle).toNat = 3)
    ∧ (s.takesTurn (.stb0 false) → s.strobe0_in = false ∨ (s.sm_pc - s.sm_handle).toNat ≠ 3)

/-- The next step is none of those that clear the pipeline: SM_CONFIG, SM_RESTART, block reset. -/
def State.keepsPipeline (s : State) : Prop :=
  ¬ s.runsCommand .smConfig ∧ ¬ s.runsCommand .smRestart ∧ ¬ s.takesTurn .blockReset

/-- Under the reference program, whether the byte of the next assertion is pulled already (41_streamer R184): from the
pull until the assertion that WAITHI waits for. -/
def State.bytesAhead (s : State) : Nat :=
  if (s.sm_pc - s.sm_handle).toNat = 1 ∨ (s.sm_pc - s.sm_handle).toNat = 2
    ∨ ((s.sm_pc - s.sm_handle).toNat = 3 ∧ s.strobe0_in = false) then 1 else 0

/-- Under the reference program, the byte on the data pins, or, between PULL and OUT, the one that OUT puts there. -/
def State.newestByte (s : State) : Byte := if (s.sm_pc - s.sm_handle).toNat = 1 then s.osr else s.data_out

/-- The byte a part of an effect names, in the state before the step (41_streamer R176). -/
def State.byteNamed (s : State) : BusByte → Byte
  | .const v => v
  | .osr => s.osr
  | .isr => s.isr

/-- The FIFO holds, in payload order, the bytes just before the feeder's next address (20_memory R68): its entry `i`
is what PayloadMem holds at that address less `fifo_level - i`. -/
def State.holdsPayload (s : State) : Prop :=
  ∀ i < s.fifo.length,
    s.mem.read ((s.chan s.feederIndex).read_addr - BitVec.ofNat 32 (s.fifo.length - i)).toNat = s.fifo[i]?

end Sys2Proof.Machine
end

