-- ==== Sys2Proof/Certificates/Slice0/Obligations.lean ====
section
/-! DEFINITION. The statements of this row, each from the rules of spec/. `s.withTurn t` is any state whose next turn
is `t`, `s.withHostOp op` any state whose next turn is the host's and whose next host line is `op`: what a step
answers is then said over `s`, so an equation `… = .next { s with … }` says the new values AND the frame: every other
register, flag, special register and every byte of payload memory is as before. -/

open Sys2Proof Sys2Proof.Machine

/-! ### Encoding -/

/-- The words of 30_encoding R94, as its table writes them. -/
def Obligations.DecodeReadsTheTablesWords : Prop :=
  decode 0x00000000 = .ok .nop ∧ decode 0x01000000 = .ok .pinConfig ∧ decode 0x02000000 = .ok .smLoad
    ∧ decode 0x03000000 = .ok .smConfig ∧ decode 0x04000000 = .ok .smEnable ∧ decode 0x05000000 = .ok .smDisable
    ∧ decode 0x06000000 = .ok .smRestart ∧ decode 0x07000000 = .ok .dmaStart ∧ decode 0x08050000 = .ok (.dmaStop 5)
    ∧ decode 0x09000000 = .ok .rmArm ∧ decode 0x0A000000 = .ok .rmClear ∧ decode 0x0B000000 = .ok .rstDriveLow
    ∧ decode 0x0C000000 = .ok .rstRelease ∧ decode 0x0D000000 = .ok .errClear

/-- Every well-formed instruction survives encoding: no bit of an operand is dropped (30_encoding R91, R94). -/
def Obligations.DecodeRecoversEveryEncodedInstruction : Prop :=
  ∀ i : Instr, i.wf = true → decode (encode i) = .ok i

/-- The legal words are exactly the encodings: a word read as `i` is the word of `i` (30_encoding R94). -/
def Obligations.LegalWordsAreExactlyEncodings : Prop :=
  ∀ (w : Word) (i : Instr), decode w = .ok i → i.wf = true ∧ encode i = w

/-- 30_encoding R96, R97, with the fields OP, ARG, RSV of R91 as quotients and remainders of the word. -/
def Obligations.IllegalWordsRaiseOnlyTheirError : Prop :=
  ∀ (s : State) (addr w : Word), s.cfg.regOffset addr = 0 → s.fatal = false →
    (0x0E ≤ w.toNat / 2 ^ 24 →
      step (s.withHostOp (.write .w32 addr w)) = .next { s with
        err := true, errcode := 0x01, err_op := BitVec.ofNat 8 (w.toNat / 2 ^ 24), err_async := false })
    ∧ (w.toNat / 2 ^ 24 < 0x0E →
        (w.toNat % 2 ^ 16 ≠ 0 ∨ (w.toNat / 2 ^ 16 % 2 ^ 8 ≠ 0 ∧ w.toNat / 2 ^ 24 ≠ 0x08)) →
        step (s.withHostOp (.write .w32 addr w)) = .next { s with
          err := true, errcode := 0x02, err_op := BitVec.ofNat 8 (w.toNat / 2 ^ 24), err_async := false })

/-! ### Steps and commands -/

/-- 10_state R40, 30_encoding R95: a write to CMD of a word that decodes to `i` runs `i`, in one step, on the state
without that turn and that host line. -/
def Obligations.StepRunsTheDecodedCommand : Prop :=
  ∀ (s : State) (addr w : Word) (i : Instr), s.cfg.regOffset addr = 0 → decode w = .ok i →
    step (s.withHostOp (.write .w32 addr w)) = exec i s

/-- 30_encoding R99, R91: the host line `C <MNEMONIC>` writes the word that runs that command, at any REG_BASE. -/
def Obligations.ACommandLineRunsItsCommand : Prop :=
  ∀ (s : State) (i : Instr), i.wf = true → step (s.withHostOp (Line.op s.cfg (.C i))) = exec i s

/-- 60_exceptions R287. -/
def Obligations.FatalStateIgnoresOnlyCommands : Prop :=
  ∀ (s : State), s.fatal = true →
    (∀ i : Instr, exec i s = .next s)
    ∧ (∀ addr w : Word, s.cfg.regOffset addr = 0 → step (s.withHostOp (.write .w32 addr w)) = .next s)
    ∧ (∀ addr v : Word, s.cfg.regOffset addr = 0x10 →
        step (s.withHostOp (.write .w32 addr v)) = .next { s with dma_src := v })
    ∧ (∀ addr v : Word, s.cfg.regOffset addr = 0x14 →
        step (s.withHostOp (.write .w32 addr v)) = .next { s with dma_count := v })
    ∧ (∀ addr v : Word, s.cfg.regOffset addr = 0x18 → ∃ x : Word,
        (∀ k, x.getLsbD k = (v.getLsbD k && decide (k < s.cfg.numCh)))
          ∧ step (s.withHostOp (.write .w32 addr v)) = .next { s with ext_claim := x })
    ∧ (∀ addr v : Word, s.cfg.regOffset addr = 0x1C → ∃ x : Word,
        (∀ k, x.getLsbD k = (v.getLsbD k && decide (k < s.cfg.imemWords)))
          ∧ step (s.withHostOp (.write .w32 addr v)) = .next { s with imem_ext := x })
    ∧ (∀ addr : Word, (s.cfg.regOffset addr).toNat % 4 = 0 →
        step (s.withHostOp (.read .w32 addr)) = .next { s with host_rdata := some (s.readReg (s.cfg.regOffset addr)) })

/-- 40_control_pins R121, R122, R123. -/
def Obligations.NopErrClearAndPinConfigTakeEffect : Prop :=
  ∀ s : State, s.fatal = false →
    exec .nop s = .next s
    ∧ exec .errClear s = .next { s with err := false, errcode := 0x00, err_op := 0x00, err_async := false }
    ∧ exec .pinConfig s = .next { s with pins_configured := true }

/-- 40_control_pins R127, R128, with the edge rules of 43_reset_monitor R243 to R250 written out. (That R248's
subtraction follows TS_WIDTH is the model's reading, log 24.) -/
def Obligations.ResetLineCommandsMoveTheLineAndTheMonitor : Prop :=
  ∀ s : State, s.fatal = false →
    ((s.ext_rst = false ∨ s.rst_drive = true) → exec .rstDriveLow s = .next { s with rst_drive := true })
    ∧ (s.ext_rst = true → s.rst_drive = false → (s.rm_armed = false ∨ s.rm_phase = .armedForRise) →
        exec .rstDriveLow s = .next { s with rst_drive := true })
    ∧ (s.ext_rst = true → s.rst_drive = false → s.rm_armed = true → s.rm_phase = .armedForFall →
        exec .rstDriveLow s = .next { s with
          rst_drive := true, rm_lastFall := s.now, rm_phase := .armedForRise })
    ∧ ((s.ext_rst = false ∨ s.rst_drive = false) → exec .rstRelease s = .next { s with rst_drive := false })
    ∧ (s.ext_rst = true → s.rst_drive = true → (s.rm_armed = false ∨ s.rm_phase = .armedForFall) →
        exec .rstRelease s = .next { s with rst_drive := false })
    ∧ (s.ext_rst = true → s.rst_drive = true → s.rm_armed = true → s.rm_phase = .armedForRise →
        500 ≤ (((s.now : Int) - (s.rm_lastFall : Int)) % ((2 ^ s.cfg.tsWidth : Nat) : Int)).toNat →
        exec .rstRelease s = .next { s with
          rst_drive := false, rm_pending := true, rm_armed := false, rm_phase := .armedForFall })
    ∧ (s.ext_rst = true → s.rst_drive = true → s.rm_armed = true → s.rm_phase = .armedForRise →
        (((s.now : Int) - (s.rm_lastFall : Int)) % ((2 ^ s.cfg.tsWidth : Nat) : Int)).toNat < 500 →
        exec .rstRelease s = .next { s with rst_drive := false, rm_phase := .armedForFall })

/-- 43_reset_monitor R242 to R247, R249, R250: the target's own changes of the line. (That R248's subtraction follows
TS_WIDTH is the model's reading, log 24; with TS_WIDTH = 64 see AcceptanceIsR248sOnThe64BitTimebase.) -/
def Obligations.TargetMovesTheLineAndTheMonitor : Prop :=
  ∀ (s : State) (v : Bool),
    ((s.rst_drive = true ∨ s.ext_rst = v ∨ s.rm_armed = false) →
      step (s.withTurn (.rst v)) = .next { s with ext_rst := v })
    ∧ (s.rst_drive = false → s.ext_rst = true → v = false → s.rm_armed = true → s.rm_phase = .armedForFall →
        step (s.withTurn (.rst v)) = .next { s with
          ext_rst := false, rm_lastFall := s.now, rm_phase := .armedForRise })
    ∧ (s.rst_drive = false → s.ext_rst = true → v = false → s.rm_armed = true → s.rm_phase = .armedForRise →
        step (s.withTurn (.rst v)) = .next { s with ext_rst := false })
    ∧ (s.rst_drive = false → s.ext_rst = false → v = true → s.rm_armed = true → s.rm_phase = .armedForFall →
        step (s.withTurn (.rst v)) = .next { s with ext_rst := true })
    ∧ (s.rst_drive = false → s.ext_rst = false → v = true → s.rm_armed = true → s.rm_phase = .armedForRise →
        500 ≤ (((s.now : Int) - (s.rm_lastFall : Int)) % ((2 ^ s.cfg.tsWidth : Nat) : Int)).toNat →
        step (s.withTurn (.rst v)) = .next { s with
          ext_rst := true, rm_pending := true, rm_armed := false, rm_phase := .armedForFall })
    ∧ (s.rst_drive = false → s.ext_rst = false → v = true → s.rm_armed = true → s.rm_phase = .armedForRise →
        (((s.now : Int) - (s.rm_lastFall : Int)) % ((2 ^ s.cfg.tsWidth : Nat) : Int)).toNat < 500 →
        step (s.withTurn (.rst v)) = .next { s with ext_rst := true, rm_phase := .armedForFall })

/-- 43_reset_monitor R241, 41_streamer R167: in any state, the fatal one too; the program sees the new level. (That the
tick adds modulo 2^TS_WIDTH, where R241 writes 64, is 10_state R22's and log 24's; that the host counts the ticks of its
WAIT is the model's choice, log 4, and no state of the block.) -/
def Obligations.TicksAndStrobesChangeNothingElse : Prop :=
  ∀ (s : State) (v : Bool),
    step (s.withTurn .tick)
      = .next { s with now := (s.now + 1) % 2 ^ s.cfg.tsWidth, host_wait := s.host_wait.map (· + 1) }
    ∧ step (s.withTurn (.stb0 v)) = .next { s with strobe0_in := v }
    ∧ step (s.withTurn (.stb1 v)) = .next { s with strobe1_in := v }
    ∧ ({ s with strobe0_in := v } : State).busView.strobe0 = v ∧ ({ s with strobe1_in := v } : State).busView.strobe1 = v

/-- 41_streamer R151, R153, with `used[k]` written out bit by bit; that the highest offset is tried first is the
spec's own reading (R152, "from general knowledge"). -/
def Obligations.SmLoadTakesTheHighestFreeRegion : Prop :=
  ∀ s : State, s.cfg.wf = true → s.fatal = false →
    (s.sm_loaded = true → exec .smLoad s = .next { s with
      err := true, errcode := 0x03, err_op := 0x02, err_async := false })
    ∧ (s.sm_loaded = false →
        (∀ o, o + s.cfg.progLen ≤ s.cfg.imemWords →
          ∃ j < s.cfg.progLen, (s.imem_own.getLsbD (o + j) || s.imem_ext.getLsbD (o + j)) = true) →
        exec .smLoad s = .next { s with fatal := true, fatal_cause := 0x01, err_op := 0x02 })
    ∧ (s.sm_loaded = false → ∀ o, o + s.cfg.progLen ≤ s.cfg.imemWords →
        (∀ j < s.cfg.progLen, (s.imem_own.getLsbD (o + j) || s.imem_ext.getLsbD (o + j)) = false) →
        (∀ o', o < o' → o' + s.cfg.progLen ≤ s.cfg.imemWords →
          ∃ j < s.cfg.progLen, (s.imem_own.getLsbD (o' + j) || s.imem_ext.getLsbD (o' + j)) = true) →
        ∃ own : Word,
          (∀ k, own.getLsbD k = (s.imem_own.getLsbD k || (decide (o ≤ k) && decide (k < o + s.cfg.progLen))))
          ∧ exec .smLoad s = .next { s with
              imem_own := own, sm_handle := BitVec.ofNat 5 o, res_handle := BitVec.ofNat 8 o, sm_loaded := true })

/-- 41_streamer R154, with `ClearPipeline()` of R160 written out. -/
def Obligations.SmConfigClearsThePipelineAndConfigures : Prop :=
  ∀ s : State, s.fatal = false →
    (s.sm_loaded = false → exec .smConfig s = .next { s with
      err := true, errcode := 0x04, err_op := 0x03, err_async := false })
    ∧ (s.sm_loaded = true → s.sm_enabled = true → exec .smConfig s = .next { s with
        err := true, errcode := 0x05, err_op := 0x03, err_async := false })
    ∧ (s.sm_loaded = true → s.sm_enabled = false → exec .smConfig s = .next { s with
        fifo := [], osr := 0, osr_count := 0, isr := 0, isr_count := 0, sm_pc := s.sm_handle,
        data_oe := true, sm_configured := true })

/-- 41_streamer R157. -/
def Obligations.SmEnableNeedsPinsAndConfiguration : Prop :=
  ∀ s : State, s.fatal = false →
    ((s.pins_configured = false ∨ s.sm_configured = false) → exec .smEnable s = .next { s with
      err := true, errcode := 0x06, err_op := 0x04, err_async := false })
    ∧ (s.pins_configured = true → s.sm_configured = true → exec .smEnable s = .next { s with sm_enabled := true })

/-- 41_streamer R158, R159, R160 (90_conflicts C1: SM_RESTART ends disabled). -/
def Obligations.SmDisableFreezesAndSmRestartClears : Prop :=
  ∀ s : State, s.fatal = false →
    exec .smDisable s = .next { s with sm_enabled := false }
    ∧ exec .smRestart s = .next { s with
        sm_enabled := false, fifo := [], osr := 0, osr_count := 0, isr := 0, isr_count := 0, sm_pc := s.sm_handle }

/-- 42_dma_feeder R203, R205, R206, with `claimed[c]` written out; that the lowest channel is taken is the spec's own
reading (R204, "from general knowledge"). -/
def Obligations.DmaStartClaimsTheLowestFreeChannel : Prop :=
  ∀ s : State, s.fatal = false →
    (s.feeder_active = true → exec .dmaStart s = .next { s with
      err := true, errcode := 0x07, err_op := 0x07, err_async := false })
    ∧ (s.feeder_active = false → (∀ c < s.cfg.numCh, ((s.chan c).own || s.ext_claim.getLsbD c) = true) →
        exec .dmaStart s = .next { s with fatal := true, fatal_cause := 0x02, err_op := 0x07 })
    ∧ (s.feeder_active = false → ∀ c < s.cfg.numCh, ((s.chan c).own || s.ext_claim.getLsbD c) = false →
        (∀ c' < c, ((s.chan c').own || s.ext_claim.getLsbD c') = true) →
        exec .dmaStart s = .next { s with
          ch := s.ch.set c { own := true, busy := decide (s.dma_count ≠ 0), read_addr := s.dma_src,
                             count := s.dma_count },
          feeder_active := true, feeder_ch := BitVec.ofNat 8 c, res_ch := BitVec.ofNat 8 c })

/-- 42_dma_feeder R211, R212, R213. -/
def Obligations.DmaStopReleasesOnlyAnOwnedChannel : Prop :=
  ∀ (s : State) (c : Nat), s.fatal = false →
    (s.cfg.numCh ≤ c → exec (.dmaStop c) s = .next { s with
      err := true, errcode := 0x08, err_op := 0x08, err_async := false })
    ∧ (c < s.cfg.numCh → (s.chan c).own = false → exec (.dmaStop c) s = .next s)
    ∧ (c < s.cfg.numCh → (s.chan c).own = true → exec (.dmaStop c) s = .next { s with
        ch := s.ch.set c { own := false, busy := false, read_addr := (s.chan c).read_addr, count := 0 },
        feeder_active := false })

/-- 42_dma_feeder R218: stopping the channel that RESULT names leaves the pool claimed by its other users only. -/
def Obligations.StoppingTheFeedersChannelFreesThePool : Prop :=
  ∀ s : State, s.Inv → s.fatal = false → s.feeder_active = true →
    ∃ t, exec (.dmaStop s.res_ch.toNat) s = .next t ∧ t.feeder_active = false
      ∧ (∀ c < t.cfg.numCh, t.claimed c = t.ext_claim.getLsbD c)
      ∧ t.ext_claim = s.ext_claim ∧ t.fifo = s.fifo

/-- 43_reset_monitor R251, R252, R253. -/
def Obligations.RmArmIsRefusedWhilePendingAndRmClearOnlyClears : Prop :=
  ∀ s : State, s.fatal = false →
    (s.rm_pending = true → exec .rmArm s = .next { s with
      err := true, errcode := 0x09, err_op := 0x09, err_async := false })
    ∧ (s.rm_pending = false → exec .rmArm s = .next { s with rm_armed := true, rm_phase := .armedForFall })
    ∧ exec .rmClear s = .next { s with rm_pending := false }

/-- 60_exceptions R284: a command raises one error and changes nothing else, or raises one fatal error and changes
nothing else, or is ERR_CLEAR, or leaves both records alone. -/
def Obligations.EveryCommandEndsInOneOfFourWays : Prop :=
  ∀ (i : Instr) (s : State),
    (∃ code : Byte, 0x01 ≤ code.toNat ∧ code.toNat ≤ 0x09
        ∧ exec i s = .next { s with err := true, errcode := code, err_op := i.opcode, err_async := false })
    ∨ (∃ cause : Byte, (cause = 0x01 ∨ cause = 0x02)
        ∧ exec i s = .next { s with fatal := true, fatal_cause := cause, err_op := i.opcode })
    ∨ (i = .errClear
        ∧ exec i s = .next { s with err := false, errcode := 0x00, err_op := 0x00, err_async := false })
    ∨ (∃ t, exec i s = .next t ∧ t.err = s.err ∧ t.errcode = s.errcode ∧ t.err_op = s.err_op
        ∧ t.err_async = s.err_async ∧ t.fatal = s.fatal ∧ t.fatal_cause = s.fatal_cause)

/-- 60_exceptions R290, part 4: the first failing check of a command decides, whatever the later ones would say. -/
def Obligations.TheFirstFailingCheckOfACommandDecides : Prop :=
  ∀ (s : State) (addr w : Word) (i : Instr), s.cfg.regOffset addr = 0 → decode w = .ok i → s.fatal = false →
    (i = .smLoad → s.sm_loaded = true → s.placement = none →
      step (s.withHostOp (.write .w32 addr w)) = .next { s with
        err := true, errcode := 0x03, err_op := 0x02, err_async := false })
    ∧ (i = .smConfig → s.sm_loaded = false → s.sm_enabled = true →
        step (s.withHostOp (.write .w32 addr w)) = .next { s with
          err := true, errcode := 0x04, err_op := 0x03, err_async := false })
    ∧ (i = .dmaStart → s.feeder_active = true → s.freeChannel = none →
        step (s.withHostOp (.write .w32 addr w)) = .next { s with
          err := true, errcode := 0x07, err_op := 0x07, err_async := false })

/-! ### The register block -/

/-- 10_state R41, field by field; bits 31:20 read 0; reading changes nothing of the block; writes are ignored. -/
def Obligations.StatusShowsTheState : Prop :=
  ∀ (s : State) (addr : Word), s.cfg.regOffset addr = 0x04 → s.fifo.length < 16 →
    (∃ v : Word, step (s.withHostOp (.read .w32 addr)) = .next { s with host_rdata := some v }
      ∧ v.getLsbD 0 = s.rm_pending ∧ v.getLsbD 1 = s.rm_armed
      ∧ v.getLsbD 2 = decide (s.rm_phase = .armedForRise)
      ∧ v.getLsbD 3 = (s.ext_rst && !s.rst_drive) ∧ v.getLsbD 4 = s.rst_drive
      ∧ v.getLsbD 5 = s.pins_configured ∧ v.getLsbD 6 = s.sm_loaded ∧ v.getLsbD 7 = s.sm_configured
      ∧ v.getLsbD 8 = s.sm_enabled ∧ v.getLsbD 9 = s.feeder_active
      ∧ v.getLsbD 10 = (s.feeder_active && (s.chan s.feeder_ch.toNat).busy)
      ∧ v.getLsbD 11 = decide (s.fifo.length < s.cfg.fifoDepth)
      ∧ v.getLsbD 12 = decide (s.fifo.length = 0) ∧ v.getLsbD 13 = decide (s.fifo.length = s.cfg.fifoDepth)
      ∧ v.getLsbD 14 = s.err ∧ v.getLsbD 15 = s.fatal
      ∧ (∀ k < 4, v.getLsbD (16 + k) = s.fifo.length.testBit k) ∧ (∀ k, 20 ≤ k → v.getLsbD k = false))
    ∧ (∀ x : Word, step (s.withHostOp (.write .w32 addr x)) = .next s)

/-- 10_state R42, R43, R51, with the fields as `v[hi:lo]` of 00_scope R7; writes are ignored, and after reset all read 0. -/
def Obligations.ErrinfoResultAndRemainShowTheState : Prop :=
  ∀ s : State,
    ((s.readReg 0x08).extractLsb' 0 8 = s.errcode ∧ (s.readReg 0x08).extractLsb' 8 8 = s.err_op
      ∧ (s.readReg 0x08).extractLsb' 16 8 = s.fatal_cause ∧ (s.readReg 0x08).getLsbD 24 = s.err_async
      ∧ (s.readReg 0x08).extractLsb' 25 7 = 0)
    ∧ ((s.readReg 0x0C).extractLsb' 0 8 = s.res_handle ∧ (s.readReg 0x0C).extractLsb' 8 8 = s.res_ch
      ∧ (s.readReg 0x0C).extractLsb' 16 16 = 0)
    ∧ (s.feeder_active = true → s.readReg 0x2C = (s.chan s.feeder_ch.toNat).count)
    ∧ (s.feeder_active = false → s.readReg 0x2C = 0)
    ∧ (∀ addr x : Word, (s.cfg.regOffset addr = 0x08 ∨ s.cfg.regOffset addr = 0x0C ∨ s.cfg.regOffset addr = 0x2C) →
        step (s.withHostOp (.write .w32 addr x)) = .next s)
    ∧ (s.blockReset.readReg 0x08 = 0 ∧ s.blockReset.readReg 0x0C = 0 ∧ s.blockReset.readReg 0x2C = 0)

/-- 10_state R48, R49, R50, for every well-formed configuration; writes are ignored. -/
def Obligations.ConfigurationRegistersShowTheParameters : Prop :=
  ∀ s : State, s.cfg.wf = true →
    (((s.readReg 0x20).extractLsb' 0 5).toNat = s.cfg.dataBase ∧ (s.readReg 0x20).extractLsb' 5 3 = 0
      ∧ ((s.readReg 0x20).extractLsb' 8 5).toNat = s.cfg.strobe0Pin ∧ (s.readReg 0x20).extractLsb' 13 3 = 0
      ∧ ((s.readReg 0x20).extractLsb' 16 5).toNat = s.cfg.strobe1Pin ∧ (s.readReg 0x20).extractLsb' 21 3 = 0
      ∧ ((s.readReg 0x20).extractLsb' 24 5).toNat = s.cfg.rstPin ∧ (s.readReg 0x20).extractLsb' 29 3 = 0)
    ∧ (((s.readReg 0x24).extractLsb' 0 5).toNat = s.cfg.sidesetBase ∧ (s.readReg 0x24).getLsbD 5 = s.cfg.sidesetEn
      ∧ (s.readReg 0x24).getLsbD 6 = s.cfg.shiftDir ∧ (s.readReg 0x24).getLsbD 7 = false
      ∧ ((s.readReg 0x24).extractLsb' 8 4).toNat = s.cfg.fifoDepth ∧ (s.readReg 0x24).extractLsb' 12 4 = 0
      ∧ ((s.readReg 0x24).extractLsb' 16 5).toNat = s.cfg.numCh ∧ (s.readReg 0x24).extractLsb' 21 3 = 0
      ∧ ((s.readReg 0x24).extractLsb' 24 6).toNat = s.cfg.imemWords ∧ (s.readReg 0x24).extractLsb' 30 2 = 0)
    ∧ (((s.readReg 0x28).extractLsb' 0 6).toNat = s.cfg.progLen ∧ (s.readReg 0x28).extractLsb' 6 2 = 0
      ∧ (s.readReg 0x28).extractLsb' 8 4 = 8 ∧ (s.readReg 0x28).extractLsb' 12 4 = 8
      ∧ (s.readReg 0x28).getLsbD 16 = false ∧ (s.readReg 0x28).getLsbD 17 = true
      ∧ (s.readReg 0x28).getLsbD 18 = true ∧ (s.readReg 0x28).extractLsb' 19 3 = 3
      ∧ (s.readReg 0x28).extractLsb' 22 10 = 0)
    ∧ (∀ addr x : Word, (s.cfg.regOffset addr = 0x20 ∨ s.cfg.regOffset addr = 0x24 ∨ s.cfg.regOffset addr = 0x28) →
        step (s.withHostOp (.write .w32 addr x)) = .next s)

/-- 40_control_pins R129: what a plain write stores, in any state, the fatal one too. -/
def Obligations.PlainWritesStoreOnlyTheirRegister : Prop :=
  ∀ (s : State) (addr v : Word),
    (s.cfg.regOffset addr = 0x10 → step (s.withHostOp (.write .w32 addr v)) = .next { s with dma_src := v })
    ∧ (s.cfg.regOffset addr = 0x14 → step (s.withHostOp (.write .w32 addr v)) = .next { s with dma_count := v })
    ∧ (s.cfg.regOffset addr = 0x18 → ∃ x : Word,
        (∀ k, x.getLsbD k = (v.getLsbD k && decide (k < s.cfg.numCh)))
          ∧ step (s.withHostOp (.write .w32 addr v)) = .next { s with ext_claim := x })
    ∧ (s.cfg.regOffset addr = 0x1C → ∃ x : Word,
        (∀ k, x.getLsbD k = (v.getLsbD k && decide (k < s.cfg.imemWords)))
          ∧ step (s.withHostOp (.write .w32 addr v)) = .next { s with imem_ext := x })
    ∧ ((s.cfg.regOffset addr).toNat % 4 = 0 →
        (s.cfg.regOffset addr ∈ ([0x04, 0x08, 0x0C] : List Byte) ∨ 0x20 ≤ (s.cfg.regOffset addr).toNat) →
        step (s.withHostOp (.write .w32 addr v)) = .next s)

/-- 40_control_pins R130: a read returns the register's value and changes nothing of the block; the argument
registers read back what they hold (10_state R44 to R47), CMD and reserved offsets read 0 (R40, R52). -/
def Obligations.ReadsReturnTheRegisterAndChangeNothing : Prop :=
  ∀ (s : State) (addr : Word), (s.cfg.regOffset addr).toNat % 4 = 0 →
    ∃ v : Word, step (s.withHostOp (.read .w32 addr)) = .next { s with host_rdata := some v }
      ∧ v = s.readReg (s.cfg.regOffset addr)
      ∧ (s.cfg.regOffset addr = 0x10 → v = s.dma_src) ∧ (s.cfg.regOffset addr = 0x14 → v = s.dma_count)
      ∧ (s.cfg.regOffset addr = 0x18 → ∀ k, v.getLsbD k = (s.ext_claim.getLsbD k && decide (k < s.cfg.numCh)))
      ∧ (s.cfg.regOffset addr = 0x1C → ∀ k, v.getLsbD k = (s.imem_ext.getLsbD k && decide (k < s.cfg.imemWords)))
      ∧ ((s.cfg.regOffset addr = 0x00 ∨ 0x30 ≤ (s.cfg.regOffset addr).toNat) → v = 0)

/-- 20_memory R70: an access that is not an aligned 32-bit one is refused; so is a POLL, whose reads are 32 bits wide,
where its read is not aligned. -/
def Obligations.UndefinedAccessesAreRefused : Prop :=
  ∀ (s : State) (width : Width) (addr v : Word),
    ((width ≠ .w32 ∨ (s.cfg.regOffset addr).toNat % 4 ≠ 0) →
      step (s.withHostOp (.write width addr v)) = .refused .undefinedAccess
        ∧ step (s.withHostOp (.read width addr)) = .refused .undefinedAccess)
    ∧ (∀ lo width x : Nat, (s.cfg.regOffset addr).toNat % 4 ≠ 0 →
      step (s.withHostOp (.poll addr lo width x)) = .refused .undefinedAccess)

/-- 30_encoding R99, 60_exceptions R303: a POLL repeats its read until the field equals the number awaited, whatever that
number, and has no timeout; a WAIT ends when `n` ticks have passed since it began. (How a host line is held is the
model's choice, log 4.) -/
def Obligations.PollsAndWaitsHoldTheHostUntilMet : Prop :=
  ∀ s : State,
    (∀ (addr : Word) (lo width v : Nat), (s.cfg.regOffset addr).toNat % 4 = 0 →
      ((s.readReg (s.cfg.regOffset addr)).toNat / 2 ^ lo % 2 ^ width = v →
        step (s.withHostOp (.poll addr lo width v))
          = .next { s with host_rdata := some (s.readReg (s.cfg.regOffset addr)) })
      ∧ ((s.readReg (s.cfg.regOffset addr)).toNat / 2 ^ lo % 2 ^ width ≠ v →
        step (s.withHostOp (.poll addr lo width v))
          = .next { s with
              host_rdata := some (s.readReg (s.cfg.regOffset addr)), host := .poll addr lo width v :: s.host }))
    ∧ (∀ (f : RegField) (v : Nat), ((s.readReg f.reg.offset).toNat / 2 ^ f.lo % 2 ^ f.width ≠ v ∨ 2 ^ f.width ≤ v) →
      step (s.withHostOp ((Line.POLL f v).op s.cfg))
        = .next { s with host_rdata := some (s.readReg f.reg.offset), host := (Line.POLL f v).op s.cfg :: s.host })
    ∧ (∀ n passed : Nat, s.host_wait = some passed →
      (n ≤ passed → step (s.withHostOp (.wait n)) = .next { s with host_wait := none })
      ∧ (passed < n → step (s.withHostOp (.wait n)) = .next { s with host := .wait n :: s.host }))
    ∧ (s.host_wait = none → step (s.withHostOp (.wait 0)) = .next s)
    ∧ (∀ n : Nat, s.host_wait = none → 0 < n →
      step (s.withHostOp (.wait n)) = .next { s with host_wait := some 0, host := .wait n :: s.host })

/-- 70_reset_and_hazards R334, 20_memory R77: a command's whole effect is in the state the host's next read sees. -/
def Obligations.TheNextReadSeesTheCommandsEffect : Prop :=
  ∀ (s t : State) (cmd w addr : Word) (i : Instr), s.cfg.regOffset cmd = 0 → decode w = .ok i → exec i s = .next t →
    (s.cfg.regOffset addr).toNat % 4 = 0 →
    run 2 ((s.withHostOp (.read .w32 addr)).withHostOp (.write .w32 cmd w))
      = .next { t with host_rdata := some (t.readReg (s.cfg.regOffset addr)) }

/-! ### The ResetMonitor over runs -/

/-- 43_reset_monitor R256 (and R257: `now` may wrap), both consequences the spec derives: a low pulse of `d` ticks, seen
by an armed monitor, whether the target or the block itself makes it. (A WAIT of the host counts the ticks, log 4; that
R257's 2^64 is 2^TS_WIDTH is the model's reading, log 24.) -/
def Obligations.APulseIsAcceptedExactlyFrom500Ticks : Prop :=
  ∀ (s : State) (d : Nat), s.rm_armed = true → s.rm_phase = .armedForFall → s.ext_rst = true → s.rst_drive = false →
    s.now < 2 ^ s.cfg.tsWidth → d < 2 ^ s.cfg.tsWidth →
    run (d + 2) { s with sched := .rst false :: (List.replicate d .tick ++ .rst true :: s.sched) }
      = .next { s with
          now := (s.now + d) % 2 ^ s.cfg.tsWidth, host_wait := s.host_wait.map (· + d), rm_lastFall := s.now,
          rm_pending := s.rm_pending || decide (500 ≤ d), rm_armed := decide (d < 500) }
    ∧ (s.fatal = false →
      run (d + 2) { s with
          sched := .host :: (List.replicate d .tick ++ .host :: s.sched)
          host := .write .w32 s.cfg.regBase 0x0B000000 :: .write .w32 s.cfg.regBase 0x0C000000 :: s.host }
        = .next { s with
            now := (s.now + d) % 2 ^ s.cfg.tsWidth, host_wait := s.host_wait.map (· + d), rm_lastFall := s.now,
            rm_pending := s.rm_pending || decide (500 ≤ d), rm_armed := decide (d < 500) })

/-- 43_reset_monitor R254, 10_state R53: who writes the monitor's fields. (That the elapsed time of R248 is taken modulo
2^TS_WIDTH is the model's reading, DEDUCED, log 24.) -/
def Obligations.MonitorFieldsHaveOnlyTheirWriters : Prop :=
  ∀ s t : State, step s = .next t →
    (t.rm_lastFall ≠ s.rm_lastFall →
      (s.rm_armed = true ∧ s.rm_phase = .armedForFall ∧ s.rstLine = true ∧ t.rstLine = false ∧ t.rm_lastFall = s.now)
        ∨ s.takesTurn .blockReset)
    ∧ (s.rm_pending = false → t.rm_pending = true →
        s.rm_armed = true ∧ s.rm_phase = .armedForRise ∧ s.rstLine = false ∧ t.rstLine = true
          ∧ 500 ≤ (((s.now : Int) - (s.rm_lastFall : Int)) % ((2 ^ s.cfg.tsWidth : Nat) : Int)).toNat)
    ∧ (s.rm_pending = true → t.rm_pending = false → s.runsCommand .rmClear ∨ s.takesTurn .blockReset)
    ∧ (s.rm_armed = false → t.rm_armed = true → s.runsCommand .rmArm ∧ s.rm_pending = false)
    ∧ (s.rm_armed = true → t.rm_armed = false →
        (s.rm_phase = .armedForRise ∧ s.rstLine = false ∧ t.rstLine = true ∧ t.rm_pending = true)
          ∨ s.takesTurn .blockReset)
    ∧ (s.rm_phase = .armedForFall → t.rm_phase = .armedForRise →
        s.rm_armed = true ∧ s.rstLine = true ∧ t.rstLine = false)
    ∧ (s.rm_phase = .armedForRise → t.rm_phase = .armedForFall →
        (s.rm_armed = true ∧ s.rstLine = false ∧ t.rstLine = true) ∨ s.runsCommand .rmArm ∨ s.takesTurn .blockReset)

/-- 43_reset_monitor R255, over runs of any length: a pending, disarmed monitor stays so until an RM_CLEAR (or block
reset), and a disarmed monitor sets no new event until an RM_ARM. -/
def Obligations.BetweenTwoEventsComeRmClearThenRmArm : Prop :=
  (∀ (n : Nat) (s t : State), s.rm_pending = true → s.rm_armed = false → RunsTo n s t →
    (∀ k < n, ∀ u, RunsTo k s u → ¬ u.runsCommand .rmClear ∧ ¬ u.takesTurn .blockReset) →
    t.rm_pending = true ∧ t.rm_armed = false)
  ∧ (∀ (n : Nat) (s t : State), s.rm_armed = false → RunsTo n s t →
    (∀ k < n, ∀ u, RunsTo k s u → ¬ u.runsCommand .rmArm) →
    t.rm_armed = false ∧ (t.rm_pending = true → s.rm_pending = true))

/-- 10_state R22, R24: no register shows the monitor's timestamp or the timebase. -/
def Obligations.NoRegisterShowsTheTimestampOrTheTimebase : Prop :=
  ∀ (s : State) (a b : Nat) (o : Byte), { s with rm_lastFall := a, now := b }.readReg o = s.readReg o

/-! ### The DMA's step -/

/-- 42_dma_feeder R208, R209, with 20_memory R84's wrap in the 32-bit addition. (That the turn leaves system memory as it
is, which 20_memory R73 leaves to the platform, is the model's choice, log 25.) -/
def Obligations.DmaTurnTransfersOneByteOrFaults : Prop :=
  ∀ s : State,
    (∀ b : Byte, s.feeder_active = true → (s.chan s.feeder_ch.toNat).busy = true →
      s.fifo.length < s.cfg.fifoDepth → s.mem.read (s.chan s.feeder_ch.toNat).read_addr.toNat = some b →
      step (s.withTurn .dma) = .next { s with
        fifo := s.fifo ++ [b]
        ch := s.ch.set s.feeder_ch.toNat {
          own := (s.chan s.feeder_ch.toNat).own
          busy := decide ((s.chan s.feeder_ch.toNat).count - 1 ≠ 0)
          read_addr := (s.chan s.feeder_ch.toNat).read_addr + 1
          count := (s.chan s.feeder_ch.toNat).count - 1 } })
    ∧ (s.feeder_active = true → (s.chan s.feeder_ch.toNat).busy = true →
      s.fifo.length < s.cfg.fifoDepth → s.mem.read (s.chan s.feeder_ch.toNat).read_addr.toNat = none →
      step (s.withTurn .dma) = .next { s with
        ch := s.ch.set s.feeder_ch.toNat { s.chan s.feeder_ch.toNat with busy := false }
        err := true, errcode := 0x0A, err_op := 0x00, err_async := true })
    ∧ ((s.feeder_active = false ∨ (s.chan s.feeder_ch.toNat).busy = false ∨ s.cfg.fifoDepth ≤ s.fifo.length) →
      step (s.withTurn .dma) = .next s)

/-- 20_memory R68: from DMA_START on an empty FIFO, and through every step but a platform's change of the payload, the
FIFO holds payload bytes in address order, ending just before the channel's next address; a pull takes the first. (That a
side effect of a DMA read in system memory, log 25, and a write of the host's own to payload bytes, log 26, count as the
platform's changes is the model's choice.) -/
def Obligations.TheFifoHoldsThePayloadInOrder : Prop :=
  (∀ s t : State, s.Inv → s.fifo = [] → step s = .next t → s.runsCommand .dmaStart → t.holdsPayload)
  ∧ (∀ s t : State, s.Inv → s.feeder_active = true → s.holdsPayload → step s = .next t → t.feeder_active = true →
      (∀ a b, ¬ s.takesTurn (.payload a b)) → t.holdsPayload)

/-- 42_dma_feeder R217: while the feeder keeps its channel it pushes no more bytes than its remaining count, and, while
the host does not clear the FIFO, no more than the streamer pulls and the FIFO's room. -/
def Obligations.ACycleNeverPushesMoreThanItsCount : Prop :=
  ∀ (n : Nat) (s : State), s.Inv →
    (∀ k < n, ∀ u, RunsTo k s u → u.feeder_active = true) →
    pushesIn n s ≤ (s.chan s.feederIndex).count.toNat
    ∧ ((∀ k < n, ∀ u, RunsTo k s u → ¬ u.runsCommand .smConfig ∧ ¬ u.runsCommand .smRestart) →
        s.fifo.length + pushesIn n s ≤ pullsIn n s + s.cfg.fifoDepth)

/-- 42_dma_feeder R214: once no channel is held, no step pushes a byte, until a DMA_START. -/
def Obligations.NoByteIsPushedAfterDmaStop : Prop :=
  ∀ s t : State, step s = .next t → s.feeder_active = false →
    t.fifo.length ≤ s.fifo.length ∧ (t.feeder_active = true → s.runsCommand .dmaStart)

/-! ### The streamer's step -/

/-- 41_streamer R179 to R183, with `WriteData` of R164 written out. -/
def Obligations.TheReferenceProgramShiftsBytes : Prop :=
  ∀ s : State, s.sm_enabled = true → s.cfg.program = refProgram →
    ((s.sm_pc - s.sm_handle).toNat = 0 → s.fifo = [] → step (s.withTurn .streamer) = .next s)
    ∧ (∀ (b : Byte) (rest : List Byte), (s.sm_pc - s.sm_handle).toNat = 0 → s.fifo = b :: rest →
        step (s.withTurn .streamer) = .next { s with
          osr := b, osr_count := 8, fifo := rest, sm_pc := s.sm_handle + 1 })
    ∧ ((s.sm_pc - s.sm_handle).toNat = 1 → ∃ owner : BitVec 3,
        (∀ i < 3, owner.getLsbD i = (s.side_owner.getLsbD i
          && !(decide (s.cfg.dataBase ≤ s.cfg.sidesetBase + i) && decide (s.cfg.sidesetBase + i < s.cfg.dataBase + 8))))
        ∧ step (s.withTurn .streamer) = .next { s with
            data_out := s.osr, side_owner := owner, osr := 0, osr_count := 0, sm_pc := s.sm_handle + 2 })
    ∧ ((s.sm_pc - s.sm_handle).toNat = 2 → s.strobe0_in = true → step (s.withTurn .streamer) = .next s)
    ∧ ((s.sm_pc - s.sm_handle).toNat = 2 → s.strobe0_in = false →
        step (s.withTurn .streamer) = .next { s with sm_pc := s.sm_handle + 3 })
    ∧ ((s.sm_pc - s.sm_handle).toNat = 3 → s.strobe0_in = false → step (s.withTurn .streamer) = .next s)
    ∧ ((s.sm_pc - s.sm_handle).toNat = 3 → s.strobe0_in = true →
        step (s.withTurn .streamer) = .next { s with sm_pc := s.sm_handle })

/-- 41_streamer R168, R178: a disabled streamer has no step, and a program counter outside the program is a fault. The
third clause, that an effect which breaks the contract (R165, R176 to R178) is a fault too, is 93_implementation_defined
U2's; that a breach faults even where a pull would wait for a byte, and what counts as a part too many, are the
model's own choices (DEDUCED, log 10 and log 11). -/
def Obligations.ADisabledStreamerIsFrozenAndABrokenOneFaults : Prop :=
  ∀ s : State,
    (s.sm_enabled = false → step (s.withTurn .streamer) = .next s)
    ∧ (s.sm_enabled = true → s.cfg.progLen ≤ (s.sm_pc - s.sm_handle).toNat →
        step (s.withTurn .streamer) = .fault .pcOutsideProgram)
    ∧ (∀ (word : BusTree) (e : BusEffect), s.sm_enabled = true →
        s.cfg.program[(s.sm_pc - s.sm_handle).toNat]? = some word → word.eval s.busView = some e →
        (s.cfg.progLen ≤ e.next ∨ 2 ≤ e.acts.countP BusAction.isPull ∨ 2 ≤ e.acts.countP BusAction.isData
          ∨ 2 ≤ e.acts.countP BusAction.isSide
          ∨ (s.cfg.sidesetEn = false ∧ ∃ a ∈ e.acts, BusAction.isSide a = true)) →
        step (s.withTurn .streamer) = .fault .busProgramBroken)

/-- 41_streamer R161, R177: for every bus program, what a program step may write, that a DMA step writes none of the
streamer's control fields, and that no other agent's step puts a byte into the FIFO. -/
def Obligations.ProgramStepsWriteOnlyTheDatapath : Prop :=
  (∀ s t : State, step (s.withTurn .streamer) = .next t →
    t = { s with
      data_out := t.data_out, sideset_out := t.sideset_out, side_owner := t.side_owner, osr := t.osr,
      osr_count := t.osr_count, isr := t.isr, isr_count := t.isr_count, fifo := t.fifo, sm_pc := t.sm_pc }
    ∧ (t.fifo = s.fifo ∨ ∃ b, s.fifo = b :: t.fifo)
    ∧ (s.cfg.sidesetEn = false → t.sideset_out = s.sideset_out))
  ∧ (∀ s t : State, step (s.withTurn .dma) = .next t →
    t.sm_enabled = s.sm_enabled ∧ t.sm_configured = s.sm_configured ∧ t.sm_loaded = s.sm_loaded
      ∧ t.sm_handle = s.sm_handle)
  ∧ (∀ s t : State, step s = .next t → s.fifo.length < t.fifo.length → s.takesTurn .dma)

/-- 41_streamer R184, on one schedule (HeldStrobePulsesPresentOneByteEach is over every schedule): the first byte is on the
pins after two streamer steps, and then any number of strobe pulses, each asserted after WAITLO's step, released after
OUT's and with no other turn between, presents that many bytes. -/
def Obligations.EachStrobePulsePresentsOneByte : Prop :=
  (∀ (s : State) (b : Byte) (rest : List Byte), s.sm_enabled = true → s.cfg.program = refProgram →
    s.sm_pc = s.sm_handle → s.fifo = b :: rest →
    ∃ t, run 2 { s with sched := .streamer :: .streamer :: s.sched } = .next t
      ∧ t.data_out = b ∧ t.fifo = rest ∧ t.sm_pc = s.sm_handle + 2 ∧ t.sched = s.sched)
  ∧ (∀ (bs rest : List Byte) (s : State), s.sm_enabled = true → s.cfg.program = refProgram →
    s.sm_pc = s.sm_handle + 2 → s.strobe0_in = false → s.fifo = bs ++ rest →
    ∃ t, run (6 * bs.length)
          { s with sched := (List.replicate bs.length
              [.streamer, .stb0 true, .streamer, .streamer, .streamer, .stb0 false]).flatten ++ s.sched } = .next t
      ∧ t.data_out = bs.getLastD s.data_out ∧ t.fifo = rest ∧ t.sm_pc = s.sm_handle + 2 ∧ t.strobe0_in = false
      ∧ t.sched = s.sched)

/-! ### The whole machine -/

/-- Every step of every agent keeps the invariant, from every state that meets it. -/
def Obligations.EveryStepKeepsTheInvariant : Prop :=
  ∀ s t : State, s.Inv → step s = .next t → t.Inv

/-- The invariant holds after block reset, under every well-formed configuration, and at `State.reset`. -/
def Obligations.ResetMeetsTheInvariant : Prop :=
  (∀ c : Config, c.wf = true → (State.initial c).Inv) ∧ State.reset.Inv

/-- 41_streamer R178, 20_memory R70: from a state that meets the invariant a step never faults, and it stops only at a
host access that is not an aligned 32-bit one. -/
def Obligations.OnlyAnUndefinedAccessStopsAWellFormedBlock : Prop :=
  ∀ s : State, s.Inv →
    (∃ t, step s = .next t)
    ∨ (step s = .refused .undefinedAccess ∧ s.takesTurn .host
        ∧ ∃ op ops, s.host = op :: ops
          ∧ ((∃ width addr v, op = .write width addr v ∧ (width ≠ .w32 ∨ (s.cfg.regOffset addr).toNat % 4 ≠ 0))
            ∨ (∃ width addr, op = .read width addr ∧ (width ≠ .w32 ∨ (s.cfg.regOffset addr).toNat % 4 ≠ 0))
            ∨ (∃ addr lo width v, op = .poll addr lo width v ∧ (s.cfg.regOffset addr).toNat % 4 ≠ 0)))

/-- 70_reset_and_hazards R320, 10_state R55: the block's fields after block reset, whatever it was doing; the
environment's lines and PayloadMem are as before. -/
def Obligations.BlockResetSetsEveryField : Prop :=
  ∀ s : State, ∃ t, step (s.withTurn .blockReset) = .next t
    ∧ (t.now = 0 ∧ t.rm_armed = false ∧ t.rm_phase = .armedForFall ∧ t.rm_pending = false ∧ t.rm_lastFall = 0)
    ∧ (t.rst_drive = false ∧ t.pins_configured = false ∧ t.data_out = 0x00 ∧ t.data_oe = false
      ∧ t.sideset_out = 0b000 ∧ t.side_owner = 0b000)
    ∧ (t.sm_loaded = false ∧ t.sm_handle = 0 ∧ t.sm_configured = false ∧ t.sm_enabled = false ∧ t.sm_pc = 0
      ∧ t.osr = 0 ∧ t.osr_count = 0 ∧ t.isr = 0 ∧ t.isr_count = 0 ∧ t.fifo = [] ∧ t.imem_own = 0 ∧ t.imem_ext = 0)
    ∧ (t.ch.length = s.cfg.numCh
      ∧ (∀ x ∈ t.ch, x.own = false ∧ x.busy = false ∧ x.read_addr = 0 ∧ x.count = 0)
      ∧ t.feeder_active = false ∧ t.feeder_ch = 0 ∧ t.ext_claim = 0)
    ∧ (t.err = false ∧ t.errcode = 0 ∧ t.err_op = 0 ∧ t.err_async = false ∧ t.fatal = false ∧ t.fatal_cause = 0)
    ∧ (t.res_handle = 0 ∧ t.res_ch = 0 ∧ t.dma_src = 0 ∧ t.dma_count = 0)
    ∧ (t.ext_rst = s.ext_rst ∧ t.strobe0_in = s.strobe0_in ∧ t.strobe1_in = s.strobe1_in ∧ t.mem = s.mem
      ∧ t.cfg = s.cfg)

/-- 70_reset_and_hazards R321: after block reset nothing in the block runs by itself, and what STATUS reads. -/
def Obligations.NothingRunsByItselfAfterBlockReset : Prop :=
  ∀ s t : State, s.cfg.wf = true → step (s.withTurn .blockReset) = .next t →
    step (t.withTurn .streamer) = .next t ∧ step (t.withTurn .dma) = .next t
    ∧ (∀ v, step (t.withTurn (.rst v)) = .next { t with ext_rst := v })
    ∧ (s.ext_rst = true → t.readReg 0x04 = 0x00001808) ∧ (s.ext_rst = false → t.readReg 0x04 = 0x00001800)

/-- 41_streamer R150, 10_state R53: only the host's commands, each its own, and block reset move the streamer's life
cycle. -/
def Obligations.OnlyCommandsMoveTheLifeCycle : Prop :=
  ∀ s t : State, step s = .next t →
    (t.sm_loaded ≠ s.sm_loaded → (t.sm_loaded = true ∧ s.runsCommand .smLoad) ∨ s.takesTurn .blockReset)
    ∧ (t.sm_configured ≠ s.sm_configured →
        (t.sm_configured = true ∧ s.runsCommand .smConfig) ∨ s.takesTurn .blockReset)
    ∧ (t.sm_enabled ≠ s.sm_enabled →
        (t.sm_enabled = true ∧ s.runsCommand .smEnable)
          ∨ (t.sm_enabled = false ∧ (s.runsCommand .smDisable ∨ s.runsCommand .smRestart))
          ∨ s.takesTurn .blockReset)
    ∧ (t.pins_configured ≠ s.pins_configured →
        (t.pins_configured = true ∧ s.runsCommand .pinConfig) ∨ s.takesTurn .blockReset)
    ∧ (t.feeder_active ≠ s.feeder_active →
        (t.feeder_active = true ∧ s.runsCommand .dmaStart)
          ∨ (t.feeder_active = false ∧ ∃ c, s.runsCommand (.dmaStop c)) ∨ s.takesTurn .blockReset)

/-- 60_exceptions R285, R289: the fatal state is left by block reset only, the error record is cleared by ERR_CLEAR and
block reset only, and only a command, an illegal word or the DMA's step writes it. -/
def Obligations.ErrorRecordsAreSticky : Prop :=
  ∀ s t : State, step s = .next t →
    (s.fatal = true → (t.fatal = true ∧ t.fatal_cause = s.fatal_cause) ∨ s.takesTurn .blockReset)
    ∧ (s.err = true → t.err = true ∨ s.runsCommand .errClear ∨ s.takesTurn .blockReset)
    ∧ ((t.err, t.errcode, t.err_op, t.err_async) ≠ (s.err, s.errcode, s.err_op, s.err_async) →
        (∃ i, s.runsCommand i) ∨ s.runsIllegalWord ∨ s.takesTurn .dma ∨ s.takesTurn .blockReset)

/-- 60_exceptions R288: outside the host's turn, a fatal block steps exactly as it would if it were not fatal. -/
def Obligations.TheFatalStateStopsCommandsOnly : Prop :=
  ∀ (s t : State) (turn : Turn) (cause : Byte), turn ≠ .host → turn ≠ .blockReset →
    step (s.withTurn turn) = .next t →
    step ({ s with fatal := true, fatal_cause := cause }.withTurn turn)
      = .next { t with fatal := true, fatal_cause := cause }

/-- 20_memory R62, 10_state R20: no step of the block writes payload memory or a parameter; the platform's turn changes
one address. (That a side effect of a DMA read in system memory, log 25, and a write of the host's own to payload bytes,
log 26, are the platform's turns is the model's choice.) -/
def Obligations.OnlyThePlatformChangesPayloadMemory : Prop :=
  ∀ s t : State, s.mem.wf = true → step s = .next t →
    t.cfg = s.cfg
    ∧ ((∀ a b, ¬ s.takesTurn (.payload a b)) → t.mem = s.mem)
    ∧ (∀ (a : Word) (b : Option Byte), s.takesTurn (.payload a b) →
        ∀ x : Nat, t.mem.read x = if x = a.toNat then b else s.mem.read x)

/-- 10_state R27, 20_memory R69: what the block puts on each pin, the reset line apart; and 10_state R25, 20_memory R65:
what it puts on the reset line's pin. -/
def Obligations.PadsShowTheDrivenLevels : Prop :=
  ∀ s : State,
    (s.rst_drive = true → s.resetPad = .level false) ∧ (s.rst_drive = false → s.resetPad = .z)
    ∧ ((s.pins_configured = false ∨ s.data_oe = false) → ∀ p, s.pad p = .z)
    ∧ (s.pins_configured = true → s.data_oe = true → ∀ i < 8,
        (s.cfg.sidesetEn = false ∨ s.cfg.dataBase + i < s.cfg.sidesetBase
          ∨ s.cfg.sidesetBase + 3 ≤ s.cfg.dataBase + i
          ∨ s.side_owner.getLsbD (s.cfg.dataBase + i - s.cfg.sidesetBase) = false) →
        s.pad (s.cfg.dataBase + i) = .level (s.data_out.getLsbD i))
    ∧ (s.pins_configured = true → s.data_oe = true → s.cfg.sidesetEn = true → ∀ i < 3,
        (s.cfg.sidesetBase + i < s.cfg.dataBase ∨ s.cfg.dataBase + 8 ≤ s.cfg.sidesetBase + i
          ∨ s.side_owner.getLsbD i = true) →
        s.pad (s.cfg.sidesetBase + i) = .level (s.sideset_out.getLsbD i))
    ∧ (∀ p, (p < s.cfg.dataBase ∨ s.cfg.dataBase + 8 ≤ p) →
        (s.cfg.sidesetEn = false ∨ p < s.cfg.sidesetBase ∨ s.cfg.sidesetBase + 3 ≤ p) → s.pad p = .z)

/-- 43_reset_monitor R248, with TS_WIDTH at the value of 00_scope R6: a rise that an armed monitor in ArmedForRise sees is
accepted exactly when the 64-bit difference is at least 500, whoever makes it. -/
def Obligations.AcceptanceIsR248sOnThe64BitTimebase : Prop :=
  ∀ s : State, s.cfg.tsWidth = 64 → s.rm_armed = true → s.rm_phase = .armedForRise →
    (s.rst_drive = false → s.ext_rst = false →
      (500 ≤ (BitVec.ofNat 64 s.now - BitVec.ofNat 64 s.rm_lastFall).toNat →
        step (s.withTurn (.rst true)) = .next { s with
          ext_rst := true, rm_pending := true, rm_armed := false, rm_phase := .armedForFall })
      ∧ ((BitVec.ofNat 64 s.now - BitVec.ofNat 64 s.rm_lastFall).toNat < 500 →
        step (s.withTurn (.rst true)) = .next { s with ext_rst := true, rm_phase := .armedForFall }))
    ∧ (s.rst_drive = true → s.ext_rst = true → s.fatal = false →
      (500 ≤ (BitVec.ofNat 64 s.now - BitVec.ofNat 64 s.rm_lastFall).toNat →
        exec .rstRelease s = .next { s with
          rst_drive := false, rm_pending := true, rm_armed := false, rm_phase := .armedForFall })
      ∧ ((BitVec.ofNat 64 s.now - BitVec.ofNat 64 s.rm_lastFall).toNat < 500 →
        exec .rstRelease s = .next { s with rst_drive := false, rm_phase := .armedForFall }))

/-- 41_streamer R163 to R165, R176, for every bus program: a stall and a pull that finds no byte leave the state as it is;
any other effect does what its parts say. (That a program is a tree for each word, that the later of two parts which
write one field is the one that holds, and what an effect may hold are the model's own, log 8, log 9 and log 11.) -/
def Obligations.AProgramStepDoesWhatItsPartsSay : Prop :=
  ∀ (s : State) (word : BusTree), s.sm_enabled = true →
    s.cfg.program[(s.sm_pc - s.sm_handle).toNat]? = some word →
    (word.eval s.busView = none → step (s.withTurn .streamer) = .next s)
    ∧ (∀ e, word.eval s.busView = some e → e.wf s.cfg = true → s.fifo = [] → .pull ∈ e.acts →
        step (s.withTurn .streamer) = .next s)
    ∧ (∀ e, word.eval s.busView = some e → e.wf s.cfg = true → (s.fifo ≠ [] ∨ .pull ∉ e.acts) →
        ∃ t, step (s.withTurn .streamer) = .next t
          ∧ t = { s with
              data_out := t.data_out, sideset_out := t.sideset_out, side_owner := t.side_owner, osr := t.osr,
              osr_count := t.osr_count, isr := t.isr, isr_count := t.isr_count, fifo := t.fifo, sm_pc := t.sm_pc }
          ∧ t.sm_pc = s.sm_handle + BitVec.ofNat 5 e.next
          ∧ (.pull ∈ e.acts → ∃ b, s.fifo = b :: t.fifo) ∧ (.pull ∉ e.acts → t.fifo = s.fifo)
          ∧ t.osr = e.acts.foldl
              (fun x a => match a with | .pull => s.fifo.headD 0 | .setOsr b => s.byteNamed b | _ => x) s.osr
          ∧ t.osr_count = e.acts.foldl (fun x a => match a with | .pull => 8 | .setOsrCount n => n | _ => x) s.osr_count
          ∧ t.isr = e.acts.foldl (fun x a => match a with | .setIsr b => s.byteNamed b | _ => x) s.isr
          ∧ t.isr_count = e.acts.foldl (fun x a => match a with | .setIsrCount n => n | _ => x) s.isr_count
          ∧ (∀ b, .writeData b ∈ e.acts → t.data_out = s.byteNamed b)
          ∧ ((∀ b, .writeData b ∉ e.acts) → t.data_out = s.data_out)
          ∧ (∀ v, .writeSide v ∈ e.acts → t.sideset_out = v)
          ∧ ((∀ v, .writeSide v ∉ e.acts) → t.sideset_out = s.sideset_out)
          ∧ (∀ i < 3, t.side_owner.getLsbD i = e.acts.foldl
              (fun x a => match a with
                | .writeSide _ => true
                | .writeData _ => x && !(decide (s.cfg.dataBase ≤ s.cfg.sidesetBase + i)
                    && decide (s.cfg.sidesetBase + i < s.cfg.dataBase + 8))
                | _ => x) (s.side_owner.getLsbD i)))

/-- 41_streamer R184, R186, R162, over every schedule of every agent and of any length, stalls and SM_DISABLE included: as
long as each strobe level is held until the streamer has stepped past the wait that tests it and nothing clears the
pipeline, each assertion of the strobe is one byte pulled, counted from a start at PULL with the strobe low; the bytes
leave the FIFO in the order in which they came, and the newest of them is the one on the pins. -/
def Obligations.HeldStrobePulsesPresentOneByteEach : Prop :=
  ∀ (n : Nat) (s t : State), s.sm_loaded = true → s.cfg.program = refProgram → RunsTo n s t →
    (∀ k < n, ∀ u, RunsTo k s u → u.holdsStrobe ∧ u.keepsPipeline) →
    (pulledBytes n s).length + s.bytesAhead = strobeAssertions n s + t.bytesAhead
    ∧ s.fifo ++ pushedBytes n s = pulledBytes n s ++ t.fifo
    ∧ t.newestByte = (pulledBytes n s).getLastD s.newestByte
end

