-- ==== Sys2Proof/Laws/State.lean ====
section
/-! SUPPORT. One lemma per field per named update of the state, each true by definition: what the update writes, and
every field it leaves alone. -/

namespace Sys2Proof.Machine

variable (s : State)

/-! ### `setChan` -/

@[simp] theorem State.setChan_cfg (c : Nat) (x : Channel) : (s.setChan c x).cfg = s.cfg := rfl
@[simp] theorem State.setChan_mem (c : Nat) (x : Channel) : (s.setChan c x).mem = s.mem := rfl
@[simp] theorem State.setChan_sched (c : Nat) (x : Channel) : (s.setChan c x).sched = s.sched := rfl
@[simp] theorem State.setChan_host (c : Nat) (x : Channel) : (s.setChan c x).host = s.host := rfl
@[simp] theorem State.setChan_host_wait (c : Nat) (x : Channel) : (s.setChan c x).host_wait = s.host_wait := rfl
@[simp] theorem State.setChan_host_rdata (c : Nat) (x : Channel) : (s.setChan c x).host_rdata = s.host_rdata := rfl
@[simp] theorem State.setChan_ext_rst (c : Nat) (x : Channel) : (s.setChan c x).ext_rst = s.ext_rst := rfl
@[simp] theorem State.setChan_strobe0_in (c : Nat) (x : Channel) : (s.setChan c x).strobe0_in = s.strobe0_in := rfl
@[simp] theorem State.setChan_strobe1_in (c : Nat) (x : Channel) : (s.setChan c x).strobe1_in = s.strobe1_in := rfl
@[simp] theorem State.setChan_now (c : Nat) (x : Channel) : (s.setChan c x).now = s.now := rfl
@[simp] theorem State.setChan_rm_phase (c : Nat) (x : Channel) : (s.setChan c x).rm_phase = s.rm_phase := rfl
@[simp] theorem State.setChan_rm_lastFall (c : Nat) (x : Channel) : (s.setChan c x).rm_lastFall = s.rm_lastFall := rfl
@[simp] theorem State.setChan_rm_pending (c : Nat) (x : Channel) : (s.setChan c x).rm_pending = s.rm_pending := rfl
@[simp] theorem State.setChan_rm_armed (c : Nat) (x : Channel) : (s.setChan c x).rm_armed = s.rm_armed := rfl
@[simp] theorem State.setChan_rst_drive (c : Nat) (x : Channel) : (s.setChan c x).rst_drive = s.rst_drive := rfl
@[simp] theorem State.setChan_pins_configured (c : Nat) (x : Channel) : (s.setChan c x).pins_configured = s.pins_configured := rfl
@[simp] theorem State.setChan_data_out (c : Nat) (x : Channel) : (s.setChan c x).data_out = s.data_out := rfl
@[simp] theorem State.setChan_data_oe (c : Nat) (x : Channel) : (s.setChan c x).data_oe = s.data_oe := rfl
@[simp] theorem State.setChan_sideset_out (c : Nat) (x : Channel) : (s.setChan c x).sideset_out = s.sideset_out := rfl
@[simp] theorem State.setChan_side_owner (c : Nat) (x : Channel) : (s.setChan c x).side_owner = s.side_owner := rfl
@[simp] theorem State.setChan_sm_loaded (c : Nat) (x : Channel) : (s.setChan c x).sm_loaded = s.sm_loaded := rfl
@[simp] theorem State.setChan_sm_handle (c : Nat) (x : Channel) : (s.setChan c x).sm_handle = s.sm_handle := rfl
@[simp] theorem State.setChan_sm_configured (c : Nat) (x : Channel) : (s.setChan c x).sm_configured = s.sm_configured := rfl
@[simp] theorem State.setChan_sm_enabled (c : Nat) (x : Channel) : (s.setChan c x).sm_enabled = s.sm_enabled := rfl
@[simp] theorem State.setChan_sm_pc (c : Nat) (x : Channel) : (s.setChan c x).sm_pc = s.sm_pc := rfl
@[simp] theorem State.setChan_osr (c : Nat) (x : Channel) : (s.setChan c x).osr = s.osr := rfl
@[simp] theorem State.setChan_osr_count (c : Nat) (x : Channel) : (s.setChan c x).osr_count = s.osr_count := rfl
@[simp] theorem State.setChan_isr (c : Nat) (x : Channel) : (s.setChan c x).isr = s.isr := rfl
@[simp] theorem State.setChan_isr_count (c : Nat) (x : Channel) : (s.setChan c x).isr_count = s.isr_count := rfl
@[simp] theorem State.setChan_fifo (c : Nat) (x : Channel) : (s.setChan c x).fifo = s.fifo := rfl
@[simp] theorem State.setChan_imem_own (c : Nat) (x : Channel) : (s.setChan c x).imem_own = s.imem_own := rfl
@[simp] theorem State.setChan_imem_ext (c : Nat) (x : Channel) : (s.setChan c x).imem_ext = s.imem_ext := rfl
@[simp] theorem State.setChan_ch (c : Nat) (x : Channel) : (s.setChan c x).ch = s.ch.set c x := rfl
@[simp] theorem State.setChan_feeder_active (c : Nat) (x : Channel) : (s.setChan c x).feeder_active = s.feeder_active := rfl
@[simp] theorem State.setChan_feeder_ch (c : Nat) (x : Channel) : (s.setChan c x).feeder_ch = s.feeder_ch := rfl
@[simp] theorem State.setChan_ext_claim (c : Nat) (x : Channel) : (s.setChan c x).ext_claim = s.ext_claim := rfl
@[simp] theorem State.setChan_err (c : Nat) (x : Channel) : (s.setChan c x).err = s.err := rfl
@[simp] theorem State.setChan_errcode (c : Nat) (x : Channel) : (s.setChan c x).errcode = s.errcode := rfl
@[simp] theorem State.setChan_err_op (c : Nat) (x : Channel) : (s.setChan c x).err_op = s.err_op := rfl
@[simp] theorem State.setChan_err_async (c : Nat) (x : Channel) : (s.setChan c x).err_async = s.err_async := rfl
@[simp] theorem State.setChan_fatal (c : Nat) (x : Channel) : (s.setChan c x).fatal = s.fatal := rfl
@[simp] theorem State.setChan_fatal_cause (c : Nat) (x : Channel) : (s.setChan c x).fatal_cause = s.fatal_cause := rfl
@[simp] theorem State.setChan_res_handle (c : Nat) (x : Channel) : (s.setChan c x).res_handle = s.res_handle := rfl
@[simp] theorem State.setChan_res_ch (c : Nat) (x : Channel) : (s.setChan c x).res_ch = s.res_ch := rfl
@[simp] theorem State.setChan_dma_src (c : Nat) (x : Channel) : (s.setChan c x).dma_src = s.dma_src := rfl
@[simp] theorem State.setChan_dma_count (c : Nat) (x : Channel) : (s.setChan c x).dma_count = s.dma_count := rfl

/-! ### `fifoPush` -/

@[simp] theorem State.fifoPush_cfg (b : Byte) : (s.fifoPush b).cfg = s.cfg := rfl
@[simp] theorem State.fifoPush_mem (b : Byte) : (s.fifoPush b).mem = s.mem := rfl
@[simp] theorem State.fifoPush_sched (b : Byte) : (s.fifoPush b).sched = s.sched := rfl
@[simp] theorem State.fifoPush_host (b : Byte) : (s.fifoPush b).host = s.host := rfl
@[simp] theorem State.fifoPush_host_wait (b : Byte) : (s.fifoPush b).host_wait = s.host_wait := rfl
@[simp] theorem State.fifoPush_host_rdata (b : Byte) : (s.fifoPush b).host_rdata = s.host_rdata := rfl
@[simp] theorem State.fifoPush_ext_rst (b : Byte) : (s.fifoPush b).ext_rst = s.ext_rst := rfl
@[simp] theorem State.fifoPush_strobe0_in (b : Byte) : (s.fifoPush b).strobe0_in = s.strobe0_in := rfl
@[simp] theorem State.fifoPush_strobe1_in (b : Byte) : (s.fifoPush b).strobe1_in = s.strobe1_in := rfl
@[simp] theorem State.fifoPush_now (b : Byte) : (s.fifoPush b).now = s.now := rfl
@[simp] theorem State.fifoPush_rm_phase (b : Byte) : (s.fifoPush b).rm_phase = s.rm_phase := rfl
@[simp] theorem State.fifoPush_rm_lastFall (b : Byte) : (s.fifoPush b).rm_lastFall = s.rm_lastFall := rfl
@[simp] theorem State.fifoPush_rm_pending (b : Byte) : (s.fifoPush b).rm_pending = s.rm_pending := rfl
@[simp] theorem State.fifoPush_rm_armed (b : Byte) : (s.fifoPush b).rm_armed = s.rm_armed := rfl
@[simp] theorem State.fifoPush_rst_drive (b : Byte) : (s.fifoPush b).rst_drive = s.rst_drive := rfl
@[simp] theorem State.fifoPush_pins_configured (b : Byte) : (s.fifoPush b).pins_configured = s.pins_configured := rfl
@[simp] theorem State.fifoPush_data_out (b : Byte) : (s.fifoPush b).data_out = s.data_out := rfl
@[simp] theorem State.fifoPush_data_oe (b : Byte) : (s.fifoPush b).data_oe = s.data_oe := rfl
@[simp] theorem State.fifoPush_sideset_out (b : Byte) : (s.fifoPush b).sideset_out = s.sideset_out := rfl
@[simp] theorem State.fifoPush_side_owner (b : Byte) : (s.fifoPush b).side_owner = s.side_owner := rfl
@[simp] theorem State.fifoPush_sm_loaded (b : Byte) : (s.fifoPush b).sm_loaded = s.sm_loaded := rfl
@[simp] theorem State.fifoPush_sm_handle (b : Byte) : (s.fifoPush b).sm_handle = s.sm_handle := rfl
@[simp] theorem State.fifoPush_sm_configured (b : Byte) : (s.fifoPush b).sm_configured = s.sm_configured := rfl
@[simp] theorem State.fifoPush_sm_enabled (b : Byte) : (s.fifoPush b).sm_enabled = s.sm_enabled := rfl
@[simp] theorem State.fifoPush_sm_pc (b : Byte) : (s.fifoPush b).sm_pc = s.sm_pc := rfl
@[simp] theorem State.fifoPush_osr (b : Byte) : (s.fifoPush b).osr = s.osr := rfl
@[simp] theorem State.fifoPush_osr_count (b : Byte) : (s.fifoPush b).osr_count = s.osr_count := rfl
@[simp] theorem State.fifoPush_isr (b : Byte) : (s.fifoPush b).isr = s.isr := rfl
@[simp] theorem State.fifoPush_isr_count (b : Byte) : (s.fifoPush b).isr_count = s.isr_count := rfl
@[simp] theorem State.fifoPush_fifo (b : Byte) : (s.fifoPush b).fifo = s.fifo ++ [b] := rfl
@[simp] theorem State.fifoPush_imem_own (b : Byte) : (s.fifoPush b).imem_own = s.imem_own := rfl
@[simp] theorem State.fifoPush_imem_ext (b : Byte) : (s.fifoPush b).imem_ext = s.imem_ext := rfl
@[simp] theorem State.fifoPush_ch (b : Byte) : (s.fifoPush b).ch = s.ch := rfl
@[simp] theorem State.fifoPush_feeder_active (b : Byte) : (s.fifoPush b).feeder_active = s.feeder_active := rfl
@[simp] theorem State.fifoPush_feeder_ch (b : Byte) : (s.fifoPush b).feeder_ch = s.feeder_ch := rfl
@[simp] theorem State.fifoPush_ext_claim (b : Byte) : (s.fifoPush b).ext_claim = s.ext_claim := rfl
@[simp] theorem State.fifoPush_err (b : Byte) : (s.fifoPush b).err = s.err := rfl
@[simp] theorem State.fifoPush_errcode (b : Byte) : (s.fifoPush b).errcode = s.errcode := rfl
@[simp] theorem State.fifoPush_err_op (b : Byte) : (s.fifoPush b).err_op = s.err_op := rfl
@[simp] theorem State.fifoPush_err_async (b : Byte) : (s.fifoPush b).err_async = s.err_async := rfl
@[simp] theorem State.fifoPush_fatal (b : Byte) : (s.fifoPush b).fatal = s.fatal := rfl
@[simp] theorem State.fifoPush_fatal_cause (b : Byte) : (s.fifoPush b).fatal_cause = s.fatal_cause := rfl
@[simp] theorem State.fifoPush_res_handle (b : Byte) : (s.fifoPush b).res_handle = s.res_handle := rfl
@[simp] theorem State.fifoPush_res_ch (b : Byte) : (s.fifoPush b).res_ch = s.res_ch := rfl
@[simp] theorem State.fifoPush_dma_src (b : Byte) : (s.fifoPush b).dma_src = s.dma_src := rfl
@[simp] theorem State.fifoPush_dma_count (b : Byte) : (s.fifoPush b).dma_count = s.dma_count := rfl

/-! ### `raiseError` -/

@[simp] theorem State.raiseError_cfg (e : ErrorCode) (o : Byte) : (s.raiseError e o).cfg = s.cfg := rfl
@[simp] theorem State.raiseError_mem (e : ErrorCode) (o : Byte) : (s.raiseError e o).mem = s.mem := rfl
@[simp] theorem State.raiseError_sched (e : ErrorCode) (o : Byte) : (s.raiseError e o).sched = s.sched := rfl
@[simp] theorem State.raiseError_host (e : ErrorCode) (o : Byte) : (s.raiseError e o).host = s.host := rfl
@[simp] theorem State.raiseError_host_wait (e : ErrorCode) (o : Byte) : (s.raiseError e o).host_wait = s.host_wait := rfl
@[simp] theorem State.raiseError_host_rdata (e : ErrorCode) (o : Byte) : (s.raiseError e o).host_rdata = s.host_rdata := rfl
@[simp] theorem State.raiseError_ext_rst (e : ErrorCode) (o : Byte) : (s.raiseError e o).ext_rst = s.ext_rst := rfl
@[simp] theorem State.raiseError_strobe0_in (e : ErrorCode) (o : Byte) : (s.raiseError e o).strobe0_in = s.strobe0_in := rfl
@[simp] theorem State.raiseError_strobe1_in (e : ErrorCode) (o : Byte) : (s.raiseError e o).strobe1_in = s.strobe1_in := rfl
@[simp] theorem State.raiseError_now (e : ErrorCode) (o : Byte) : (s.raiseError e o).now = s.now := rfl
@[simp] theorem State.raiseError_rm_phase (e : ErrorCode) (o : Byte) : (s.raiseError e o).rm_phase = s.rm_phase := rfl
@[simp] theorem State.raiseError_rm_lastFall (e : ErrorCode) (o : Byte) : (s.raiseError e o).rm_lastFall = s.rm_lastFall := rfl
@[simp] theorem State.raiseError_rm_pending (e : ErrorCode) (o : Byte) : (s.raiseError e o).rm_pending = s.rm_pending := rfl
@[simp] theorem State.raiseError_rm_armed (e : ErrorCode) (o : Byte) : (s.raiseError e o).rm_armed = s.rm_armed := rfl
@[simp] theorem State.raiseError_rst_drive (e : ErrorCode) (o : Byte) : (s.raiseError e o).rst_drive = s.rst_drive := rfl
@[simp] theorem State.raiseError_pins_configured (e : ErrorCode) (o : Byte) : (s.raiseError e o).pins_configured = s.pins_configured := rfl
@[simp] theorem State.raiseError_data_out (e : ErrorCode) (o : Byte) : (s.raiseError e o).data_out = s.data_out := rfl
@[simp] theorem State.raiseError_data_oe (e : ErrorCode) (o : Byte) : (s.raiseError e o).data_oe = s.data_oe := rfl
@[simp] theorem State.raiseError_sideset_out (e : ErrorCode) (o : Byte) : (s.raiseError e o).sideset_out = s.sideset_out := rfl
@[simp] theorem State.raiseError_side_owner (e : ErrorCode) (o : Byte) : (s.raiseError e o).side_owner = s.side_owner := rfl
@[simp] theorem State.raiseError_sm_loaded (e : ErrorCode) (o : Byte) : (s.raiseError e o).sm_loaded = s.sm_loaded := rfl
@[simp] theorem State.raiseError_sm_handle (e : ErrorCode) (o : Byte) : (s.raiseError e o).sm_handle = s.sm_handle := rfl
@[simp] theorem State.raiseError_sm_configured (e : ErrorCode) (o : Byte) : (s.raiseError e o).sm_configured = s.sm_configured := rfl
@[simp] theorem State.raiseError_sm_enabled (e : ErrorCode) (o : Byte) : (s.raiseError e o).sm_enabled = s.sm_enabled := rfl
@[simp] theorem State.raiseError_sm_pc (e : ErrorCode) (o : Byte) : (s.raiseError e o).sm_pc = s.sm_pc := rfl
@[simp] theorem State.raiseError_osr (e : ErrorCode) (o : Byte) : (s.raiseError e o).osr = s.osr := rfl
@[simp] theorem State.raiseError_osr_count (e : ErrorCode) (o : Byte) : (s.raiseError e o).osr_count = s.osr_count := rfl
@[simp] theorem State.raiseError_isr (e : ErrorCode) (o : Byte) : (s.raiseError e o).isr = s.isr := rfl
@[simp] theorem State.raiseError_isr_count (e : ErrorCode) (o : Byte) : (s.raiseError e o).isr_count = s.isr_count := rfl
@[simp] theorem State.raiseError_fifo (e : ErrorCode) (o : Byte) : (s.raiseError e o).fifo = s.fifo := rfl
@[simp] theorem State.raiseError_imem_own (e : ErrorCode) (o : Byte) : (s.raiseError e o).imem_own = s.imem_own := rfl
@[simp] theorem State.raiseError_imem_ext (e : ErrorCode) (o : Byte) : (s.raiseError e o).imem_ext = s.imem_ext := rfl
@[simp] theorem State.raiseError_ch (e : ErrorCode) (o : Byte) : (s.raiseError e o).ch = s.ch := rfl
@[simp] theorem State.raiseError_feeder_active (e : ErrorCode) (o : Byte) : (s.raiseError e o).feeder_active = s.feeder_active := rfl
@[simp] theorem State.raiseError_feeder_ch (e : ErrorCode) (o : Byte) : (s.raiseError e o).feeder_ch = s.feeder_ch := rfl
@[simp] theorem State.raiseError_ext_claim (e : ErrorCode) (o : Byte) : (s.raiseError e o).ext_claim = s.ext_claim := rfl
@[simp] theorem State.raiseError_err (e : ErrorCode) (o : Byte) : (s.raiseError e o).err = true := rfl
@[simp] theorem State.raiseError_errcode (e : ErrorCode) (o : Byte) : (s.raiseError e o).errcode = e.byte := rfl
@[simp] theorem State.raiseError_err_op (e : ErrorCode) (o : Byte) : (s.raiseError e o).err_op = o := rfl
@[simp] theorem State.raiseError_err_async (e : ErrorCode) (o : Byte) : (s.raiseError e o).err_async = false := rfl
@[simp] theorem State.raiseError_fatal (e : ErrorCode) (o : Byte) : (s.raiseError e o).fatal = s.fatal := rfl
@[simp] theorem State.raiseError_fatal_cause (e : ErrorCode) (o : Byte) : (s.raiseError e o).fatal_cause = s.fatal_cause := rfl
@[simp] theorem State.raiseError_res_handle (e : ErrorCode) (o : Byte) : (s.raiseError e o).res_handle = s.res_handle := rfl
@[simp] theorem State.raiseError_res_ch (e : ErrorCode) (o : Byte) : (s.raiseError e o).res_ch = s.res_ch := rfl
@[simp] theorem State.raiseError_dma_src (e : ErrorCode) (o : Byte) : (s.raiseError e o).dma_src = s.dma_src := rfl
@[simp] theorem State.raiseError_dma_count (e : ErrorCode) (o : Byte) : (s.raiseError e o).dma_count = s.dma_count := rfl

/-! ### `raiseAsync` -/

@[simp] theorem State.raiseAsync_cfg (e : ErrorCode) : (s.raiseAsync e).cfg = s.cfg := rfl
@[simp] theorem State.raiseAsync_mem (e : ErrorCode) : (s.raiseAsync e).mem = s.mem := rfl
@[simp] theorem State.raiseAsync_sched (e : ErrorCode) : (s.raiseAsync e).sched = s.sched := rfl
@[simp] theorem State.raiseAsync_host (e : ErrorCode) : (s.raiseAsync e).host = s.host := rfl
@[simp] theorem State.raiseAsync_host_wait (e : ErrorCode) : (s.raiseAsync e).host_wait = s.host_wait := rfl
@[simp] theorem State.raiseAsync_host_rdata (e : ErrorCode) : (s.raiseAsync e).host_rdata = s.host_rdata := rfl
@[simp] theorem State.raiseAsync_ext_rst (e : ErrorCode) : (s.raiseAsync e).ext_rst = s.ext_rst := rfl
@[simp] theorem State.raiseAsync_strobe0_in (e : ErrorCode) : (s.raiseAsync e).strobe0_in = s.strobe0_in := rfl
@[simp] theorem State.raiseAsync_strobe1_in (e : ErrorCode) : (s.raiseAsync e).strobe1_in = s.strobe1_in := rfl
@[simp] theorem State.raiseAsync_now (e : ErrorCode) : (s.raiseAsync e).now = s.now := rfl
@[simp] theorem State.raiseAsync_rm_phase (e : ErrorCode) : (s.raiseAsync e).rm_phase = s.rm_phase := rfl
@[simp] theorem State.raiseAsync_rm_lastFall (e : ErrorCode) : (s.raiseAsync e).rm_lastFall = s.rm_lastFall := rfl
@[simp] theorem State.raiseAsync_rm_pending (e : ErrorCode) : (s.raiseAsync e).rm_pending = s.rm_pending := rfl
@[simp] theorem State.raiseAsync_rm_armed (e : ErrorCode) : (s.raiseAsync e).rm_armed = s.rm_armed := rfl
@[simp] theorem State.raiseAsync_rst_drive (e : ErrorCode) : (s.raiseAsync e).rst_drive = s.rst_drive := rfl
@[simp] theorem State.raiseAsync_pins_configured (e : ErrorCode) : (s.raiseAsync e).pins_configured = s.pins_configured := rfl
@[simp] theorem State.raiseAsync_data_out (e : ErrorCode) : (s.raiseAsync e).data_out = s.data_out := rfl
@[simp] theorem State.raiseAsync_data_oe (e : ErrorCode) : (s.raiseAsync e).data_oe = s.data_oe := rfl
@[simp] theorem State.raiseAsync_sideset_out (e : ErrorCode) : (s.raiseAsync e).sideset_out = s.sideset_out := rfl
@[simp] theorem State.raiseAsync_side_owner (e : ErrorCode) : (s.raiseAsync e).side_owner = s.side_owner := rfl
@[simp] theorem State.raiseAsync_sm_loaded (e : ErrorCode) : (s.raiseAsync e).sm_loaded = s.sm_loaded := rfl
@[simp] theorem State.raiseAsync_sm_handle (e : ErrorCode) : (s.raiseAsync e).sm_handle = s.sm_handle := rfl
@[simp] theorem State.raiseAsync_sm_configured (e : ErrorCode) : (s.raiseAsync e).sm_configured = s.sm_configured := rfl
@[simp] theorem State.raiseAsync_sm_enabled (e : ErrorCode) : (s.raiseAsync e).sm_enabled = s.sm_enabled := rfl
@[simp] theorem State.raiseAsync_sm_pc (e : ErrorCode) : (s.raiseAsync e).sm_pc = s.sm_pc := rfl
@[simp] theorem State.raiseAsync_osr (e : ErrorCode) : (s.raiseAsync e).osr = s.osr := rfl
@[simp] theorem State.raiseAsync_osr_count (e : ErrorCode) : (s.raiseAsync e).osr_count = s.osr_count := rfl
@[simp] theorem State.raiseAsync_isr (e : ErrorCode) : (s.raiseAsync e).isr = s.isr := rfl
@[simp] theorem State.raiseAsync_isr_count (e : ErrorCode) : (s.raiseAsync e).isr_count = s.isr_count := rfl
@[simp] theorem State.raiseAsync_fifo (e : ErrorCode) : (s.raiseAsync e).fifo = s.fifo := rfl
@[simp] theorem State.raiseAsync_imem_own (e : ErrorCode) : (s.raiseAsync e).imem_own = s.imem_own := rfl
@[simp] theorem State.raiseAsync_imem_ext (e : ErrorCode) : (s.raiseAsync e).imem_ext = s.imem_ext := rfl
@[simp] theorem State.raiseAsync_ch (e : ErrorCode) : (s.raiseAsync e).ch = s.ch := rfl
@[simp] theorem State.raiseAsync_feeder_active (e : ErrorCode) : (s.raiseAsync e).feeder_active = s.feeder_active := rfl
@[simp] theorem State.raiseAsync_feeder_ch (e : ErrorCode) : (s.raiseAsync e).feeder_ch = s.feeder_ch := rfl
@[simp] theorem State.raiseAsync_ext_claim (e : ErrorCode) : (s.raiseAsync e).ext_claim = s.ext_claim := rfl
@[simp] theorem State.raiseAsync_err (e : ErrorCode) : (s.raiseAsync e).err = true := rfl
@[simp] theorem State.raiseAsync_errcode (e : ErrorCode) : (s.raiseAsync e).errcode = e.byte := rfl
@[simp] theorem State.raiseAsync_err_op (e : ErrorCode) : (s.raiseAsync e).err_op = 0x00 := rfl
@[simp] theorem State.raiseAsync_err_async (e : ErrorCode) : (s.raiseAsync e).err_async = true := rfl
@[simp] theorem State.raiseAsync_fatal (e : ErrorCode) : (s.raiseAsync e).fatal = s.fatal := rfl
@[simp] theorem State.raiseAsync_fatal_cause (e : ErrorCode) : (s.raiseAsync e).fatal_cause = s.fatal_cause := rfl
@[simp] theorem State.raiseAsync_res_handle (e : ErrorCode) : (s.raiseAsync e).res_handle = s.res_handle := rfl
@[simp] theorem State.raiseAsync_res_ch (e : ErrorCode) : (s.raiseAsync e).res_ch = s.res_ch := rfl
@[simp] theorem State.raiseAsync_dma_src (e : ErrorCode) : (s.raiseAsync e).dma_src = s.dma_src := rfl
@[simp] theorem State.raiseAsync_dma_count (e : ErrorCode) : (s.raiseAsync e).dma_count = s.dma_count := rfl

/-! ### `raiseFatal` -/

@[simp] theorem State.raiseFatal_cfg (f : FatalCause) (o : Byte) : (s.raiseFatal f o).cfg = s.cfg := rfl
@[simp] theorem State.raiseFatal_mem (f : FatalCause) (o : Byte) : (s.raiseFatal f o).mem = s.mem := rfl
@[simp] theorem State.raiseFatal_sched (f : FatalCause) (o : Byte) : (s.raiseFatal f o).sched = s.sched := rfl
@[simp] theorem State.raiseFatal_host (f : FatalCause) (o : Byte) : (s.raiseFatal f o).host = s.host := rfl
@[simp] theorem State.raiseFatal_host_wait (f : FatalCause) (o : Byte) : (s.raiseFatal f o).host_wait = s.host_wait := rfl
@[simp] theorem State.raiseFatal_host_rdata (f : FatalCause) (o : Byte) : (s.raiseFatal f o).host_rdata = s.host_rdata := rfl
@[simp] theorem State.raiseFatal_ext_rst (f : FatalCause) (o : Byte) : (s.raiseFatal f o).ext_rst = s.ext_rst := rfl
@[simp] theorem State.raiseFatal_strobe0_in (f : FatalCause) (o : Byte) : (s.raiseFatal f o).strobe0_in = s.strobe0_in := rfl
@[simp] theorem State.raiseFatal_strobe1_in (f : FatalCause) (o : Byte) : (s.raiseFatal f o).strobe1_in = s.strobe1_in := rfl
@[simp] theorem State.raiseFatal_now (f : FatalCause) (o : Byte) : (s.raiseFatal f o).now = s.now := rfl
@[simp] theorem State.raiseFatal_rm_phase (f : FatalCause) (o : Byte) : (s.raiseFatal f o).rm_phase = s.rm_phase := rfl
@[simp] theorem State.raiseFatal_rm_lastFall (f : FatalCause) (o : Byte) : (s.raiseFatal f o).rm_lastFall = s.rm_lastFall := rfl
@[simp] theorem State.raiseFatal_rm_pending (f : FatalCause) (o : Byte) : (s.raiseFatal f o).rm_pending = s.rm_pending := rfl
@[simp] theorem State.raiseFatal_rm_armed (f : FatalCause) (o : Byte) : (s.raiseFatal f o).rm_armed = s.rm_armed := rfl
@[simp] theorem State.raiseFatal_rst_drive (f : FatalCause) (o : Byte) : (s.raiseFatal f o).rst_drive = s.rst_drive := rfl
@[simp] theorem State.raiseFatal_pins_configured (f : FatalCause) (o : Byte) : (s.raiseFatal f o).pins_configured = s.pins_configured := rfl
@[simp] theorem State.raiseFatal_data_out (f : FatalCause) (o : Byte) : (s.raiseFatal f o).data_out = s.data_out := rfl
@[simp] theorem State.raiseFatal_data_oe (f : FatalCause) (o : Byte) : (s.raiseFatal f o).data_oe = s.data_oe := rfl
@[simp] theorem State.raiseFatal_sideset_out (f : FatalCause) (o : Byte) : (s.raiseFatal f o).sideset_out = s.sideset_out := rfl
@[simp] theorem State.raiseFatal_side_owner (f : FatalCause) (o : Byte) : (s.raiseFatal f o).side_owner = s.side_owner := rfl
@[simp] theorem State.raiseFatal_sm_loaded (f : FatalCause) (o : Byte) : (s.raiseFatal f o).sm_loaded = s.sm_loaded := rfl
@[simp] theorem State.raiseFatal_sm_handle (f : FatalCause) (o : Byte) : (s.raiseFatal f o).sm_handle = s.sm_handle := rfl
@[simp] theorem State.raiseFatal_sm_configured (f : FatalCause) (o : Byte) : (s.raiseFatal f o).sm_configured = s.sm_configured := rfl
@[simp] theorem State.raiseFatal_sm_enabled (f : FatalCause) (o : Byte) : (s.raiseFatal f o).sm_enabled = s.sm_enabled := rfl
@[simp] theorem State.raiseFatal_sm_pc (f : FatalCause) (o : Byte) : (s.raiseFatal f o).sm_pc = s.sm_pc := rfl
@[simp] theorem State.raiseFatal_osr (f : FatalCause) (o : Byte) : (s.raiseFatal f o).osr = s.osr := rfl
@[simp] theorem State.raiseFatal_osr_count (f : FatalCause) (o : Byte) : (s.raiseFatal f o).osr_count = s.osr_count := rfl
@[simp] theorem State.raiseFatal_isr (f : FatalCause) (o : Byte) : (s.raiseFatal f o).isr = s.isr := rfl
@[simp] theorem State.raiseFatal_isr_count (f : FatalCause) (o : Byte) : (s.raiseFatal f o).isr_count = s.isr_count := rfl
@[simp] theorem State.raiseFatal_fifo (f : FatalCause) (o : Byte) : (s.raiseFatal f o).fifo = s.fifo := rfl
@[simp] theorem State.raiseFatal_imem_own (f : FatalCause) (o : Byte) : (s.raiseFatal f o).imem_own = s.imem_own := rfl
@[simp] theorem State.raiseFatal_imem_ext (f : FatalCause) (o : Byte) : (s.raiseFatal f o).imem_ext = s.imem_ext := rfl
@[simp] theorem State.raiseFatal_ch (f : FatalCause) (o : Byte) : (s.raiseFatal f o).ch = s.ch := rfl
@[simp] theorem State.raiseFatal_feeder_active (f : FatalCause) (o : Byte) : (s.raiseFatal f o).feeder_active = s.feeder_active := rfl
@[simp] theorem State.raiseFatal_feeder_ch (f : FatalCause) (o : Byte) : (s.raiseFatal f o).feeder_ch = s.feeder_ch := rfl
@[simp] theorem State.raiseFatal_ext_claim (f : FatalCause) (o : Byte) : (s.raiseFatal f o).ext_claim = s.ext_claim := rfl
@[simp] theorem State.raiseFatal_err (f : FatalCause) (o : Byte) : (s.raiseFatal f o).err = s.err := rfl
@[simp] theorem State.raiseFatal_errcode (f : FatalCause) (o : Byte) : (s.raiseFatal f o).errcode = s.errcode := rfl
@[simp] theorem State.raiseFatal_err_op (f : FatalCause) (o : Byte) : (s.raiseFatal f o).err_op = o := rfl
@[simp] theorem State.raiseFatal_err_async (f : FatalCause) (o : Byte) : (s.raiseFatal f o).err_async = s.err_async := rfl
@[simp] theorem State.raiseFatal_fatal (f : FatalCause) (o : Byte) : (s.raiseFatal f o).fatal = true := rfl
@[simp] theorem State.raiseFatal_fatal_cause (f : FatalCause) (o : Byte) : (s.raiseFatal f o).fatal_cause = f.byte := rfl
@[simp] theorem State.raiseFatal_res_handle (f : FatalCause) (o : Byte) : (s.raiseFatal f o).res_handle = s.res_handle := rfl
@[simp] theorem State.raiseFatal_res_ch (f : FatalCause) (o : Byte) : (s.raiseFatal f o).res_ch = s.res_ch := rfl
@[simp] theorem State.raiseFatal_dma_src (f : FatalCause) (o : Byte) : (s.raiseFatal f o).dma_src = s.dma_src := rfl
@[simp] theorem State.raiseFatal_dma_count (f : FatalCause) (o : Byte) : (s.raiseFatal f o).dma_count = s.dma_count := rfl

/-! ### `clearError` -/

@[simp] theorem State.clearError_cfg : (s.clearError).cfg = s.cfg := rfl
@[simp] theorem State.clearError_mem : (s.clearError).mem = s.mem := rfl
@[simp] theorem State.clearError_sched : (s.clearError).sched = s.sched := rfl
@[simp] theorem State.clearError_host : (s.clearError).host = s.host := rfl
@[simp] theorem State.clearError_host_wait : (s.clearError).host_wait = s.host_wait := rfl
@[simp] theorem State.clearError_host_rdata : (s.clearError).host_rdata = s.host_rdata := rfl
@[simp] theorem State.clearError_ext_rst : (s.clearError).ext_rst = s.ext_rst := rfl
@[simp] theorem State.clearError_strobe0_in : (s.clearError).strobe0_in = s.strobe0_in := rfl
@[simp] theorem State.clearError_strobe1_in : (s.clearError).strobe1_in = s.strobe1_in := rfl
@[simp] theorem State.clearError_now : (s.clearError).now = s.now := rfl
@[simp] theorem State.clearError_rm_phase : (s.clearError).rm_phase = s.rm_phase := rfl
@[simp] theorem State.clearError_rm_lastFall : (s.clearError).rm_lastFall = s.rm_lastFall := rfl
@[simp] theorem State.clearError_rm_pending : (s.clearError).rm_pending = s.rm_pending := rfl
@[simp] theorem State.clearError_rm_armed : (s.clearError).rm_armed = s.rm_armed := rfl
@[simp] theorem State.clearError_rst_drive : (s.clearError).rst_drive = s.rst_drive := rfl
@[simp] theorem State.clearError_pins_configured : (s.clearError).pins_configured = s.pins_configured := rfl
@[simp] theorem State.clearError_data_out : (s.clearError).data_out = s.data_out := rfl
@[simp] theorem State.clearError_data_oe : (s.clearError).data_oe = s.data_oe := rfl
@[simp] theorem State.clearError_sideset_out : (s.clearError).sideset_out = s.sideset_out := rfl
@[simp] theorem State.clearError_side_owner : (s.clearError).side_owner = s.side_owner := rfl
@[simp] theorem State.clearError_sm_loaded : (s.clearError).sm_loaded = s.sm_loaded := rfl
@[simp] theorem State.clearError_sm_handle : (s.clearError).sm_handle = s.sm_handle := rfl
@[simp] theorem State.clearError_sm_configured : (s.clearError).sm_configured = s.sm_configured := rfl
@[simp] theorem State.clearError_sm_enabled : (s.clearError).sm_enabled = s.sm_enabled := rfl
@[simp] theorem State.clearError_sm_pc : (s.clearError).sm_pc = s.sm_pc := rfl
@[simp] theorem State.clearError_osr : (s.clearError).osr = s.osr := rfl
@[simp] theorem State.clearError_osr_count : (s.clearError).osr_count = s.osr_count := rfl
@[simp] theorem State.clearError_isr : (s.clearError).isr = s.isr := rfl
@[simp] theorem State.clearError_isr_count : (s.clearError).isr_count = s.isr_count := rfl
@[simp] theorem State.clearError_fifo : (s.clearError).fifo = s.fifo := rfl
@[simp] theorem State.clearError_imem_own : (s.clearError).imem_own = s.imem_own := rfl
@[simp] theorem State.clearError_imem_ext : (s.clearError).imem_ext = s.imem_ext := rfl
@[simp] theorem State.clearError_ch : (s.clearError).ch = s.ch := rfl
@[simp] theorem State.clearError_feeder_active : (s.clearError).feeder_active = s.feeder_active := rfl
@[simp] theorem State.clearError_feeder_ch : (s.clearError).feeder_ch = s.feeder_ch := rfl
@[simp] theorem State.clearError_ext_claim : (s.clearError).ext_claim = s.ext_claim := rfl
@[simp] theorem State.clearError_err : (s.clearError).err = false := rfl
@[simp] theorem State.clearError_errcode : (s.clearError).errcode = 0x00 := rfl
@[simp] theorem State.clearError_err_op : (s.clearError).err_op = 0x00 := rfl
@[simp] theorem State.clearError_err_async : (s.clearError).err_async = false := rfl
@[simp] theorem State.clearError_fatal : (s.clearError).fatal = s.fatal := rfl
@[simp] theorem State.clearError_fatal_cause : (s.clearError).fatal_cause = s.fatal_cause := rfl
@[simp] theorem State.clearError_res_handle : (s.clearError).res_handle = s.res_handle := rfl
@[simp] theorem State.clearError_res_ch : (s.clearError).res_ch = s.res_ch := rfl
@[simp] theorem State.clearError_dma_src : (s.clearError).dma_src = s.dma_src := rfl
@[simp] theorem State.clearError_dma_count : (s.clearError).dma_count = s.dma_count := rfl

/-! ### `glitch` -/

@[simp] theorem State.glitch_cfg : (s.glitch).cfg = s.cfg := rfl
@[simp] theorem State.glitch_mem : (s.glitch).mem = s.mem := rfl
@[simp] theorem State.glitch_sched : (s.glitch).sched = s.sched := rfl
@[simp] theorem State.glitch_host : (s.glitch).host = s.host := rfl
@[simp] theorem State.glitch_host_wait : (s.glitch).host_wait = s.host_wait := rfl
@[simp] theorem State.glitch_host_rdata : (s.glitch).host_rdata = s.host_rdata := rfl
@[simp] theorem State.glitch_ext_rst : (s.glitch).ext_rst = s.ext_rst := rfl
@[simp] theorem State.glitch_strobe0_in : (s.glitch).strobe0_in = s.strobe0_in := rfl
@[simp] theorem State.glitch_strobe1_in : (s.glitch).strobe1_in = s.strobe1_in := rfl
@[simp] theorem State.glitch_now : (s.glitch).now = s.now := rfl
@[simp] theorem State.glitch_rm_phase : (s.glitch).rm_phase = .armedForFall := rfl
@[simp] theorem State.glitch_rm_lastFall : (s.glitch).rm_lastFall = s.rm_lastFall := rfl
@[simp] theorem State.glitch_rm_pending : (s.glitch).rm_pending = s.rm_pending := rfl
@[simp] theorem State.glitch_rm_armed : (s.glitch).rm_armed = s.rm_armed := rfl
@[simp] theorem State.glitch_rst_drive : (s.glitch).rst_drive = s.rst_drive := rfl
@[simp] theorem State.glitch_pins_configured : (s.glitch).pins_configured = s.pins_configured := rfl
@[simp] theorem State.glitch_data_out : (s.glitch).data_out = s.data_out := rfl
@[simp] theorem State.glitch_data_oe : (s.glitch).data_oe = s.data_oe := rfl
@[simp] theorem State.glitch_sideset_out : (s.glitch).sideset_out = s.sideset_out := rfl
@[simp] theorem State.glitch_side_owner : (s.glitch).side_owner = s.side_owner := rfl
@[simp] theorem State.glitch_sm_loaded : (s.glitch).sm_loaded = s.sm_loaded := rfl
@[simp] theorem State.glitch_sm_handle : (s.glitch).sm_handle = s.sm_handle := rfl
@[simp] theorem State.glitch_sm_configured : (s.glitch).sm_configured = s.sm_configured := rfl
@[simp] theorem State.glitch_sm_enabled : (s.glitch).sm_enabled = s.sm_enabled := rfl
@[simp] theorem State.glitch_sm_pc : (s.glitch).sm_pc = s.sm_pc := rfl
@[simp] theorem State.glitch_osr : (s.glitch).osr = s.osr := rfl
@[simp] theorem State.glitch_osr_count : (s.glitch).osr_count = s.osr_count := rfl
@[simp] theorem State.glitch_isr : (s.glitch).isr = s.isr := rfl
@[simp] theorem State.glitch_isr_count : (s.glitch).isr_count = s.isr_count := rfl
@[simp] theorem State.glitch_fifo : (s.glitch).fifo = s.fifo := rfl
@[simp] theorem State.glitch_imem_own : (s.glitch).imem_own = s.imem_own := rfl
@[simp] theorem State.glitch_imem_ext : (s.glitch).imem_ext = s.imem_ext := rfl
@[simp] theorem State.glitch_ch : (s.glitch).ch = s.ch := rfl
@[simp] theorem State.glitch_feeder_active : (s.glitch).feeder_active = s.feeder_active := rfl
@[simp] theorem State.glitch_feeder_ch : (s.glitch).feeder_ch = s.feeder_ch := rfl
@[simp] theorem State.glitch_ext_claim : (s.glitch).ext_claim = s.ext_claim := rfl
@[simp] theorem State.glitch_err : (s.glitch).err = s.err := rfl
@[simp] theorem State.glitch_errcode : (s.glitch).errcode = s.errcode := rfl
@[simp] theorem State.glitch_err_op : (s.glitch).err_op = s.err_op := rfl
@[simp] theorem State.glitch_err_async : (s.glitch).err_async = s.err_async := rfl
@[simp] theorem State.glitch_fatal : (s.glitch).fatal = s.fatal := rfl
@[simp] theorem State.glitch_fatal_cause : (s.glitch).fatal_cause = s.fatal_cause := rfl
@[simp] theorem State.glitch_res_handle : (s.glitch).res_handle = s.res_handle := rfl
@[simp] theorem State.glitch_res_ch : (s.glitch).res_ch = s.res_ch := rfl
@[simp] theorem State.glitch_dma_src : (s.glitch).dma_src = s.dma_src := rfl
@[simp] theorem State.glitch_dma_count : (s.glitch).dma_count = s.dma_count := rfl

/-! ### `accept` -/

@[simp] theorem State.accept_cfg : (s.accept).cfg = s.cfg := rfl
@[simp] theorem State.accept_mem : (s.accept).mem = s.mem := rfl
@[simp] theorem State.accept_sched : (s.accept).sched = s.sched := rfl
@[simp] theorem State.accept_host : (s.accept).host = s.host := rfl
@[simp] theorem State.accept_host_wait : (s.accept).host_wait = s.host_wait := rfl
@[simp] theorem State.accept_host_rdata : (s.accept).host_rdata = s.host_rdata := rfl
@[simp] theorem State.accept_ext_rst : (s.accept).ext_rst = s.ext_rst := rfl
@[simp] theorem State.accept_strobe0_in : (s.accept).strobe0_in = s.strobe0_in := rfl
@[simp] theorem State.accept_strobe1_in : (s.accept).strobe1_in = s.strobe1_in := rfl
@[simp] theorem State.accept_now : (s.accept).now = s.now := rfl
@[simp] theorem State.accept_rm_phase : (s.accept).rm_phase = .armedForFall := rfl
@[simp] theorem State.accept_rm_lastFall : (s.accept).rm_lastFall = s.rm_lastFall := rfl
@[simp] theorem State.accept_rm_pending : (s.accept).rm_pending = true := rfl
@[simp] theorem State.accept_rm_armed : (s.accept).rm_armed = false := rfl
@[simp] theorem State.accept_rst_drive : (s.accept).rst_drive = s.rst_drive := rfl
@[simp] theorem State.accept_pins_configured : (s.accept).pins_configured = s.pins_configured := rfl
@[simp] theorem State.accept_data_out : (s.accept).data_out = s.data_out := rfl
@[simp] theorem State.accept_data_oe : (s.accept).data_oe = s.data_oe := rfl
@[simp] theorem State.accept_sideset_out : (s.accept).sideset_out = s.sideset_out := rfl
@[simp] theorem State.accept_side_owner : (s.accept).side_owner = s.side_owner := rfl
@[simp] theorem State.accept_sm_loaded : (s.accept).sm_loaded = s.sm_loaded := rfl
@[simp] theorem State.accept_sm_handle : (s.accept).sm_handle = s.sm_handle := rfl
@[simp] theorem State.accept_sm_configured : (s.accept).sm_configured = s.sm_configured := rfl
@[simp] theorem State.accept_sm_enabled : (s.accept).sm_enabled = s.sm_enabled := rfl
@[simp] theorem State.accept_sm_pc : (s.accept).sm_pc = s.sm_pc := rfl
@[simp] theorem State.accept_osr : (s.accept).osr = s.osr := rfl
@[simp] theorem State.accept_osr_count : (s.accept).osr_count = s.osr_count := rfl
@[simp] theorem State.accept_isr : (s.accept).isr = s.isr := rfl
@[simp] theorem State.accept_isr_count : (s.accept).isr_count = s.isr_count := rfl
@[simp] theorem State.accept_fifo : (s.accept).fifo = s.fifo := rfl
@[simp] theorem State.accept_imem_own : (s.accept).imem_own = s.imem_own := rfl
@[simp] theorem State.accept_imem_ext : (s.accept).imem_ext = s.imem_ext := rfl
@[simp] theorem State.accept_ch : (s.accept).ch = s.ch := rfl
@[simp] theorem State.accept_feeder_active : (s.accept).feeder_active = s.feeder_active := rfl
@[simp] theorem State.accept_feeder_ch : (s.accept).feeder_ch = s.feeder_ch := rfl
@[simp] theorem State.accept_ext_claim : (s.accept).ext_claim = s.ext_claim := rfl
@[simp] theorem State.accept_err : (s.accept).err = s.err := rfl
@[simp] theorem State.accept_errcode : (s.accept).errcode = s.errcode := rfl
@[simp] theorem State.accept_err_op : (s.accept).err_op = s.err_op := rfl
@[simp] theorem State.accept_err_async : (s.accept).err_async = s.err_async := rfl
@[simp] theorem State.accept_fatal : (s.accept).fatal = s.fatal := rfl
@[simp] theorem State.accept_fatal_cause : (s.accept).fatal_cause = s.fatal_cause := rfl
@[simp] theorem State.accept_res_handle : (s.accept).res_handle = s.res_handle := rfl
@[simp] theorem State.accept_res_ch : (s.accept).res_ch = s.res_ch := rfl
@[simp] theorem State.accept_dma_src : (s.accept).dma_src = s.dma_src := rfl
@[simp] theorem State.accept_dma_count : (s.accept).dma_count = s.dma_count := rfl

/-! ### `tick` -/

@[simp] theorem State.tick_cfg : (s.tick).cfg = s.cfg := rfl
@[simp] theorem State.tick_mem : (s.tick).mem = s.mem := rfl
@[simp] theorem State.tick_sched : (s.tick).sched = s.sched := rfl
@[simp] theorem State.tick_host : (s.tick).host = s.host := rfl
@[simp] theorem State.tick_host_wait : (s.tick).host_wait = s.host_wait.map (· + 1) := rfl
@[simp] theorem State.tick_host_rdata : (s.tick).host_rdata = s.host_rdata := rfl
@[simp] theorem State.tick_ext_rst : (s.tick).ext_rst = s.ext_rst := rfl
@[simp] theorem State.tick_strobe0_in : (s.tick).strobe0_in = s.strobe0_in := rfl
@[simp] theorem State.tick_strobe1_in : (s.tick).strobe1_in = s.strobe1_in := rfl
@[simp] theorem State.tick_now : (s.tick).now = s.cfg.timeAdd s.now 1 := rfl
@[simp] theorem State.tick_rm_phase : (s.tick).rm_phase = s.rm_phase := rfl
@[simp] theorem State.tick_rm_lastFall : (s.tick).rm_lastFall = s.rm_lastFall := rfl
@[simp] theorem State.tick_rm_pending : (s.tick).rm_pending = s.rm_pending := rfl
@[simp] theorem State.tick_rm_armed : (s.tick).rm_armed = s.rm_armed := rfl
@[simp] theorem State.tick_rst_drive : (s.tick).rst_drive = s.rst_drive := rfl
@[simp] theorem State.tick_pins_configured : (s.tick).pins_configured = s.pins_configured := rfl
@[simp] theorem State.tick_data_out : (s.tick).data_out = s.data_out := rfl
@[simp] theorem State.tick_data_oe : (s.tick).data_oe = s.data_oe := rfl
@[simp] theorem State.tick_sideset_out : (s.tick).sideset_out = s.sideset_out := rfl
@[simp] theorem State.tick_side_owner : (s.tick).side_owner = s.side_owner := rfl
@[simp] theorem State.tick_sm_loaded : (s.tick).sm_loaded = s.sm_loaded := rfl
@[simp] theorem State.tick_sm_handle : (s.tick).sm_handle = s.sm_handle := rfl
@[simp] theorem State.tick_sm_configured : (s.tick).sm_configured = s.sm_configured := rfl
@[simp] theorem State.tick_sm_enabled : (s.tick).sm_enabled = s.sm_enabled := rfl
@[simp] theorem State.tick_sm_pc : (s.tick).sm_pc = s.sm_pc := rfl
@[simp] theorem State.tick_osr : (s.tick).osr = s.osr := rfl
@[simp] theorem State.tick_osr_count : (s.tick).osr_count = s.osr_count := rfl
@[simp] theorem State.tick_isr : (s.tick).isr = s.isr := rfl
@[simp] theorem State.tick_isr_count : (s.tick).isr_count = s.isr_count := rfl
@[simp] theorem State.tick_fifo : (s.tick).fifo = s.fifo := rfl
@[simp] theorem State.tick_imem_own : (s.tick).imem_own = s.imem_own := rfl
@[simp] theorem State.tick_imem_ext : (s.tick).imem_ext = s.imem_ext := rfl
@[simp] theorem State.tick_ch : (s.tick).ch = s.ch := rfl
@[simp] theorem State.tick_feeder_active : (s.tick).feeder_active = s.feeder_active := rfl
@[simp] theorem State.tick_feeder_ch : (s.tick).feeder_ch = s.feeder_ch := rfl
@[simp] theorem State.tick_ext_claim : (s.tick).ext_claim = s.ext_claim := rfl
@[simp] theorem State.tick_err : (s.tick).err = s.err := rfl
@[simp] theorem State.tick_errcode : (s.tick).errcode = s.errcode := rfl
@[simp] theorem State.tick_err_op : (s.tick).err_op = s.err_op := rfl
@[simp] theorem State.tick_err_async : (s.tick).err_async = s.err_async := rfl
@[simp] theorem State.tick_fatal : (s.tick).fatal = s.fatal := rfl
@[simp] theorem State.tick_fatal_cause : (s.tick).fatal_cause = s.fatal_cause := rfl
@[simp] theorem State.tick_res_handle : (s.tick).res_handle = s.res_handle := rfl
@[simp] theorem State.tick_res_ch : (s.tick).res_ch = s.res_ch := rfl
@[simp] theorem State.tick_dma_src : (s.tick).dma_src = s.dma_src := rfl
@[simp] theorem State.tick_dma_count : (s.tick).dma_count = s.dma_count := rfl

/-! ### `clearPipeline` -/

@[simp] theorem State.clearPipeline_cfg : (s.clearPipeline).cfg = s.cfg := rfl
@[simp] theorem State.clearPipeline_mem : (s.clearPipeline).mem = s.mem := rfl
@[simp] theorem State.clearPipeline_sched : (s.clearPipeline).sched = s.sched := rfl
@[simp] theorem State.clearPipeline_host : (s.clearPipeline).host = s.host := rfl
@[simp] theorem State.clearPipeline_host_wait : (s.clearPipeline).host_wait = s.host_wait := rfl
@[simp] theorem State.clearPipeline_host_rdata : (s.clearPipeline).host_rdata = s.host_rdata := rfl
@[simp] theorem State.clearPipeline_ext_rst : (s.clearPipeline).ext_rst = s.ext_rst := rfl
@[simp] theorem State.clearPipeline_strobe0_in : (s.clearPipeline).strobe0_in = s.strobe0_in := rfl
@[simp] theorem State.clearPipeline_strobe1_in : (s.clearPipeline).strobe1_in = s.strobe1_in := rfl
@[simp] theorem State.clearPipeline_now : (s.clearPipeline).now = s.now := rfl
@[simp] theorem State.clearPipeline_rm_phase : (s.clearPipeline).rm_phase = s.rm_phase := rfl
@[simp] theorem State.clearPipeline_rm_lastFall : (s.clearPipeline).rm_lastFall = s.rm_lastFall := rfl
@[simp] theorem State.clearPipeline_rm_pending : (s.clearPipeline).rm_pending = s.rm_pending := rfl
@[simp] theorem State.clearPipeline_rm_armed : (s.clearPipeline).rm_armed = s.rm_armed := rfl
@[simp] theorem State.clearPipeline_rst_drive : (s.clearPipeline).rst_drive = s.rst_drive := rfl
@[simp] theorem State.clearPipeline_pins_configured : (s.clearPipeline).pins_configured = s.pins_configured := rfl
@[simp] theorem State.clearPipeline_data_out : (s.clearPipeline).data_out = s.data_out := rfl
@[simp] theorem State.clearPipeline_data_oe : (s.clearPipeline).data_oe = s.data_oe := rfl
@[simp] theorem State.clearPipeline_sideset_out : (s.clearPipeline).sideset_out = s.sideset_out := rfl
@[simp] theorem State.clearPipeline_side_owner : (s.clearPipeline).side_owner = s.side_owner := rfl
@[simp] theorem State.clearPipeline_sm_loaded : (s.clearPipeline).sm_loaded = s.sm_loaded := rfl
@[simp] theorem State.clearPipeline_sm_handle : (s.clearPipeline).sm_handle = s.sm_handle := rfl
@[simp] theorem State.clearPipeline_sm_configured : (s.clearPipeline).sm_configured = s.sm_configured := rfl
@[simp] theorem State.clearPipeline_sm_enabled : (s.clearPipeline).sm_enabled = s.sm_enabled := rfl
@[simp] theorem State.clearPipeline_sm_pc : (s.clearPipeline).sm_pc = s.sm_handle := rfl
@[simp] theorem State.clearPipeline_osr : (s.clearPipeline).osr = 0 := rfl
@[simp] theorem State.clearPipeline_osr_count : (s.clearPipeline).osr_count = 0 := rfl
@[simp] theorem State.clearPipeline_isr : (s.clearPipeline).isr = 0 := rfl
@[simp] theorem State.clearPipeline_isr_count : (s.clearPipeline).isr_count = 0 := rfl
@[simp] theorem State.clearPipeline_fifo : (s.clearPipeline).fifo = [] := rfl
@[simp] theorem State.clearPipeline_imem_own : (s.clearPipeline).imem_own = s.imem_own := rfl
@[simp] theorem State.clearPipeline_imem_ext : (s.clearPipeline).imem_ext = s.imem_ext := rfl
@[simp] theorem State.clearPipeline_ch : (s.clearPipeline).ch = s.ch := rfl
@[simp] theorem State.clearPipeline_feeder_active : (s.clearPipeline).feeder_active = s.feeder_active := rfl
@[simp] theorem State.clearPipeline_feeder_ch : (s.clearPipeline).feeder_ch = s.feeder_ch := rfl
@[simp] theorem State.clearPipeline_ext_claim : (s.clearPipeline).ext_claim = s.ext_claim := rfl
@[simp] theorem State.clearPipeline_err : (s.clearPipeline).err = s.err := rfl
@[simp] theorem State.clearPipeline_errcode : (s.clearPipeline).errcode = s.errcode := rfl
@[simp] theorem State.clearPipeline_err_op : (s.clearPipeline).err_op = s.err_op := rfl
@[simp] theorem State.clearPipeline_err_async : (s.clearPipeline).err_async = s.err_async := rfl
@[simp] theorem State.clearPipeline_fatal : (s.clearPipeline).fatal = s.fatal := rfl
@[simp] theorem State.clearPipeline_fatal_cause : (s.clearPipeline).fatal_cause = s.fatal_cause := rfl
@[simp] theorem State.clearPipeline_res_handle : (s.clearPipeline).res_handle = s.res_handle := rfl
@[simp] theorem State.clearPipeline_res_ch : (s.clearPipeline).res_ch = s.res_ch := rfl
@[simp] theorem State.clearPipeline_dma_src : (s.clearPipeline).dma_src = s.dma_src := rfl
@[simp] theorem State.clearPipeline_dma_count : (s.clearPipeline).dma_count = s.dma_count := rfl

/-! ### `writeData` -/

@[simp] theorem State.writeData_cfg (v : Byte) : (s.writeData v).cfg = s.cfg := rfl
@[simp] theorem State.writeData_mem (v : Byte) : (s.writeData v).mem = s.mem := rfl
@[simp] theorem State.writeData_sched (v : Byte) : (s.writeData v).sched = s.sched := rfl
@[simp] theorem State.writeData_host (v : Byte) : (s.writeData v).host = s.host := rfl
@[simp] theorem State.writeData_host_wait (v : Byte) : (s.writeData v).host_wait = s.host_wait := rfl
@[simp] theorem State.writeData_host_rdata (v : Byte) : (s.writeData v).host_rdata = s.host_rdata := rfl
@[simp] theorem State.writeData_ext_rst (v : Byte) : (s.writeData v).ext_rst = s.ext_rst := rfl
@[simp] theorem State.writeData_strobe0_in (v : Byte) : (s.writeData v).strobe0_in = s.strobe0_in := rfl
@[simp] theorem State.writeData_strobe1_in (v : Byte) : (s.writeData v).strobe1_in = s.strobe1_in := rfl
@[simp] theorem State.writeData_now (v : Byte) : (s.writeData v).now = s.now := rfl
@[simp] theorem State.writeData_rm_phase (v : Byte) : (s.writeData v).rm_phase = s.rm_phase := rfl
@[simp] theorem State.writeData_rm_lastFall (v : Byte) : (s.writeData v).rm_lastFall = s.rm_lastFall := rfl
@[simp] theorem State.writeData_rm_pending (v : Byte) : (s.writeData v).rm_pending = s.rm_pending := rfl
@[simp] theorem State.writeData_rm_armed (v : Byte) : (s.writeData v).rm_armed = s.rm_armed := rfl
@[simp] theorem State.writeData_rst_drive (v : Byte) : (s.writeData v).rst_drive = s.rst_drive := rfl
@[simp] theorem State.writeData_pins_configured (v : Byte) : (s.writeData v).pins_configured = s.pins_configured := rfl
@[simp] theorem State.writeData_data_out (v : Byte) : (s.writeData v).data_out = v := rfl
@[simp] theorem State.writeData_data_oe (v : Byte) : (s.writeData v).data_oe = s.data_oe := rfl
@[simp] theorem State.writeData_sideset_out (v : Byte) : (s.writeData v).sideset_out = s.sideset_out := rfl
@[simp] theorem State.writeData_side_owner (v : Byte) : (s.writeData v).side_owner = s.side_owner &&& ~~~s.cfg.sharedSide := rfl
@[simp] theorem State.writeData_sm_loaded (v : Byte) : (s.writeData v).sm_loaded = s.sm_loaded := rfl
@[simp] theorem State.writeData_sm_handle (v : Byte) : (s.writeData v).sm_handle = s.sm_handle := rfl
@[simp] theorem State.writeData_sm_configured (v : Byte) : (s.writeData v).sm_configured = s.sm_configured := rfl
@[simp] theorem State.writeData_sm_enabled (v : Byte) : (s.writeData v).sm_enabled = s.sm_enabled := rfl
@[simp] theorem State.writeData_sm_pc (v : Byte) : (s.writeData v).sm_pc = s.sm_pc := rfl
@[simp] theorem State.writeData_osr (v : Byte) : (s.writeData v).osr = s.osr := rfl
@[simp] theorem State.writeData_osr_count (v : Byte) : (s.writeData v).osr_count = s.osr_count := rfl
@[simp] theorem State.writeData_isr (v : Byte) : (s.writeData v).isr = s.isr := rfl
@[simp] theorem State.writeData_isr_count (v : Byte) : (s.writeData v).isr_count = s.isr_count := rfl
@[simp] theorem State.writeData_fifo (v : Byte) : (s.writeData v).fifo = s.fifo := rfl
@[simp] theorem State.writeData_imem_own (v : Byte) : (s.writeData v).imem_own = s.imem_own := rfl
@[simp] theorem State.writeData_imem_ext (v : Byte) : (s.writeData v).imem_ext = s.imem_ext := rfl
@[simp] theorem State.writeData_ch (v : Byte) : (s.writeData v).ch = s.ch := rfl
@[simp] theorem State.writeData_feeder_active (v : Byte) : (s.writeData v).feeder_active = s.feeder_active := rfl
@[simp] theorem State.writeData_feeder_ch (v : Byte) : (s.writeData v).feeder_ch = s.feeder_ch := rfl
@[simp] theorem State.writeData_ext_claim (v : Byte) : (s.writeData v).ext_claim = s.ext_claim := rfl
@[simp] theorem State.writeData_err (v : Byte) : (s.writeData v).err = s.err := rfl
@[simp] theorem State.writeData_errcode (v : Byte) : (s.writeData v).errcode = s.errcode := rfl
@[simp] theorem State.writeData_err_op (v : Byte) : (s.writeData v).err_op = s.err_op := rfl
@[simp] theorem State.writeData_err_async (v : Byte) : (s.writeData v).err_async = s.err_async := rfl
@[simp] theorem State.writeData_fatal (v : Byte) : (s.writeData v).fatal = s.fatal := rfl
@[simp] theorem State.writeData_fatal_cause (v : Byte) : (s.writeData v).fatal_cause = s.fatal_cause := rfl
@[simp] theorem State.writeData_res_handle (v : Byte) : (s.writeData v).res_handle = s.res_handle := rfl
@[simp] theorem State.writeData_res_ch (v : Byte) : (s.writeData v).res_ch = s.res_ch := rfl
@[simp] theorem State.writeData_dma_src (v : Byte) : (s.writeData v).dma_src = s.dma_src := rfl
@[simp] theorem State.writeData_dma_count (v : Byte) : (s.writeData v).dma_count = s.dma_count := rfl

/-! ### `writeSide` -/

@[simp] theorem State.writeSide_cfg (v : BitVec 3) : (s.writeSide v).cfg = s.cfg := rfl
@[simp] theorem State.writeSide_mem (v : BitVec 3) : (s.writeSide v).mem = s.mem := rfl
@[simp] theorem State.writeSide_sched (v : BitVec 3) : (s.writeSide v).sched = s.sched := rfl
@[simp] theorem State.writeSide_host (v : BitVec 3) : (s.writeSide v).host = s.host := rfl
@[simp] theorem State.writeSide_host_wait (v : BitVec 3) : (s.writeSide v).host_wait = s.host_wait := rfl
@[simp] theorem State.writeSide_host_rdata (v : BitVec 3) : (s.writeSide v).host_rdata = s.host_rdata := rfl
@[simp] theorem State.writeSide_ext_rst (v : BitVec 3) : (s.writeSide v).ext_rst = s.ext_rst := rfl
@[simp] theorem State.writeSide_strobe0_in (v : BitVec 3) : (s.writeSide v).strobe0_in = s.strobe0_in := rfl
@[simp] theorem State.writeSide_strobe1_in (v : BitVec 3) : (s.writeSide v).strobe1_in = s.strobe1_in := rfl
@[simp] theorem State.writeSide_now (v : BitVec 3) : (s.writeSide v).now = s.now := rfl
@[simp] theorem State.writeSide_rm_phase (v : BitVec 3) : (s.writeSide v).rm_phase = s.rm_phase := rfl
@[simp] theorem State.writeSide_rm_lastFall (v : BitVec 3) : (s.writeSide v).rm_lastFall = s.rm_lastFall := rfl
@[simp] theorem State.writeSide_rm_pending (v : BitVec 3) : (s.writeSide v).rm_pending = s.rm_pending := rfl
@[simp] theorem State.writeSide_rm_armed (v : BitVec 3) : (s.writeSide v).rm_armed = s.rm_armed := rfl
@[simp] theorem State.writeSide_rst_drive (v : BitVec 3) : (s.writeSide v).rst_drive = s.rst_drive := rfl
@[simp] theorem State.writeSide_pins_configured (v : BitVec 3) : (s.writeSide v).pins_configured = s.pins_configured := rfl
@[simp] theorem State.writeSide_data_out (v : BitVec 3) : (s.writeSide v).data_out = s.data_out := rfl
@[simp] theorem State.writeSide_data_oe (v : BitVec 3) : (s.writeSide v).data_oe = s.data_oe := rfl
@[simp] theorem State.writeSide_sideset_out (v : BitVec 3) : (s.writeSide v).sideset_out = v := rfl
@[simp] theorem State.writeSide_side_owner (v : BitVec 3) : (s.writeSide v).side_owner = 0b111 := rfl
@[simp] theorem State.writeSide_sm_loaded (v : BitVec 3) : (s.writeSide v).sm_loaded = s.sm_loaded := rfl
@[simp] theorem State.writeSide_sm_handle (v : BitVec 3) : (s.writeSide v).sm_handle = s.sm_handle := rfl
@[simp] theorem State.writeSide_sm_configured (v : BitVec 3) : (s.writeSide v).sm_configured = s.sm_configured := rfl
@[simp] theorem State.writeSide_sm_enabled (v : BitVec 3) : (s.writeSide v).sm_enabled = s.sm_enabled := rfl
@[simp] theorem State.writeSide_sm_pc (v : BitVec 3) : (s.writeSide v).sm_pc = s.sm_pc := rfl
@[simp] theorem State.writeSide_osr (v : BitVec 3) : (s.writeSide v).osr = s.osr := rfl
@[simp] theorem State.writeSide_osr_count (v : BitVec 3) : (s.writeSide v).osr_count = s.osr_count := rfl
@[simp] theorem State.writeSide_isr (v : BitVec 3) : (s.writeSide v).isr = s.isr := rfl
@[simp] theorem State.writeSide_isr_count (v : BitVec 3) : (s.writeSide v).isr_count = s.isr_count := rfl
@[simp] theorem State.writeSide_fifo (v : BitVec 3) : (s.writeSide v).fifo = s.fifo := rfl
@[simp] theorem State.writeSide_imem_own (v : BitVec 3) : (s.writeSide v).imem_own = s.imem_own := rfl
@[simp] theorem State.writeSide_imem_ext (v : BitVec 3) : (s.writeSide v).imem_ext = s.imem_ext := rfl
@[simp] theorem State.writeSide_ch (v : BitVec 3) : (s.writeSide v).ch = s.ch := rfl
@[simp] theorem State.writeSide_feeder_active (v : BitVec 3) : (s.writeSide v).feeder_active = s.feeder_active := rfl
@[simp] theorem State.writeSide_feeder_ch (v : BitVec 3) : (s.writeSide v).feeder_ch = s.feeder_ch := rfl
@[simp] theorem State.writeSide_ext_claim (v : BitVec 3) : (s.writeSide v).ext_claim = s.ext_claim := rfl
@[simp] theorem State.writeSide_err (v : BitVec 3) : (s.writeSide v).err = s.err := rfl
@[simp] theorem State.writeSide_errcode (v : BitVec 3) : (s.writeSide v).errcode = s.errcode := rfl
@[simp] theorem State.writeSide_err_op (v : BitVec 3) : (s.writeSide v).err_op = s.err_op := rfl
@[simp] theorem State.writeSide_err_async (v : BitVec 3) : (s.writeSide v).err_async = s.err_async := rfl
@[simp] theorem State.writeSide_fatal (v : BitVec 3) : (s.writeSide v).fatal = s.fatal := rfl
@[simp] theorem State.writeSide_fatal_cause (v : BitVec 3) : (s.writeSide v).fatal_cause = s.fatal_cause := rfl
@[simp] theorem State.writeSide_res_handle (v : BitVec 3) : (s.writeSide v).res_handle = s.res_handle := rfl
@[simp] theorem State.writeSide_res_ch (v : BitVec 3) : (s.writeSide v).res_ch = s.res_ch := rfl
@[simp] theorem State.writeSide_dma_src (v : BitVec 3) : (s.writeSide v).dma_src = s.dma_src := rfl
@[simp] theorem State.writeSide_dma_count (v : BitVec 3) : (s.writeSide v).dma_count = s.dma_count := rfl

/-! ### `blockReset` -/

@[simp] theorem State.blockReset_cfg : s.blockReset.cfg = s.cfg := rfl
@[simp] theorem State.blockReset_mem : s.blockReset.mem = s.mem := rfl
@[simp] theorem State.blockReset_sched : s.blockReset.sched = s.sched := rfl
@[simp] theorem State.blockReset_host : s.blockReset.host = s.host := rfl
@[simp] theorem State.blockReset_host_wait : s.blockReset.host_wait = s.host_wait := rfl
@[simp] theorem State.blockReset_host_rdata : s.blockReset.host_rdata = s.host_rdata := rfl
@[simp] theorem State.blockReset_ext_rst : s.blockReset.ext_rst = s.ext_rst := rfl
@[simp] theorem State.blockReset_strobe0_in : s.blockReset.strobe0_in = s.strobe0_in := rfl
@[simp] theorem State.blockReset_strobe1_in : s.blockReset.strobe1_in = s.strobe1_in := rfl
@[simp] theorem State.blockReset_now : s.blockReset.now = (State.initial s.cfg).now := rfl
@[simp] theorem State.blockReset_rm_phase : s.blockReset.rm_phase = (State.initial s.cfg).rm_phase := rfl
@[simp] theorem State.blockReset_rm_lastFall : s.blockReset.rm_lastFall = (State.initial s.cfg).rm_lastFall := rfl
@[simp] theorem State.blockReset_rm_pending : s.blockReset.rm_pending = (State.initial s.cfg).rm_pending := rfl
@[simp] theorem State.blockReset_rm_armed : s.blockReset.rm_armed = (State.initial s.cfg).rm_armed := rfl
@[simp] theorem State.blockReset_rst_drive : s.blockReset.rst_drive = (State.initial s.cfg).rst_drive := rfl
@[simp] theorem State.blockReset_pins_configured : s.blockReset.pins_configured = (State.initial s.cfg).pins_configured := rfl
@[simp] theorem State.blockReset_data_out : s.blockReset.data_out = (State.initial s.cfg).data_out := rfl
@[simp] theorem State.blockReset_data_oe : s.blockReset.data_oe = (State.initial s.cfg).data_oe := rfl
@[simp] theorem State.blockReset_sideset_out : s.blockReset.sideset_out = (State.initial s.cfg).sideset_out := rfl
@[simp] theorem State.blockReset_side_owner : s.blockReset.side_owner = (State.initial s.cfg).side_owner := rfl
@[simp] theorem State.blockReset_sm_loaded : s.blockReset.sm_loaded = (State.initial s.cfg).sm_loaded := rfl
@[simp] theorem State.blockReset_sm_handle : s.blockReset.sm_handle = (State.initial s.cfg).sm_handle := rfl
@[simp] theorem State.blockReset_sm_configured : s.blockReset.sm_configured = (State.initial s.cfg).sm_configured := rfl
@[simp] theorem State.blockReset_sm_enabled : s.blockReset.sm_enabled = (State.initial s.cfg).sm_enabled := rfl
@[simp] theorem State.blockReset_sm_pc : s.blockReset.sm_pc = (State.initial s.cfg).sm_pc := rfl
@[simp] theorem State.blockReset_osr : s.blockReset.osr = (State.initial s.cfg).osr := rfl
@[simp] theorem State.blockReset_osr_count : s.blockReset.osr_count = (State.initial s.cfg).osr_count := rfl
@[simp] theorem State.blockReset_isr : s.blockReset.isr = (State.initial s.cfg).isr := rfl
@[simp] theorem State.blockReset_isr_count : s.blockReset.isr_count = (State.initial s.cfg).isr_count := rfl
@[simp] theorem State.blockReset_fifo : s.blockReset.fifo = (State.initial s.cfg).fifo := rfl
@[simp] theorem State.blockReset_imem_own : s.blockReset.imem_own = (State.initial s.cfg).imem_own := rfl
@[simp] theorem State.blockReset_imem_ext : s.blockReset.imem_ext = (State.initial s.cfg).imem_ext := rfl
@[simp] theorem State.blockReset_ch : s.blockReset.ch = (State.initial s.cfg).ch := rfl
@[simp] theorem State.blockReset_feeder_active : s.blockReset.feeder_active = (State.initial s.cfg).feeder_active := rfl
@[simp] theorem State.blockReset_feeder_ch : s.blockReset.feeder_ch = (State.initial s.cfg).feeder_ch := rfl
@[simp] theorem State.blockReset_ext_claim : s.blockReset.ext_claim = (State.initial s.cfg).ext_claim := rfl
@[simp] theorem State.blockReset_err : s.blockReset.err = (State.initial s.cfg).err := rfl
@[simp] theorem State.blockReset_errcode : s.blockReset.errcode = (State.initial s.cfg).errcode := rfl
@[simp] theorem State.blockReset_err_op : s.blockReset.err_op = (State.initial s.cfg).err_op := rfl
@[simp] theorem State.blockReset_err_async : s.blockReset.err_async = (State.initial s.cfg).err_async := rfl
@[simp] theorem State.blockReset_fatal : s.blockReset.fatal = (State.initial s.cfg).fatal := rfl
@[simp] theorem State.blockReset_fatal_cause : s.blockReset.fatal_cause = (State.initial s.cfg).fatal_cause := rfl
@[simp] theorem State.blockReset_res_handle : s.blockReset.res_handle = (State.initial s.cfg).res_handle := rfl
@[simp] theorem State.blockReset_res_ch : s.blockReset.res_ch = (State.initial s.cfg).res_ch := rfl
@[simp] theorem State.blockReset_dma_src : s.blockReset.dma_src = (State.initial s.cfg).dma_src := rfl
@[simp] theorem State.blockReset_dma_count : s.blockReset.dma_count = (State.initial s.cfg).dma_count := rfl

end Sys2Proof.Machine
end

