-- ==== Sys2Proof/Laws/Ops.lean ====
section
/-! SUPPORT. What the shared operations can do, said once each: the channel registers, the pull, the fatal check, the
monitor's edge rules, the DMA's turn. -/

namespace Sys2Proof.Machine

/-! ### Channels -/

/-- The channel written reads back, every other channel is as before. -/
theorem chan_setChan (s : State) (c k : Nat) (x : Channel) :
    (s.setChan c x).chan k = if k = c ∧ c < s.ch.length then x else s.chan k := by
  simp only [State.chan, State.setChan, List.getD_eq_getElem?_getD, List.getElem?_set]
  by_cases h : c = k
  · subst h; by_cases hc : c < s.ch.length <;> simp [hc]
  · simp [h, Ne.symm h]

theorem chan_setChan_self {s : State} {c : Nat} (h : c < s.ch.length) (x : Channel) :
    (s.setChan c x).chan c = x := by simp [chan_setChan, h]

theorem chan_setChan_of_ne {s : State} {c k : Nat} (h : k ≠ c) (x : Channel) :
    (s.setChan c x).chan k = s.chan k := by simp [chan_setChan, h]

theorem setChan_length (s : State) (c : Nat) (x : Channel) : (s.setChan c x).ch.length = s.ch.length := by
  simp [State.setChan]

/-- `chan` reads only the channel registers. -/
theorem chan_congr {s t : State} (h : t.ch = s.ch) (c : Nat) : t.chan c = s.chan c := by simp [State.chan, h]

/-! ### FIFO -/

theorem pull_nil {s : State} (h : s.fifo = []) : s.pull = s := by simp [State.pull, h]

theorem pull_cons {s : State} {b : Byte} {rest : List Byte} (h : s.fifo = b :: rest) :
    s.pull = { s with fifo := rest, osr := b, osr_count := 8 } := by simp [State.pull, h]

/-! ### The fatal check -/

theorem unlessFatal_of_fatal {s : State} (h : s.fatal = true) (r : Result) : unlessFatal s r = .next s := by
  simp [unlessFatal, h]

theorem unlessFatal_of_not {s : State} (h : s.fatal = false) (r : Result) : unlessFatal s r = r := by
  simp [unlessFatal, h]

/-! ### The monitor -/

/-- Everything the edge rules can do: nothing, record a fall, accept a pulse, discard a glitch. -/
theorem lineChanged_cases (s : State) (old : Bool) :
    s.lineChanged old = s
      ∨ (old = true ∧ s.rstLine = false ∧ s.rm_armed = true ∧ s.rm_phase = .armedForFall
          ∧ s.lineChanged old = { s with rm_lastFall := s.now, rm_phase := .armedForRise })
      ∨ (old = false ∧ s.rstLine = true ∧ s.rm_armed = true ∧ s.rm_phase = .armedForRise ∧ tDebounce ≤ s.elapsed
          ∧ s.lineChanged old = s.accept)
      ∨ (old = false ∧ s.rstLine = true ∧ s.rm_armed = true ∧ s.rm_phase = .armedForRise ∧ ¬ tDebounce ≤ s.elapsed
          ∧ s.lineChanged old = s.glitch) := by
  unfold State.lineChanged
  split
  · next h =>
    unfold State.fall
    split
    · next hc => simp only [Bool.and_eq_true, decide_eq_true_eq] at hc; exact .inr (.inl ⟨rfl, h, hc.1, hc.2, rfl⟩)
    · exact .inl rfl
  · next h =>
    unfold State.rise
    split
    · next hc =>
      simp only [Bool.and_eq_true, decide_eq_true_eq] at hc
      split
      · next ht => exact .inr (.inr (.inl ⟨rfl, h, hc.1, hc.2, ht, rfl⟩))
      · next ht => exact .inr (.inr (.inr ⟨rfl, h, hc.1, hc.2, ht, rfl⟩))
    · exact .inl rfl
  · exact .inl rfl
  · exact .inl rfl

/-- A falling edge that an armed monitor in ArmedForFall sees. -/
theorem lineChanged_fall {s : State} (hl : s.rstLine = false) (ha : s.rm_armed = true)
    (hp : s.rm_phase = .armedForFall) :
    s.lineChanged true = { s with rm_lastFall := s.now, rm_phase := .armedForRise } := by
  simp [State.lineChanged, hl, State.fall, ha, hp]

/-- A rising edge that an armed monitor in ArmedForRise sees. -/
theorem lineChanged_rise {s : State} (hl : s.rstLine = true) (ha : s.rm_armed = true)
    (hp : s.rm_phase = .armedForRise) :
    s.lineChanged false = if tDebounce ≤ s.elapsed then s.accept else s.glitch := by
  simp [State.lineChanged, hl, State.rise, ha, hp]

/-- A disarmed monitor ignores every edge (43_reset_monitor R244). -/
theorem lineChanged_disarmed {s : State} (ha : s.rm_armed = false) (old : Bool) : s.lineChanged old = s := by
  rcases lineChanged_cases s old with h | ⟨_, _, h, _⟩ | ⟨_, _, h, _⟩ | ⟨_, _, h, _⟩
  · exact h
  all_goals rw [ha] at h; cases h

/-- A time a tick later still has TS_WIDTH bits (10_state R22). -/
theorem timeAdd_lt (c : Config) (a b : Nat) : c.timeAdd a b < 2 ^ c.tsWidth := Nat.mod_lt _ (Nat.two_pow_pos _)

/-- Adding in two parts is adding the sum. -/
theorem timeAdd_timeAdd (c : Config) (a m n : Nat) : c.timeAdd (c.timeAdd a m) n = c.timeAdd a (m + n) := by
  simp [Config.timeAdd, Nat.add_assoc]

/-- `d` ticks after `a`, wherever the timebase wraps, `d` ticks have elapsed (43_reset_monitor R257). -/
theorem timeSub_timeAdd {c : Config} {a d : Nat} (h : d < 2 ^ c.tsWidth) : c.timeSub (c.timeAdd a d) a = d := by
  have hd : ((d : Int) % ((2 ^ c.tsWidth : Nat) : Int)) = d :=
    Int.emod_eq_of_lt (Int.natCast_nonneg d) (Int.ofNat_lt.2 h)
  unfold Config.timeSub Config.timeAdd
  rw [Int.natCast_emod, Int.emod_sub_emod, Int.natCast_add, Int.add_comm, Int.add_sub_cancel, hd, Int.toNat_natCast]

/-- With TS_WIDTH = 64 the subtraction is the 64-bit one of 43_reset_monitor R248. -/
theorem timeSub_eq_bitVec {c : Config} (h : c.tsWidth = 64) (a b : Nat) :
    c.timeSub a b = (BitVec.ofNat 64 a - BitVec.ofNat 64 b).toNat := by
  unfold Config.timeSub
  rw [h, BitVec.toNat_sub, BitVec.toNat_ofNat, BitVec.toNat_ofNat]
  omega

/-- No change of level, no edge (43_reset_monitor R243). -/
theorem lineChanged_same (s : State) : s.lineChanged s.rstLine = s := by
  unfold State.lineChanged; split <;> simp_all

/-! ### The DMA -/

/-- Everything the DMA's turn can do: nothing, a read fault, a transfer. -/
theorem dmaStep_cases (s : State) :
    (s.dmaReady = false ∧ dmaStep s = s)
      ∨ (s.dmaReady = true ∧ s.mem.read (s.chan s.feederIndex).read_addr.toNat = none
          ∧ dmaStep s = s.dmaReadFault s.feederIndex)
      ∨ (∃ b, s.dmaReady = true ∧ s.mem.read (s.chan s.feederIndex).read_addr.toNat = some b
          ∧ dmaStep s = s.dmaTransfer s.feederIndex b) := by
  unfold dmaStep
  split
  · next h =>
    split
    · next hm => exact .inr (.inl ⟨h, hm, rfl⟩)
    · next b hm => exact .inr (.inr ⟨b, h, hm, rfl⟩)
  · next h => exact .inl ⟨by simpa using h, rfl⟩

theorem dmaReady_iff (s : State) :
    s.dmaReady = true ↔ s.feeder_active = true ∧ (s.chan s.feederIndex).busy = true
      ∧ s.fifo.length < s.cfg.fifoDepth := by
  simp only [State.dmaReady, State.dreq, State.fifoLevel, Bool.and_eq_true, decide_eq_true_eq, and_assoc]

/-- A read fault, field by field (42_dma_feeder R209). -/
theorem dmaReadFault_eq (s : State) (c : Nat) :
    s.dmaReadFault c =
      { s with ch := s.ch.set c { s.chan c with busy := false },
               err := true, errcode := 0x0A, err_op := 0x00, err_async := true } := rfl

/-- A transfer, field by field (42_dma_feeder R208). -/
theorem dmaTransfer_eq (s : State) (c : Nat) (b : Byte) :
    s.dmaTransfer c b = { s with fifo := s.fifo ++ [b], ch := s.ch.set c (s.chan c).advance } := rfl

/-! ### The parameters -/

/-- The bounds that a well-formed configuration gives (00_scope R6). -/
theorem config_bounds {c : Config} (h : c.wf = true) :
    1 ≤ c.progLen ∧ c.progLen ≤ c.imemWords ∧ c.imemWords ≤ 32 ∧ 1 ≤ c.fifoDepth ∧ c.fifoDepth ≤ 15
      ∧ 1 ≤ c.numCh ∧ c.numCh ≤ 31 ∧ c.dataBase + 8 ≤ 32 ∧ c.sidesetBase + 3 ≤ 32 ∧ c.strobe0Pin < 32
      ∧ c.strobe1Pin < 32 ∧ c.rstPin < 32 := by
  simp only [Config.wf, Bool.and_eq_true, decide_eq_true_eq, dataLines, sidesetDataBits] at h
  omega

/-- Every word of a well-formed configuration's program obeys the step contract. -/
theorem config_program {c : Config} (h : c.wf = true) : ∀ w ∈ c.program, w.wf c = true := by
  simp only [Config.wf, Bool.and_eq_true] at h
  exact List.all_eq_true.1 h.2

end Sys2Proof.Machine
end

