-- ==== Sys2Proof/Laws/Feeder.lean ====
section
/-! SUPPORT. Which channel DMA_START claims (spec/42_dma_feeder.md R203, R204). -/

namespace Sys2Proof.Machine

/-- A counting range read upwards finds the lowest number that passes. -/
theorem find_range_eq_some {p : Nat → Bool} {n : Nat} : ∀ {c : Nat},
    (List.range n).find? p = some c ↔ p c = true ∧ c < n ∧ ∀ c' < c, p c' = false := by
  induction n with
  | zero => simp
  | succ n ih =>
    intro c
    rw [List.range_succ, List.find?_append, List.find?_cons]
    cases hf : (List.range n).find? p with
    | some d =>
      simp only [Option.some_or, Option.some.injEq]
      rw [hf] at ih
      constructor
      · rintro rfl
        have := ih.1 rfl
        exact ⟨this.1, by omega, this.2.2⟩
      · rintro ⟨h1, h2, h3⟩
        by_cases hc : c < n
        · simpa using ih.2 ⟨h1, hc, h3⟩
        · have hdn : d < n := List.mem_range.1 (List.mem_of_find?_eq_some hf)
          have hpd : p d = true := List.find?_some hf
          rw [h3 d (by omega)] at hpd; cases hpd
    | none =>
      rw [hf] at ih
      have hno : ∀ c' < n, p c' = false := fun c' hc' => by
        have := List.find?_eq_none.1 hf c' (List.mem_range.2 hc')
        simpa using this
      cases hp : p n with
      | true =>
        simp only [Option.none_or, Option.some.injEq]
        constructor
        · rintro rfl; exact ⟨hp, Nat.lt_succ_self _, hno⟩
        · rintro ⟨h1, h2, h3⟩
          by_cases hc : c < n
          · rw [hno c hc] at h1; cases h1
          · omega
      | false =>
        simp only [Option.none_or, List.find?_nil, reduceCtorEq, false_iff]
        rintro ⟨h1, h2, h3⟩
        by_cases hc : c < n
        · rw [hno c hc] at h1; cases h1
        · have : c = n := by omega
          rw [this, hp] at h1; cases h1

/-- DMA_START takes the lowest-numbered unclaimed channel. -/
theorem freeChannel_eq_some {s : State} {c : Nat} :
    s.freeChannel = some c ↔ s.claimed c = false ∧ c < s.cfg.numCh ∧ ∀ c' < c, s.claimed c' = true := by
  unfold State.freeChannel; rw [find_range_eq_some]; simp

/-- DMA_START finds no channel exactly when every channel of the pool is claimed. -/
theorem freeChannel_eq_none {s : State} :
    s.freeChannel = none ↔ ∀ c < s.cfg.numCh, s.claimed c = true := by
  unfold State.freeChannel; rw [List.find?_eq_none]; simp

end Sys2Proof.Machine
end

