-- ==== Sys2Proof/Laws/Streamer.lean ====
section
/-! SUPPORT. What the streamer's operations can do: placement in instruction memory, one part of an effect, a whole
effect, the streamer's turn. -/

namespace Sys2Proof.Machine

/-! ### Placement -/

/-- The bits of a region: the words `o` to `o + len - 1` of instruction memory. -/
theorem getLsbD_region {o len k : Nat} (h : o + len ≤ 32) :
    (region o len).getLsbD k = (decide (o ≤ k) && decide (k < o + len)) := by
  unfold region
  simp only [BitVec.getLsbD_shiftLeft, BitVec.getLsbD_ofNat, Nat.testBit_two_pow_sub_one]
  by_cases h1 : o ≤ k
  · by_cases h2 : k < o + len
    · have : k < 32 := by omega
      have : ¬ k < o := by omega
      have : k - o < 32 := by omega
      have : k - o < len := by omega
      simp [*]
    · have : ¬ (k - o < len) := by omega
      simp [*]
  · have : k < o := by omega
    simp [*]

/-- A region is free exactly when none of its words is in use. -/
theorem regionFree_iff {s : State} {o len : Nat} (h : o + len ≤ 32) :
    s.regionFree len o = true ↔
      ∀ j < len, (s.imem_own.getLsbD (o + j) || s.imem_ext.getLsbD (o + j)) = false := by
  unfold State.regionFree State.imemUsed
  rw [decide_eq_true_eq]
  constructor
  · intro hz j hj
    have := congrArg (fun v : Word => v.getLsbD (o + j)) hz
    simp only [BitVec.getLsbD_and, getLsbD_region h, BitVec.getLsbD_or] at this
    have h1 : o ≤ o + j := by omega
    have h2 : o + j < o + len := by omega
    simpa [h1, h2] using this
  · intro hf
    apply BitVec.eq_of_getLsbD_eq
    intro k _
    simp only [BitVec.getLsbD_and, getLsbD_region h, BitVec.getLsbD_or]
    by_cases hk : o ≤ k ∧ k < o + len
    · have := hf (k - o) (by omega)
      have he : o + (k - o) = k := by omega
      rw [he] at this
      simp [this]
    · have : (decide (o ≤ k) && decide (k < o + len)) = false := by
        rw [Bool.and_eq_false_iff, decide_eq_false_iff_not, decide_eq_false_iff_not]; omega
      simp [this]

/-- A counting range read downwards finds the highest offset that passes. -/
theorem find_reverse_range_eq_some {p : Nat → Bool} {n o : Nat} :
    (List.range n).reverse.find? p = some o ↔ p o = true ∧ o < n ∧ ∀ o', o < o' → o' < n → p o' = false := by
  induction n with
  | zero => simp
  | succ n ih =>
    rw [List.range_succ, List.reverse_append, List.reverse_singleton, List.singleton_append, List.find?_cons]
    cases hp : p n with
    | true =>
      simp only [Option.some.injEq]
      constructor
      · rintro rfl; exact ⟨hp, Nat.lt_succ_self _, fun o' h1 h2 => by omega⟩
      · rintro ⟨h1, h2, h3⟩
        by_cases hn : n = o
        · exact hn
        · have := h3 n (by omega) (Nat.lt_succ_self _); rw [hp] at this; cases this
    | false =>
      simp only [ih]
      constructor
      · rintro ⟨h1, h2, h3⟩
        refine ⟨h1, by omega, fun o' ho hn => ?_⟩
        by_cases he : o' = n
        · rw [he]; exact hp
        · exact h3 o' ho (by omega)
      · rintro ⟨h1, h2, h3⟩
        have : o ≠ n := fun h => by rw [h, hp] at h1; cases h1
        exact ⟨h1, by omega, fun o' ho hn => h3 o' ho (by omega)⟩

/-- What SM_LOAD's loop finds: the highest offset with room for the program whose region is free. -/
theorem placement_eq_some {s : State} {o : Nat} :
    s.placement = some o ↔
      o + s.cfg.progLen ≤ s.cfg.imemWords ∧ s.regionFree s.cfg.progLen o = true
        ∧ ∀ o', o < o' → o' + s.cfg.progLen ≤ s.cfg.imemWords → s.regionFree s.cfg.progLen o' = false := by
  unfold State.placement
  split
  · next h =>
    rw [find_reverse_range_eq_some]
    constructor
    · rintro ⟨h1, h2, h3⟩; exact ⟨by omega, h1, fun o' ho hn => h3 o' ho (by omega)⟩
    · rintro ⟨h1, h2, h3⟩; exact ⟨h2, by omega, fun o' ho hn => h3 o' ho (by omega)⟩
  · next h => simp only [reduceCtorEq, false_iff]; rintro ⟨h1, _⟩; omega

/-- When SM_LOAD's loop finds nothing: no offset with room for the program is free. -/
theorem placement_eq_none {s : State} :
    s.placement = none ↔
      ∀ o, o + s.cfg.progLen ≤ s.cfg.imemWords → s.regionFree s.cfg.progLen o = false := by
  unfold State.placement
  split
  · next h =>
    rw [List.find?_eq_none]
    simp only [List.mem_reverse, List.mem_range, Bool.not_eq_true]
    exact ⟨fun h1 o ho => h1 o (by omega), fun h1 o ho => h1 o (by omega)⟩
  · next h => exact ⟨fun _ o ho => by omega, fun _ => rfl⟩

/-! ### Effects -/

/-- One part of an effect writes the datapath and the streamer's pins only (41_streamer R178). -/
theorem act_frame (v : BusView) (s : State) (a : BusAction) :
    s.act v a = { s with
      data_out := (s.act v a).data_out, sideset_out := (s.act v a).sideset_out,
      side_owner := (s.act v a).side_owner, osr := (s.act v a).osr, osr_count := (s.act v a).osr_count,
      isr := (s.act v a).isr, isr_count := (s.act v a).isr_count, fifo := (s.act v a).fifo } := by
  cases a <;> first
    | rfl
    | (simp only [State.act]; unfold State.pull; split <;> rfl)

/-- The bits of the shared side-set pins (41_streamer R164). -/
theorem getLsbD_sharedSide (c : Config) {i : Nat} (h : i < 3) :
    c.sharedSide.getLsbD i = c.isData (c.sidesetBase + i) := by
  have h : i = 0 ∨ i = 1 ∨ i = 2 := by omega
  unfold Config.sharedSide
  rcases h with rfl | rfl | rfl <;> cases c.isData (c.sidesetBase + 2) <;> cases c.isData (c.sidesetBase + 1) <;>
    cases c.isData (c.sidesetBase + 0) <;> rfl

/-- Only a pull touches the FIFO, and it takes the head (41_streamer R177). -/
theorem act_fifo (v : BusView) (s : State) (a : BusAction) :
    (s.act v a).fifo = if a.isPull then s.fifo.tail else s.fifo := by
  cases a <;> first
    | rfl
    | (simp only [State.act, BusAction.isPull]; unfold State.pull; split <;> simp_all)

/-- Only a `WriteSide` touches the side-set outputs, and only to set them (41_streamer R164, R165). -/
theorem act_side (v : BusView) (s : State) (a : BusAction) (h : a.isSide = false) :
    (s.act v a).sideset_out = s.sideset_out
      ∧ ((s.act v a).side_owner = s.side_owner ∨ (s.act v a).side_owner = s.side_owner &&& ~~~s.cfg.sharedSide) := by
  cases a <;> first
    | exact ⟨rfl, .inl rfl⟩
    | exact ⟨rfl, .inr rfl⟩
    | (simp only [State.act]; unfold State.pull; split <;> exact ⟨rfl, .inl rfl⟩)
    | cases h

/-- The parts of an effect write the datapath and the streamer's pins only. -/
theorem acts_frame (v : BusView) : ∀ (l : List BusAction) (s : State),
    l.foldl (State.act v) s = { s with
      data_out := (l.foldl (State.act v) s).data_out, sideset_out := (l.foldl (State.act v) s).sideset_out,
      side_owner := (l.foldl (State.act v) s).side_owner, osr := (l.foldl (State.act v) s).osr,
      osr_count := (l.foldl (State.act v) s).osr_count, isr := (l.foldl (State.act v) s).isr,
      isr_count := (l.foldl (State.act v) s).isr_count, fifo := (l.foldl (State.act v) s).fifo }
  | [], _ => rfl
  | a :: l, s => by
    rw [List.foldl_cons, acts_frame v l (s.act v a), act_frame v s a]

/-- The parts of an effect take as many bytes from the FIFO as they pull. -/
theorem acts_fifo (v : BusView) : ∀ (l : List BusAction) (s : State),
    (l.foldl (State.act v) s).fifo = s.fifo.drop (l.countP BusAction.isPull)
  | [], _ => by simp
  | a :: l, s => by
    rw [List.foldl_cons, acts_fifo v l, act_fifo, List.countP_cons]
    cases ha : a.isPull
    · simp
    · simp

/-- An effect with no `WriteSide` keeps the side-set outputs. -/
theorem acts_sideset_out (v : BusView) : ∀ (l : List BusAction) (s : State), l.any BusAction.isSide = false →
    (l.foldl (State.act v) s).sideset_out = s.sideset_out
  | [], _, _ => rfl
  | a :: l, s, h => by
    simp only [List.any_cons, Bool.or_eq_false_iff] at h
    rw [List.foldl_cons, acts_sideset_out v l _ h.2, (act_side v s a h.1).1]

/-- An effect with no `WriteSide` never gives a pin to side-set. -/
theorem acts_side_owner_zero (v : BusView) : ∀ (l : List BusAction) (s : State), l.any BusAction.isSide = false →
    s.side_owner = 0 → (l.foldl (State.act v) s).side_owner = 0
  | [], _, _, h => h
  | a :: l, s, h, hz => by
    simp only [List.any_cons, Bool.or_eq_false_iff] at h
    refine acts_side_owner_zero v l _ h.2 ?_
    rcases (act_side v s a h.1).2 with h' | h' <;> simp [h', hz]

/-- An effect writes the datapath, the streamer's pins and `sm_pc` only (41_streamer R176, R178). -/
theorem applyEffect_frame (s : State) (e : BusEffect) :
    s.applyEffect e = { s with
      data_out := (s.applyEffect e).data_out, sideset_out := (s.applyEffect e).sideset_out,
      side_owner := (s.applyEffect e).side_owner, osr := (s.applyEffect e).osr,
      osr_count := (s.applyEffect e).osr_count, isr := (s.applyEffect e).isr,
      isr_count := (s.applyEffect e).isr_count, fifo := (s.applyEffect e).fifo,
      sm_pc := s.sm_handle + BitVec.ofNat 5 e.next } := by
  unfold State.applyEffect; rw [acts_frame s.busView e.acts s]

theorem applyEffect_fifo (s : State) (e : BusEffect) :
    (s.applyEffect e).fifo = s.fifo.drop (e.acts.countP BusAction.isPull) := acts_fifo s.busView e.acts s

/-- What a well-formed effect meets (41_streamer R165, R176 to R178). -/
theorem effect_wf_iff {c : Config} {e : BusEffect} :
    e.wf c = true ↔ e.next < c.progLen ∧ e.acts.countP BusAction.isPull ≤ 1 ∧ e.acts.countP BusAction.isData ≤ 1
      ∧ e.acts.countP BusAction.isSide ≤ 1 ∧ (c.sidesetEn = true ∨ e.acts.any BusAction.isSide = false) := by
  simp only [BusEffect.wf, Bool.and_eq_true, decide_eq_true_eq, Bool.or_eq_true, Bool.not_eq_true', and_assoc]

/-- Every effect a well-formed word has obeys the contract. -/
theorem eval_wf {c : Config} {v : BusView} {e : BusEffect} : ∀ {w : BusTree}, w.wf c = true → w.eval v = some e →
    e.wf c = true
  | .stall, _, h => by cases h
  | .effect e', hw, h => by cases h; exact hw
  | .ask t yes no, hw, h => by
    simp only [BusTree.wf, Bool.and_eq_true] at hw
    simp only [BusTree.eval] at h
    split at h
    · exact eval_wf hw.1 h
    · exact eval_wf hw.2 h

/-- Everything the streamer's turn can do. -/
theorem streamerStep_cases (s : State) :
    (s.sm_enabled = false ∧ streamerStep s = .next s)
      ∨ (s.sm_enabled = true ∧ s.cfg.program[s.progOffset]? = none ∧ streamerStep s = .fault .pcOutsideProgram)
      ∨ (∃ w, s.sm_enabled = true ∧ s.cfg.program[s.progOffset]? = some w
          ∧ ((w.eval s.busView = none ∧ streamerStep s = .next s)
            ∨ (∃ e, w.eval s.busView = some e
                ∧ ((e.wf s.cfg = false ∧ streamerStep s = .fault .busProgramBroken)
                  ∨ (e.wf s.cfg = true ∧ s.pullWaits e = true ∧ streamerStep s = .next s)
                  ∨ (e.wf s.cfg = true ∧ s.pullWaits e = false ∧ streamerStep s = .next (s.applyEffect e)))))) := by
  unfold streamerStep
  cases hE : s.sm_enabled
  · exact .inl ⟨rfl, by simp⟩
  · refine .inr ?_
    cases hP : s.cfg.program[s.progOffset]? with
    | none => exact .inl ⟨rfl, rfl, by simp⟩
    | some w =>
      refine .inr ⟨w, rfl, rfl, ?_⟩
      cases hV : w.eval s.busView with
      | none => exact .inl ⟨rfl, by simp [hV]⟩
      | some e =>
        refine .inr ⟨e, rfl, ?_⟩
        cases hW : e.wf s.cfg
        · exact .inl ⟨rfl, by simp [hV, hW]⟩
        · cases hq : s.pullWaits e
          · exact .inr (.inr ⟨rfl, rfl, by simp [hV, hW, hq]⟩)
          · exact .inr (.inl ⟨rfl, rfl, by simp [hV, hW, hq]⟩)

end Sys2Proof.Machine
end

