-- ==== Sys2Proof/Laws/Agents.lean ====
section
/-! SUPPORT. What a step is: the turn at the head of the schedule, and, for the host's turn, the line at the head of
its program. -/

namespace Sys2Proof.Machine

/-! ### Steps and turns -/

theorem step_idle {s : State} (h : s.sched = []) : step s = .next s := by simp [step, nextTurn, h]

theorem step_turn {s : State} {t : Turn} {rest : List Turn} (h : s.sched = t :: rest) :
    step s = runTurn t { s with sched := rest } := by simp [step, nextTurn, h]

@[simp] theorem step_withTurn (s : State) (t : Turn) : step (s.withTurn t) = runTurn t s := rfl

/-- The host's turn on each kind of line. -/
@[simp] theorem step_withHostOp_write (s : State) (width : Width) (addr v : Word) :
    step (s.withHostOp (.write width addr v)) = hostWrite width addr v s := rfl

@[simp] theorem step_withHostOp_read (s : State) (width : Width) (addr : Word) :
    step (s.withHostOp (.read width addr)) = hostRead width addr s := rfl

@[simp] theorem step_withHostOp_poll (s : State) (addr : Word) (lo width v : Nat) :
    step (s.withHostOp (.poll addr lo width v)) = hostPoll (.poll addr lo width v) addr lo width v s := rfl

@[simp] theorem step_withHostOp_wait (s : State) (n : Nat) :
    step (s.withHostOp (.wait n)) = .next (hostWaitStep (.wait n) n s) := rfl

/-- A state is one turn before another, or has none left. -/
theorem sched_cases (s : State) : s.sched = [] ∨ ∃ t rest, s.sched = t :: rest := by
  cases h : s.sched with
  | nil => exact .inl rfl
  | cons t rest => exact .inr ⟨t, rest, rfl⟩

/-! ### Commands -/

theorem executeWord_fatal {s : State} (h : s.fatal = true) (w : Word) : executeWord w s = .next s :=
  unlessFatal_of_fatal h _

/-- In the fatal state every command is ignored (60_exceptions R287). -/
theorem exec_fatal {s : State} (h : s.fatal = true) (i : Instr) : exec i s = .next s := by
  cases i <;> exact unlessFatal_of_fatal h _

/-- A word that is a command runs it. -/
theorem executeWord_ok {s : State} {w : Word} {i : Instr} (h : decode w = .ok i) : executeWord w s = exec i s := by
  cases hf : s.fatal
  · unfold executeWord; rw [unlessFatal_of_not hf, h]
  · rw [executeWord_fatal hf, exec_fatal hf]

/-- A word that names no command raises the error of its rejection. -/
theorem executeWord_error {s : State} {w : Word} {e : DecodeError} (hf : s.fatal = false) (h : decode w = .error e) :
    executeWord w s = .next (s.raiseError (decodeErrorCode e) (opField w)) := by
  unfold executeWord; rw [unlessFatal_of_not hf, h]

/-! ### The host's turn -/

/-- Everything the host's turn can do. -/
theorem hostStep_cases (s : State) :
    (s.host = [] ∧ hostStep s = .next s)
      ∨ (∃ width addr v rest, s.host = .write width addr v :: rest ∧ hostStep s = hostWrite width addr v { s with host := rest })
      ∨ (∃ width addr rest, s.host = .read width addr :: rest ∧ hostStep s = hostRead width addr { s with host := rest })
      ∨ (∃ addr lo width v rest, s.host = .poll addr lo width v :: rest
          ∧ hostStep s = hostPoll (.poll addr lo width v) addr lo width v { s with host := rest })
      ∨ (∃ n rest, s.host = .wait n :: rest ∧ hostStep s = .next (hostWaitStep (.wait n) n { s with host := rest })) := by
  unfold hostStep
  split
  · next h => exact .inl ⟨h, rfl⟩
  · next width addr v rest h => exact .inr (.inl ⟨width, addr, v, rest, h, rfl⟩)
  · next width addr rest h => exact .inr (.inr (.inl ⟨width, addr, rest, h, rfl⟩))
  · next addr lo width v rest h => exact .inr (.inr (.inr (.inl ⟨addr, lo, width, v, rest, h, rfl⟩)))
  · next n rest h => exact .inr (.inr (.inr (.inr ⟨n, rest, h, rfl⟩)))

/-- Everything a host write can do: it is refused, runs a command word, or stores a plain value. -/
theorem hostWrite_cases (width : Width) (addr v : Word) (s : State) :
    (accessDefined width (s.cfg.regOffset addr) = false ∧ hostWrite width addr v s = .refused .undefinedAccess)
      ∨ (width = .w32 ∧ s.cfg.regOffset addr = 0 ∧ hostWrite width addr v s = executeWord v s)
      ∨ (accessDefined width (s.cfg.regOffset addr) = true ∧ s.cfg.regOffset addr ≠ 0
          ∧ hostWrite width addr v s = .next (s.writeReg (s.cfg.regOffset addr) v)) := by
  unfold hostWrite
  split
  · next h =>
    split
    · next h0 =>
      refine .inr (.inl ⟨?_, h0, rfl⟩)
      simp only [accessDefined, Bool.and_eq_true, decide_eq_true_eq] at h
      exact h.1
    · next h0 => exact .inr (.inr ⟨h, h0, rfl⟩)
  · next h => exact .inl ⟨by simpa using h, rfl⟩

/-- A plain write stores into one of the four writable registers and changes nothing else (40_control_pins R129). -/
theorem writeReg_frame (s : State) (o : Byte) (v : Word) :
    s.writeReg o v = { s with
      dma_src := (s.writeReg o v).dma_src, dma_count := (s.writeReg o v).dma_count,
      ext_claim := (s.writeReg o v).ext_claim, imem_ext := (s.writeReg o v).imem_ext } := by
  unfold State.writeReg; split <;> rfl

/-- Keeping the bits `n-1:0` twice is keeping them once. -/
theorem lowBits_lowBits (n : Nat) (v : Word) : lowBits n (lowBits n v) = lowBits n v := by
  simp [lowBits, BitVec.and_assoc]

/-- The bits a WARL register keeps (10_state R46, R47). -/
theorem getLsbD_lowBits {n : Nat} (h : n ≤ 32) (v : Word) (k : Nat) :
    (lowBits n v).getLsbD k = (v.getLsbD k && decide (k < n)) := by
  simp only [lowBits, BitVec.getLsbD_and, BitVec.getLsbD_ofNat, Nat.testBit_two_pow_sub_one]
  by_cases hk : k < n
  · have : k < 32 := by omega
    simp [*]
  · simp [hk]

/-- A word written to CMD is executed. -/
theorem hostWrite_cmd {s : State} {addr : Word} (h : s.cfg.regOffset addr = 0) (w : Word) :
    hostWrite .w32 addr w s = executeWord w s := by simp [hostWrite, h, accessDefined]

/-- An aligned 32-bit write to another offset is a plain one. -/
theorem hostWrite_plain {s : State} {addr : Word} (h : (s.cfg.regOffset addr).toNat % 4 = 0)
    (h0 : s.cfg.regOffset addr ≠ 0) (v : Word) :
    hostWrite .w32 addr v s = .next (s.writeReg (s.cfg.regOffset addr) v) := by
  simp only [hostWrite, accessDefined, h]; exact if_neg h0

/-- An aligned 32-bit read returns the register's value. -/
theorem hostRead_aligned {s : State} {addr : Word} (h : (s.cfg.regOffset addr).toNat % 4 = 0) :
    hostRead .w32 addr s = .next { s with host_rdata := some (s.readReg (s.cfg.regOffset addr)) } := by
  simp [hostRead, h, accessDefined]

/-- The bus address of a register reaches it, wherever REG_BASE lies (20_memory R61). -/
theorem regOffset_address (c : Config) (r : Reg) : c.regOffset (r.address c) = r.offset := by
  unfold Config.regOffset Reg.address
  rw [BitVec.add_comm, BitVec.add_sub_cancel]
  cases r <;> decide

/-- A `C` line's word is the command's encoding (30_encoding R99, R94). -/
theorem lineWord_eq_encode {i : Instr} (h : i.wf = true) : lineWord i = encode i := by
  cases i with
  | dmaStop c =>
    have h : c < 256 := by simpa [Instr.wf] using h
    have hc : c = (BitVec.ofNat 8 c).toNat := by simp; omega
    rw [hc]
    generalize BitVec.ofNat 8 c = a
    revert a
    decide
  | _ => rfl

/-- A part's byte is read in the state before the step (41_streamer R176). -/
@[simp] theorem eval_busView (s : State) (b : BusByte) : b.eval s.busView = s.byteNamed b := by cases b <;> rfl

/-! ### Everything a step can do -/

/-- `u` is `s` but for the schedule, the host's lines, its WAIT and its last read value: what a step takes from the
inputs of the run before anything of the block changes. -/
def SameBlock (s u : State) : Prop :=
  ∃ sched host host_wait host_rdata,
    u = { s with sched := sched, host := host, host_wait := host_wait, host_rdata := host_rdata }

theorem SameBlock.refl (s : State) : SameBlock s s := ⟨s.sched, s.host, s.host_wait, s.host_rdata, rfl⟩

theorem SameBlock.trans {s u v : State} (h : SameBlock s u) (h' : SameBlock u v) : SameBlock s v := by
  obtain ⟨_, _, _, _, rfl⟩ := h
  obtain ⟨_, _, _, _, rfl⟩ := h'
  exact ⟨_, _, _, _, rfl⟩

/-- A command word that ends in a next state: ignored, run, or recorded as an error. -/
theorem executeWord_next_cases {w : Word} {u t : State} (h : executeWord w u = .next t) :
    (u.fatal = true ∧ t = u)
      ∨ (u.fatal = false ∧ ∃ i, decode w = .ok i ∧ exec i u = .next t)
      ∨ (u.fatal = false ∧ ∃ e, decode w = .error e ∧ t = u.raiseError (decodeErrorCode e) (opField w)) := by
  cases hf : u.fatal
  · cases hd : decode w with
    | ok i => exact .inr (.inl ⟨rfl, i, rfl, by rw [← h, executeWord_ok hd]⟩)
    | error e =>
      rw [executeWord_error hf hd] at h
      cases h
      exact .inr (.inr ⟨rfl, e, rfl, rfl⟩)
  · rw [executeWord_fatal hf] at h
    cases h; exact .inl ⟨rfl, rfl⟩

/-- Everything the host's turn can do when it ends in a next state: it takes nothing, or makes an access; `v` is the
state without the access. -/
theorem hostStep_next_cases {u t : State} (h : hostStep u = .next t) :
    SameBlock u t
      ∨ (∃ addr w ops v, u.host = .write .w32 addr w :: ops ∧ u.cfg.regOffset addr = 0 ∧ SameBlock u v
          ∧ executeWord w v = .next t)
      ∨ (∃ o x v, o ≠ 0 ∧ SameBlock u v ∧ t = v.writeReg o x) := by
  rcases hostStep_cases u with ⟨_, e⟩ | ⟨width, addr, v, ops, hh, e⟩ | ⟨width, addr, ops, hh, e⟩
    | ⟨addr, lo, width, v, ops, hh, e⟩ | ⟨n, ops, hh, e⟩ <;> rw [e] at h
  · cases h; exact .inl (.refl u)
  · have hv : SameBlock u { u with host := ops } := ⟨_, _, _, _, rfl⟩
    have hr : ({ u with host := ops } : State).cfg.regOffset addr = u.cfg.regOffset addr := rfl
    generalize ({ u with host := ops } : State) = x at h hv hr
    rcases hostWrite_cases width addr v x with ⟨_, e⟩ | ⟨hw, h0, e⟩ | ⟨_, h0, e⟩ <;> rw [e] at h
    · cases h
    · subst hw
      exact .inr (.inl ⟨addr, v, ops, x, hh, by rw [← hr, h0], hv, h⟩)
    · cases h
      exact .inr (.inr ⟨_, _, _, h0, hv, rfl⟩)
  · unfold hostRead at h
    split at h
    · cases h; exact .inl ⟨_, _, _, _, rfl⟩
    · cases h
  · unfold hostPoll at h
    split at h
    · dsimp only at h
      split at h <;> (cases h; exact .inl ⟨_, _, _, _, rfl⟩)
    · cases h
  · unfold hostWaitStep at h
    cases h
    dsimp only
    split <;> exact .inl ⟨_, _, _, _, rfl⟩

/-- Everything a step can do when it ends in a next state: the one inversion that claims about every step start from. -/
theorem step_next_cases {s t : State} (h : step s = .next t) :
    SameBlock s t
      ∨ (∃ i u, s.runsCommand i ∧ SameBlock s u ∧ exec i u = .next t)
      ∨ (∃ e w u, s.runsIllegalWord ∧ SameBlock s u ∧ t = u.raiseError (decodeErrorCode e) (opField w))
      ∨ (∃ o v u, o ≠ 0 ∧ SameBlock s u ∧ t = u.writeReg o v)
      ∨ (∃ u, s.takesTurn .streamer ∧ SameBlock s u ∧ streamerStep u = .next t)
      ∨ (∃ u, s.takesTurn .dma ∧ SameBlock s u ∧ t = dmaStep u)
      ∨ (∃ u, s.takesTurn .tick ∧ SameBlock s u ∧ t = u.tick)
      ∨ (∃ v u, s.takesTurn (.rst v) ∧ SameBlock s u ∧ t = u.setExtRst v)
      ∨ (∃ v u, s.takesTurn (.stb0 v) ∧ SameBlock s u ∧ t = { u with strobe0_in := v })
      ∨ (∃ v u, s.takesTurn (.stb1 v) ∧ SameBlock s u ∧ t = { u with strobe1_in := v })
      ∨ (∃ a b u, s.takesTurn (.payload a b) ∧ SameBlock s u ∧ t = { u with mem := u.mem.update a.toNat b })
      ∨ (∃ u, s.takesTurn .blockReset ∧ SameBlock s u ∧ t = u.blockReset) := by
  rcases sched_cases s with hs | ⟨turn, rest, hs⟩
  · rw [step_idle hs] at h; cases h; exact .inl (.refl s)
  · have hu : SameBlock s { s with sched := rest } := ⟨_, _, _, _, rfl⟩
    have ht : s.takesTurn turn := ⟨rest, hs⟩
    rw [step_turn hs] at h
    cases turn with
    | host =>
      have hh : ({ s with sched := rest } : State).host = s.host := rfl
      have hf : ({ s with sched := rest } : State).fatal = s.fatal := rfl
      have hc : ({ s with sched := rest } : State).cfg = s.cfg := rfl
      generalize ({ s with sched := rest } : State) = u at h hu hh hf hc
      rcases hostStep_next_cases h with h | ⟨addr, w, ops, v, hl, h0, hv, h⟩ | ⟨o, x, v, ho, hv, rfl⟩
      · exact .inl (hu.trans h)
      · rw [hh] at hl; rw [hc] at h0
        have hvf : v.fatal = s.fatal := by rw [← hf]; obtain ⟨_, _, _, _, rfl⟩ := hv; rfl
        rcases executeWord_next_cases h with ⟨_, rfl⟩ | ⟨hvn, i, hd, h⟩ | ⟨hvn, e, hd, rfl⟩
        · exact .inl (hu.trans hv)
        · exact .inr (.inl ⟨i, v, ⟨addr, w, ops, ht, hl, h0, hd, hvf ▸ hvn⟩, hu.trans hv, h⟩)
        · exact .inr (.inr (.inl ⟨e, w, v, ⟨addr, w, ops, e, ht, hl, h0, hd, hvf ▸ hvn⟩, hu.trans hv, rfl⟩))
      · exact .inr (.inr (.inr (.inl ⟨o, x, v, ho, hu.trans hv, rfl⟩)))
    | streamer => exact .inr (.inr (.inr (.inr (.inl ⟨_, ht, hu, h⟩))))
    | dma => cases h; exact .inr (.inr (.inr (.inr (.inr (.inl ⟨_, ht, hu, rfl⟩)))))
    | tick => cases h; exact .inr (.inr (.inr (.inr (.inr (.inr (.inl ⟨_, ht, hu, rfl⟩))))))
    | rst v => cases h; exact .inr (.inr (.inr (.inr (.inr (.inr (.inr (.inl ⟨v, _, ht, hu, rfl⟩)))))))
    | stb0 v => cases h; exact .inr (.inr (.inr (.inr (.inr (.inr (.inr (.inr (.inl ⟨v, _, ht, hu, rfl⟩))))))))
    | stb1 v => cases h; exact .inr (.inr (.inr (.inr (.inr (.inr (.inr (.inr (.inr (.inl ⟨v, _, ht, hu, rfl⟩)))))))))
    | payload a b =>
      cases h
      exact .inr (.inr (.inr (.inr (.inr (.inr (.inr (.inr (.inr (.inr (.inl ⟨a, b, _, ht, hu, rfl⟩))))))))))
    | blockReset =>
      cases h
      exact .inr (.inr (.inr (.inr (.inr (.inr (.inr (.inr (.inr (.inr (.inr ⟨_, ht, hu, rfl⟩))))))))))

/-! ### Runs -/

theorem run_core_succ (M : Host.Core) (n : Nat) (s : M.State) :
    M.run (n + 1) s = match M.step s with
      | .next t => M.run n t
      | .fault r => .fault r
      | .refused r => .refused r := rfl

/-- `run` is the run of the machine that the host sees. -/
theorem run_eq_core_run : ∀ (n : Nat) (s : State), run n s = Sys2Proof.core.run n s
  | 0, _ => rfl
  | n + 1, s => by
    unfold run
    refine Eq.trans ?_ (run_core_succ Sys2Proof.core n s).symm
    cases h : Sys2Proof.core.step s with
    | next t =>
      have h' : step s = .next t := h
      rw [h']; exact run_eq_core_run n t
    | fault r =>
      have h' : step s = .fault r := h
      rw [h']; rfl
    | refused r =>
      have h' : step s = .refused r := h
      rw [h']; rfl

theorem run_of_next {s t : State} (h : step s = .next t) (n : Nat) : run (n + 1) s = run n t := by
  rw [run, h]

/-- A run of `n + 1` steps is a step and a run of `n`. -/
theorem runsTo_succ {n : Nat} {s t : State} : RunsTo (n + 1) s t ↔ ∃ u, step s = .next u ∧ RunsTo n u t := by
  unfold RunsTo
  rw [run]
  cases hs : step s with
  | next u => simp
  | fault r => simp
  | refused r => simp

theorem runsTo_zero {s t : State} : RunsTo 0 s t ↔ t = s := by
  constructor
  · intro h; cases h; rfl
  · rintro rfl; rfl

/-! ### Which fields a step leaves alone -/

/-- Only the platform's turn changes PayloadMem, and nothing changes the parameters: what a turn of the host leaves. -/
theorem exec_keeps_inputs (i : Instr) (s t : State) (h : exec i s = .next t) :
    t.cfg = s.cfg ∧ t.mem = s.mem ∧ t.sched = s.sched ∧ t.host = s.host ∧ t.host_wait = s.host_wait
      ∧ t.host_rdata = s.host_rdata ∧ t.ext_rst = s.ext_rst ∧ t.strobe0_in = s.strobe0_in
      ∧ t.strobe1_in = s.strobe1_in ∧ t.now = s.now := by
  cases hf : s.fatal
  · cases i <;>
      simp only [exec, execNop, execPinConfig, execSmLoad, execSmConfig, execSmEnable, execSmDisable, execSmRestart,
        execDmaStart, execDmaStop, execRmArm, execRmClear, execRstDriveLow, execRstRelease, execErrClear,
        unlessFatal_of_not hf] at h
    case rstDriveLow =>
      cases h
      rcases lineChanged_cases { s with rst_drive := true } s.rstLine with e | ⟨_, _, _, _, e⟩ | ⟨_, _, _, _, _, e⟩ | ⟨_, _, _, _, _, e⟩ <;>
        rw [e] <;> simp
    case rstRelease =>
      cases h
      rcases lineChanged_cases { s with rst_drive := false } s.rstLine with e | ⟨_, _, _, _, e⟩ | ⟨_, _, _, _, _, e⟩ | ⟨_, _, _, _, _, e⟩ <;>
        rw [e] <;> simp
    all_goals repeat' (first | split at h | (cases h; simp))
  · rw [exec_fatal hf] at h; cases h; simp

end Sys2Proof.Machine
end

