-- ==== Sys2Proof/Laws/BusProgram.lean ====
section
/-! SUPPORT. The decision trees leave no bus program out: every step function `prog(k, view)` of spec/41_streamer.md
R176 is the function of some tree, and one whose effects obey the contract is that of a well-formed tree. -/

namespace Sys2Proof

/-- Every question a tree may ask. -/
def BusTest.all : List BusTest :=
  [.fifoNonempty, .strobe0, .strobe1] ++ (List.finRange 8).map .osrBit ++ (List.finRange 8).map .isrBit
    ++ (List.finRange 9).map .osrCountIs ++ (List.finRange 9).map .isrCountIs

/-- Two views that answer every question alike are the same view. -/
theorem view_eq_of_answers {v w : BusView} (h : ∀ t ∈ BusTest.all, t.eval v = t.eval w) : v = w := by
  have hb : ∀ i : Fin 8, v.osr.getLsbD i.val = w.osr.getLsbD i.val := fun i => h (.osrBit i) (by simp [BusTest.all])
  have hc : ∀ i : Fin 8, v.isr.getLsbD i.val = w.isr.getLsbD i.val := fun i => h (.isrBit i) (by simp [BusTest.all])
  have ho : w.osrCount = v.osrCount := by
    have := h (.osrCountIs v.osrCount) (by simp [BusTest.all])
    simpa [BusTest.eval] using this
  have hi : w.isrCount = v.isrCount := by
    have := h (.isrCountIs v.isrCount) (by simp [BusTest.all])
    simpa [BusTest.eval] using this
  have h1 : v.osr = w.osr := BitVec.eq_of_getLsbD_eq fun k hk => hb ⟨k, hk⟩
  have h2 : v.isr = w.isr := BitVec.eq_of_getLsbD_eq fun k hk => hc ⟨k, hk⟩
  have h3 : v.fifoNonempty = w.fifoNonempty := h .fifoNonempty (by simp [BusTest.all])
  have h4 : v.strobe0 = w.strobe0 := h .strobe0 (by simp [BusTest.all])
  have h5 : v.strobe1 = w.strobe1 := h .strobe1 (by simp [BusTest.all])
  cases v; cases w; simp_all

/-- A function of the view that depends only on the answers to `l` is that of a tree that asks `l`. -/
theorem tree_of_answers (c : Config) : ∀ (l : List BusTest) (f : BusView → Option BusEffect),
    (∀ v w, (∀ t ∈ l, t.eval v = t.eval w) → f v = f w) → (∀ v e, f v = some e → e.wf c = true) →
    ∃ tree : BusTree, tree.wf c = true ∧ ∀ v, tree.eval v = f v
  | [], f, hf, hw => by
    let v0 : BusView := ⟨false, 0, 0, 0, 0, false, false⟩
    cases h0 : f v0 with
    | none => exact ⟨.stall, rfl, fun v => by rw [hf v v0 (by simp), h0]; rfl⟩
    | some e => exact ⟨.effect e, hw v0 e h0, fun v => by rw [hf v v0 (by simp), h0]; rfl⟩
  | t :: l, f, hf, hw => by
    classical
    -- `side b v`: what `f` says of a view that answers `l` as `v` does and `t` with `b`
    let side (b : Bool) (v : BusView) : Option BusEffect :=
      if h : ∃ w, (∀ u ∈ l, u.eval w = u.eval v) ∧ t.eval w = b then f h.choose else none
    have hside : ∀ b v, t.eval v = b → side b v = f v := by
      intro b v hb
      have hex : ∃ w, (∀ u ∈ l, u.eval w = u.eval v) ∧ t.eval w = b := ⟨v, fun _ _ => rfl, hb⟩
      simp only [side, dif_pos hex]
      refine hf _ _ fun u hu => ?_
      rcases List.mem_cons.1 hu with rfl | hu
      · rw [hex.choose_spec.2, hb]
      · exact hex.choose_spec.1 u hu
    have hdep : ∀ b v w, (∀ u ∈ l, u.eval v = u.eval w) → side b v = side b w := by
      intro b v w hvw
      have : (fun x => (∀ u ∈ l, u.eval x = u.eval v) ∧ t.eval x = b)
          = fun x => (∀ u ∈ l, u.eval x = u.eval w) ∧ t.eval x = b := by
        funext x; refine propext ⟨fun h => ⟨fun u hu => (h.1 u hu).trans (hvw u hu), h.2⟩,
          fun h => ⟨fun u hu => (h.1 u hu).trans (hvw u hu).symm, h.2⟩⟩
      simp only [side, this]
    have hwf : ∀ b v e, side b v = some e → e.wf c = true := by
      intro b v e he
      simp only [side] at he
      split at he
      · exact hw _ e he
      · cases he
    obtain ⟨yes, hy, hyes⟩ := tree_of_answers c l (side true) (hdep true) (hwf true)
    obtain ⟨no, hn, hno⟩ := tree_of_answers c l (side false) (hdep false) (hwf false)
    refine ⟨.ask t yes no, by simp [BusTree.wf, hy, hn], fun v => ?_⟩
    simp only [BusTree.eval]
    cases hb : t.eval v
    · simp [hno, hside false v hb]
    · simp [hyes, hside true v hb]

/-- No program is left out: every step function whose effects obey the contract is that of a well-formed tree. -/
theorem every_program_word (c : Config) (f : BusView → Option BusEffect) (hw : ∀ v e, f v = some e → e.wf c = true) :
    ∃ tree : BusTree, tree.wf c = true ∧ ∀ v, tree.eval v = f v :=
  tree_of_answers c BusTest.all f (fun v w h => by rw [view_eq_of_answers h]) hw

end Sys2Proof
end

