-- ==== Sys2Proof/Laws/Memory.lean ====
section
/-! SUPPORT. Payload memory: every operation keeps the canonical form, and a read after an update gives what the
update put there and leaves every other address alone. -/

namespace Sys2Proof.Machine.Memory

theorem risesFrom_mono {lo lo' : Nat} (h : lo' ≤ lo) : ∀ {m : Memory}, m.risesFrom lo = true → m.risesFrom lo' = true
  | [], _ => rfl
  | (k, _) :: _, hm => by
    simp only [risesFrom, Bool.and_eq_true, decide_eq_true_eq] at hm ⊢
    exact ⟨by omega, hm.2⟩

/-- Nothing is listed below the first address. -/
theorem read_below {lo a : Nat} (ha : a < lo) : ∀ {m : Memory}, m.risesFrom lo = true → m.read a = none
  | [], _ => rfl
  | (k, _) :: rest, hm => by
    simp only [risesFrom, Bool.and_eq_true, decide_eq_true_eq] at hm
    have hk : k ≠ a := by omega
    simp only [read, if_neg hk]
    exact read_below (lo := k + 1) (by omega) hm.2

theorem put_rises (a : Nat) (b : Byte) : ∀ {lo : Nat} {m : Memory}, lo ≤ a → m.risesFrom lo = true →
    (m.put a b).risesFrom lo = true
  | lo, [], ha, _ => by simp [put, risesFrom, ha]
  | lo, (k, x) :: rest, ha, hm => by
    simp only [risesFrom, Bool.and_eq_true, decide_eq_true_eq] at hm
    unfold put
    split
    · simp only [risesFrom, Bool.and_eq_true, decide_eq_true_eq]; exact ⟨ha, by omega, hm.2⟩
    · split
      · next h => subst h; simp only [risesFrom, Bool.and_eq_true, decide_eq_true_eq]; exact hm
      · simp only [risesFrom, Bool.and_eq_true, decide_eq_true_eq]
        exact ⟨hm.1, put_rises a b (by omega) hm.2⟩

theorem drop_rises (a : Nat) : ∀ {lo : Nat} {m : Memory}, m.risesFrom lo = true → (m.drop a).risesFrom lo = true
  | _, [], _ => rfl
  | lo, (k, x) :: rest, hm => by
    simp only [risesFrom, Bool.and_eq_true, decide_eq_true_eq] at hm
    unfold drop
    split
    · exact risesFrom_mono (by omega) hm.2
    · simp only [risesFrom, Bool.and_eq_true, decide_eq_true_eq]; exact ⟨hm.1, drop_rises a hm.2⟩

theorem mem_put {a : Nat} {b : Byte} {c : Host.Cell} : ∀ {m : Memory}, c ∈ m.put a b → c = (a, b) ∨ c ∈ m
  | [], h => by simpa [put] using h
  | (k, x) :: rest, h => by
    unfold put at h
    split at h
    · simpa using h
    · split at h
      · rcases List.mem_cons.1 h with h | h
        · exact .inl h
        · exact .inr (List.mem_cons_of_mem _ h)
      · rcases List.mem_cons.1 h with h | h
        · exact .inr (by simp [h])
        · exact (mem_put h).imp id (List.mem_cons_of_mem _)

theorem mem_drop {a : Nat} {c : Host.Cell} : ∀ {m : Memory}, c ∈ m.drop a → c ∈ m
  | [], h => h
  | (k, x) :: rest, h => by
    unfold drop at h
    split at h
    · exact List.mem_cons_of_mem _ h
    · rcases List.mem_cons.1 h with h | h
      · simp [h]
      · exact List.mem_cons_of_mem _ (mem_drop h)

theorem wf_iff {m : Memory} : m.wf = true ↔ m.risesFrom 0 = true ∧ ∀ c ∈ m, c.1 < 2 ^ 32 := by
  simp [wf, List.all_eq_true]

/-- Making an address readable keeps the canonical form. -/
theorem put_wf {m : Memory} {a : Nat} {b : Byte} (ha : a < 2 ^ 32) (hm : m.wf = true) : (m.put a b).wf = true := by
  rw [wf_iff] at hm ⊢
  refine ⟨put_rises a b (Nat.zero_le a) hm.1, fun c hc => ?_⟩
  rcases mem_put hc with rfl | hc
  · exact ha
  · exact hm.2 c hc

/-- Making an address unreadable keeps the canonical form. -/
theorem drop_wf {m : Memory} {a : Nat} (hm : m.wf = true) : (m.drop a).wf = true := by
  rw [wf_iff] at hm ⊢
  exact ⟨drop_rises a hm.1, fun c hc => hm.2 c (mem_drop hc)⟩

/-- Whatever the platform does to an address keeps the canonical form. -/
theorem update_wf {m : Memory} {a : Nat} {b : Option Byte} (ha : a < 2 ^ 32) (hm : m.wf = true) :
    (m.update a b).wf = true := by
  cases b with
  | none => exact drop_wf hm
  | some x => exact put_wf ha hm

/-- A read after a put: the new byte there, what was there before elsewhere. -/
theorem read_put (a : Nat) (b : Byte) (x : Nat) : ∀ m : Memory, (m.put a b).read x = if x = a then some b else m.read x
  | [] => by simp [put, read, eq_comm]
  | (k, y) :: rest => by
    unfold put
    split
    · simp only [read, eq_comm]
    · split
      · next h => subst h; simp only [read]; split <;> simp_all [eq_comm]
      · next h1 h2 =>
        simp only [read, read_put a b x rest]
        split
        · next hk => subst hk; rw [if_neg (fun h => h2 h.symm)]
        · rfl

/-- A read after a drop: nothing there, what was there before elsewhere. -/
theorem read_drop (a x : Nat) : ∀ {lo : Nat} {m : Memory}, m.risesFrom lo = true →
    (m.drop a).read x = if x = a then none else m.read x
  | _, [], _ => by simp [drop, read]
  | lo, (k, y) :: rest, hm => by
    simp only [risesFrom, Bool.and_eq_true, decide_eq_true_eq] at hm
    unfold drop
    split
    · next h =>
      subst h
      by_cases hx : x = k
      · subst hx; rw [if_pos rfl]; exact read_below (Nat.lt_succ_self x) hm.2
      · rw [if_neg hx]; simp only [read]; rw [if_neg (fun h => hx h.symm)]
    · next h =>
      simp only [read, read_drop a x hm.2]
      split
      · next hk => subst hk; rw [if_neg h]
      · rfl

/-- A read after the platform's update. -/
theorem read_update {m : Memory} (hm : m.wf = true) (a : Nat) (b : Option Byte) (x : Nat) :
    (m.update a b).read x = if x = a then b else m.read x := by
  cases b with
  | none => exact read_drop a x (wf_iff.1 hm).1
  | some y => exact read_put a y x m

end Sys2Proof.Machine.Memory
end

