-- ==== Sys2Proof/Laws/PerInstr.lean ====
section
/-! SUPPORT. One family of statements per instruction: `TableRow`, that an instruction's word meets its row's mask and
match (spec/30_encoding.md R94, "Match and mask for a decoder"). -/

namespace Sys2Proof.Laws

/-- The mask of an instruction's row in spec/opcode_table.json. -/
def rowMask : Instr → Word
  | .dmaStop _ => 0xFF00FFFF
  | .nop | .pinConfig | .smLoad | .smConfig | .smEnable | .smDisable | .smRestart | .dmaStart
  | .rmArm | .rmClear | .rstDriveLow | .rstRelease | .errClear => 0xFFFFFFFF

/-- The match of an instruction's row in spec/opcode_table.json. -/
def rowMatch : Instr → Word
  | .nop => 0x00000000
  | .pinConfig => 0x01000000
  | .smLoad => 0x02000000
  | .smConfig => 0x03000000
  | .smEnable => 0x04000000
  | .smDisable => 0x05000000
  | .smRestart => 0x06000000
  | .dmaStart => 0x07000000
  | .dmaStop _ => 0x08000000
  | .rmArm => 0x09000000
  | .rmClear => 0x0A000000
  | .rstDriveLow => 0x0B000000
  | .rstRelease => 0x0C000000
  | .errClear => 0x0D000000

/-- A well-formed instruction's word meets its row of the table. -/
def TableRow.Statement (i : Instr) : Prop := i.wf = true → encode i &&& rowMask i = rowMatch i

theorem TableRow.nop : TableRow.Statement .nop := by intro; decide
theorem TableRow.pinConfig : TableRow.Statement .pinConfig := by intro; decide
theorem TableRow.smLoad : TableRow.Statement .smLoad := by intro; decide
theorem TableRow.smConfig : TableRow.Statement .smConfig := by intro; decide
theorem TableRow.smEnable : TableRow.Statement .smEnable := by intro; decide
theorem TableRow.smDisable : TableRow.Statement .smDisable := by intro; decide
theorem TableRow.smRestart : TableRow.Statement .smRestart := by intro; decide
theorem TableRow.dmaStart : TableRow.Statement .dmaStart := by intro; decide
theorem TableRow.rmArm : TableRow.Statement .rmArm := by intro; decide
theorem TableRow.rmClear : TableRow.Statement .rmClear := by intro; decide
theorem TableRow.rstDriveLow : TableRow.Statement .rstDriveLow := by intro; decide
theorem TableRow.rstRelease : TableRow.Statement .rstRelease := by intro; decide
theorem TableRow.errClear : TableRow.Statement .errClear := by intro; decide

/-- DMA_STOP's mask leaves ARG free, and only ARG. -/
theorem TableRow.dmaStop (c : Nat) : TableRow.Statement (.dmaStop c) := by
  intro h
  simp only [Instr.wf, decide_eq_true_eq] at h
  have : ∀ a : Byte, ((0x08 : Byte) ++ a ++ (0 : BitVec 16) : Word) &&& 0xFF00FFFF = 0x08000000 := by decide
  exact this (BitVec.ofNat 8 c)

end Sys2Proof.Laws
end

