-- ==== Sys2Proof/Laws/Registers.lean ====
section
/-! SUPPORT. The bits of register fields, and the register at each offset (spec/10_state.md R39). -/

namespace Sys2Proof

/-- The bits of a one-bit field. -/
theorem getLsbD_flagAt (i k : Nat) (b : Bool) :
    (flagAt i b).getLsbD k = (b && decide (k = i) && decide (k < 32)) := by
  unfold flagAt
  cases b
  · simp
  · simp only [if_true, Bool.true_and, BitVec.getLsbD_shiftLeft, BitVec.getLsbD_one]
    by_cases hk : k = i
    · subst hk; by_cases h32 : k < 32 <;> simp [h32]
    · by_cases hlt : k < i
      · simp [hlt, hk]
      · have : k - i ≠ 0 := by omega
        simp [this, hk]

/-- The bits of a wider field. -/
theorem getLsbD_fieldAt (lo width v k : Nat) :
    (fieldAt lo width v).getLsbD k
      = (decide (k < 32) && decide (lo ≤ k) && decide (k - lo < width) && v.testBit (k - lo)) := by
  unfold fieldAt
  simp only [BitVec.getLsbD_shiftLeft, BitVec.getLsbD_ofNat, Nat.testBit_mod_two_pow]
  by_cases h1 : k < 32
  · by_cases h2 : lo ≤ k
    · have h3 : ¬ k < lo := by omega
      have h4 : k - lo < 32 := by omega
      simp [h1, h2, h3, h4]
    · have h3 : k < lo := by omega
      simp [h2, h3]
  · simp [h1]

/-- A field reads back the value put into it. -/
theorem extract_fieldAt_self {lo width : Nat} (h : lo + width ≤ 32) (v : Nat) :
    (fieldAt lo width v).extractLsb' lo width = BitVec.ofNat width v := by
  apply BitVec.eq_of_getLsbD_eq
  intro k hk
  rw [BitVec.getLsbD_extractLsb', getLsbD_fieldAt, BitVec.getLsbD_ofNat]
  have h1 : lo + k < 32 := by omega
  simp [hk, h1]

/-- A field shows nothing outside its own bits. -/
theorem extract_fieldAt_other {lo width lo' width' : Nat} (h : lo + width ≤ lo' ∨ lo' + width' ≤ lo) (v : Nat) :
    (fieldAt lo width v).extractLsb' lo' width' = 0 := by
  apply BitVec.eq_of_getLsbD_eq
  intro k hk
  rw [BitVec.getLsbD_extractLsb', getLsbD_fieldAt]
  by_cases h2 : lo ≤ lo' + k
  · have h3 : ¬ lo' + k - lo < width := by omega
    simp [h3]
  · simp [h2]

/-- A flag shows nothing outside its own bit. -/
theorem extract_flagAt_other {i lo width : Nat} (h : i < lo ∨ lo + width ≤ i) (b : Bool) :
    (flagAt i b).extractLsb' lo width = 0 := by
  apply BitVec.eq_of_getLsbD_eq
  intro k hk
  have h1 : ¬ lo + k = i := by omega
  rw [BitVec.getLsbD_extractLsb', getLsbD_flagAt]
  simp [h1]

/-- The value of a field that fits its place. -/
theorem toNat_fieldAt {lo width v : Nat} (h : lo + width ≤ 32) :
    (fieldAt lo width v).toNat = (v % 2 ^ width) * 2 ^ lo := by
  unfold fieldAt
  have hlt : v % 2 ^ width < 2 ^ width := Nat.mod_lt _ (Nat.two_pow_pos width)
  have hle : 2 ^ width * 2 ^ lo ≤ 2 ^ 32 := by
    rw [← Nat.pow_add]; exact Nat.pow_le_pow_right (by omega) (by omega)
  have hm : (v % 2 ^ width) * 2 ^ lo < 2 ^ 32 :=
    Nat.lt_of_lt_of_le (Nat.mul_lt_mul_of_pos_right hlt (Nat.two_pow_pos lo)) hle
  have hw : v % 2 ^ width < 2 ^ 32 :=
    Nat.lt_of_le_of_lt (Nat.le_mul_of_pos_right _ (Nat.two_pow_pos lo)) hm
  rw [BitVec.toNat_shiftLeft, BitVec.toNat_ofNat, Nat.mod_eq_of_lt hw, Nat.shiftLeft_eq, Nat.mod_eq_of_lt hm]

end Sys2Proof

namespace Sys2Proof.Machine

/-- Every named register stands at its offset. -/
theorem at_offset (r : Reg) : Reg.at r.offset = some r := by cases r <;> rfl

/-- Reading a named register's offset gives its value. -/
theorem readReg_offset (s : State) (r : Reg) : s.readReg r.offset = r.value s := by
  simp [State.readReg, at_offset]

/-- Below the reserved range, the aligned offsets are those of the named registers. -/
theorem at_reserved {o : Byte} (h : 0x30 ≤ o.toNat) : Reg.at o = none := by
  have : ∀ o : Byte, 0x30 ≤ o.toNat → Reg.at o = none := by decide
  exact this o h

end Sys2Proof.Machine
end

