-- ==== Sys2Proof/Tests/Slice0.lean ====
section
/-! SUPPORT. The model's own tests: what the well-formedness checks refuse, words written out from the encoding of
spec/30_encoding.md, one-step tests whose expected values are those of spec/95_test_vectors.md (V and S numbers), and
for every statement a concrete state that meets its hypotheses, clause by clause. -/

namespace Sys2Proof.Tests

open Sys2Proof Sys2Proof.Machine

/-! ### Small states -/

/-- What a next state shows, if there is one. -/
def after {α : Type} (r : Result) (f : State → α) : Option α :=
  match r with
  | .next t => some (f t)
  | .fault _ => none
  | .refused _ => none

/-- The fault of a step, if it is one. -/
def faultOf (r : Result) : Option Fault :=
  match r with
  | .next _ => none
  | .fault f => some f
  | .refused _ => none

/-- The refusal of a step, if it is one. -/
def refusalOf (r : Result) : Option Refusal :=
  match r with
  | .next _ => none
  | .fault _ => none
  | .refused f => some f

def fatalState : State := { State.reset with fatal := true, fatal_cause := 0x01 }

/-- V22's end state. -/
def loaded : State :=
  { State.reset with sm_loaded := true, sm_handle := 28, imem_own := 0xF0000000, res_handle := 28 }

/-- Loaded, configured, pins configured, not enabled. -/
def ready : State := { loaded with sm_configured := true, data_oe := true, pins_configured := true, sm_pc := 28 }

/-- Enabled at program offset `k` with the FIFO `f`. -/
def running (k : Nat) (f : List Byte) : State :=
  { ready with sm_enabled := true, sm_pc := 28 + BitVec.ofNat 5 k, fifo := f }

/-- Channel 0 feeds from 0x10000100, `n` bytes remaining, three of them readable. -/
def feeding (n : Word) (s : State) : State :=
  { s with
    ch := s.ch.set 0 { own := true, busy := true, read_addr := 0x10000100, count := n }
    feeder_active := true
    mem := [(0x10000100, 0x11), (0x10000101, 0x22), (0x10000102, 0x33)] }

def armed : State := { State.reset with rm_armed := true, now := 1000 }

/-- Armed, after a fall at 1000, `d` ticks ago; the target holds the line low. -/
def low (d : Nat) : State :=
  { armed with ext_rst := false, rm_phase := .armedForRise, rm_lastFall := 1000, now := 1000 + d }

/-- The same, but the block holds the line low. -/
def drivenLow (d : Nat) : State := { low d with ext_rst := true, rst_drive := true }

def pending : State := { State.reset with rm_pending := true }

/-- A block in full work: feeding, running, armed, with one byte in the FIFO. -/
def live : State :=
  { feeding 2 (running 0 [0x11]) with
    ch := (State.reset.ch).set 0 { own := true, busy := true, read_addr := 0x10000101, count := 2 }
    rm_armed := true }

theorem live_inv : live.Inv where
  cfg_wf := by decide
  mem_wf := by decide
  now_bound := by decide
  lastFall_bound := by decide
  fifo_bound := by decide
  channels := by decide
  feeder_in_pool := by decide
  feeder_owns := by decide
  busy_remaining := by decide
  result_channel := by decide
  ext_claim_legal := by decide
  imem_ext_legal := by decide
  loaded_region := by decide
  unloaded_region := by decide
  configured_loaded := by decide
  enabled_ready := by decide
  output_enable := by decide
  pc_in_program := by decide
  pending_disarmed := by decide
  rise_phase := by decide
  error_record := by decide
  async_record := by decide
  fatal_record := by decide
  sideset_off := by decide

/-- The invariant does not read the schedule or the host's lines. -/
theorem inv_inputs {s : State} (h : s.Inv) (a : List Turn) (b : List HostOp) :
    ({ s with sched := a, host := b } : State).Inv :=
  ⟨h.cfg_wf, h.mem_wf, h.now_bound, h.lastFall_bound, h.fifo_bound, h.channels, h.feeder_in_pool, h.feeder_owns,
    h.busy_remaining, h.result_channel, h.ext_claim_legal, h.imem_ext_legal, h.loaded_region, h.unloaded_region,
    h.configured_loaded, h.enabled_ready, h.output_enable, h.pc_in_program, h.pending_disarmed, h.rise_phase,
    h.error_record, h.async_record, h.fatal_record, h.sideset_off⟩

/-! ### Well-formedness: what the checks refuse -/

theorem test_wf_arg_of_nine_bits : Instr.wf (.dmaStop 256) = false := by decide
theorem test_wf_arg_of_eight_bits : Instr.wf (.dmaStop 255) = true := by decide

theorem test_wf_example_config : exampleConfig.wf = true := by decide
theorem test_wf_narrow_timebase : ({ exampleConfig with tsWidth := 9 } : Config).wf = false := by decide
theorem test_wf_wide_timebase : ({ exampleConfig with tsWidth := 65 } : Config).wf = true := by decide

theorem test_wf_effect_leaves_the_program :
    BusEffect.wf exampleConfig { next := 4, acts := [] } = false := by decide
theorem test_wf_effect_pulls_twice :
    BusEffect.wf exampleConfig { next := 0, acts := [.pull, .pull] } = false := by decide
theorem test_wf_effect_writes_data_twice :
    BusEffect.wf exampleConfig { next := 0, acts := [.writeData .osr, .writeData .isr] } = false := by decide
theorem test_wf_effect_writes_side_twice :
    BusEffect.wf { exampleConfig with sidesetEn := true }
      { next := 0, acts := [.writeSide 1, .writeSide 2] } = false := by decide
theorem test_wf_effect_writes_side_while_off :
    BusEffect.wf exampleConfig { next := 0, acts := [.writeSide 1] } = false := by decide
theorem test_wf_tree_with_a_bad_leaf :
    BusTree.wf exampleConfig (.ask .strobe1 .stall (.effect { next := 4, acts := [] })) = false := by decide

theorem test_wf_config_sideset_out_of_pins : ({ exampleConfig with sidesetBase := 28 } : Config).wf = false := by decide
theorem test_wf_config_too_many_pins : ({ exampleConfig with numPins := 33 } : Config).wf = false := by decide
theorem test_wf_config_data_out_of_pins : ({ exampleConfig with dataBase := 23 } : Config).wf = false := by decide
theorem test_wf_config_strobe_on_data : ({ exampleConfig with strobe0Pin := 7 } : Config).wf = false := by decide
theorem test_wf_config_strobe0_out_of_pins : ({ exampleConfig with strobe0Pin := 30 } : Config).wf = false := by decide
theorem test_wf_config_strobe1_out_of_pins : ({ exampleConfig with strobe1Pin := 30 } : Config).wf = false := by decide
theorem test_wf_config_rst_out_of_pins : ({ exampleConfig with rstPin := 30 } : Config).wf = false := by decide
theorem test_wf_config_no_fifo : ({ exampleConfig with fifoDepth := 0 } : Config).wf = false := by decide
theorem test_wf_config_fifo_too_deep : ({ exampleConfig with fifoDepth := 16 } : Config).wf = false := by decide
theorem test_wf_config_too_many_words : ({ exampleConfig with imemWords := 33 } : Config).wf = false := by decide
theorem test_wf_config_program_too_long : ({ exampleConfig with imemWords := 3 } : Config).wf = false := by decide
theorem test_wf_config_no_program : ({ exampleConfig with program := [] } : Config).wf = false := by decide
theorem test_wf_config_no_channel : ({ exampleConfig with numCh := 0 } : Config).wf = false := by decide
theorem test_wf_config_too_many_channels : ({ exampleConfig with numCh := 32 } : Config).wf = false := by decide
theorem test_wf_config_base_not_aligned : ({ exampleConfig with regBase := 2 } : Config).wf = false := by decide
theorem test_wf_config_bad_word :
    ({ exampleConfig with program := [refPull, .effect { next := 2, acts := [] }] } : Config).wf = false := by decide

theorem test_wf_memory_not_sorted : Memory.wf [(2, 0x11), (1, 0x22)] = false := by decide
theorem test_wf_memory_listed_twice : Memory.wf [(1, 0x11), (1, 0x22)] = false := by decide
theorem test_wf_memory_outside_the_space : Memory.wf [(2 ^ 32, 0x11)] = false := by decide
theorem test_memory_put_keeps_the_form :
    Memory.put [(1, 0x11), (5, 0x55)] 3 0x33 = [(1, 0x11), (3, 0x33), (5, 0x55)] := by decide
theorem test_memory_drop_removes_the_entry : Memory.drop [(1, 0x11), (3, 0x33)] 1 = [(3, 0x33)] := by decide

/-! ### Decoding: words written out as {OP, ARG, RSV} from 30_encoding R91 and R94 -/

theorem test_decode_nop : decode 0b00000000_00000000_0000000000000000 = .ok .nop := by rfl
theorem test_decode_pinConfig : decode 0b00000001_00000000_0000000000000000 = .ok .pinConfig := by rfl
theorem test_decode_smLoad : decode 0b00000010_00000000_0000000000000000 = .ok .smLoad := by rfl
theorem test_decode_smConfig : decode 0b00000011_00000000_0000000000000000 = .ok .smConfig := by rfl
theorem test_decode_smEnable : decode 0b00000100_00000000_0000000000000000 = .ok .smEnable := by rfl
theorem test_decode_smDisable : decode 0b00000101_00000000_0000000000000000 = .ok .smDisable := by rfl
theorem test_decode_smRestart : decode 0b00000110_00000000_0000000000000000 = .ok .smRestart := by rfl
theorem test_decode_dmaStart : decode 0b00000111_00000000_0000000000000000 = .ok .dmaStart := by rfl
theorem test_decode_dmaStop : decode 0b00001000_10000001_0000000000000000 = .ok (.dmaStop 129) := by rfl
theorem test_decode_rmArm : decode 0b00001001_00000000_0000000000000000 = .ok .rmArm := by rfl
theorem test_decode_rmClear : decode 0b00001010_00000000_0000000000000000 = .ok .rmClear := by rfl
theorem test_decode_rstDriveLow : decode 0b00001011_00000000_0000000000000000 = .ok .rstDriveLow := by rfl
theorem test_decode_rstRelease : decode 0b00001100_00000000_0000000000000000 = .ok .rstRelease := by rfl
theorem test_decode_errClear : decode 0b00001101_00000000_0000000000000000 = .ok .errClear := by rfl

theorem test_decode_illegal_V2 : decode 0x0E000000 = .error .illegalOpcode := by rfl
theorem test_decode_illegal_V6 : decode 0x0F000001 = .error .illegalOpcode := by rfl
theorem test_decode_reserved_V4 : decode 0x01000001 = .error .reservedBits := by rfl
theorem test_decode_reserved_V5 : decode 0x04010000 = .error .reservedBits := by rfl
theorem test_decode_reserved_V7 : decode 0x08FF0001 = .error .reservedBits := by rfl

theorem test_encode_dmaStop : encode (.dmaStop 5) = 0x08050000 := by decide
theorem test_table_word : decodeTableWord 32 0x08050000 = some (.dmaStop 5) := by rfl
theorem test_table_word_high_bits : decodeTableWord 40 0x0100000000 = none := by rfl

/-- `withFetchWord` makes the word the very next step's command. -/
theorem test_fetch_word : after (step (State.reset.withFetchWord 32 0x01000000)) (·.pins_configured) = some true := by
  decide

/-! ### One step each; expected values from 95_test_vectors -/

/-- STATUS in the state that a command leaves. -/
def statusAfter (i : Instr) (s : State) : Option Word := after (exec i s) (·.readReg 0x04)

/-- ERRINFO in the state that a command leaves. -/
def errinfoAfter (i : Instr) (s : State) : Option Word := after (exec i s) (·.readReg 0x08)

theorem test_nop_V1 : statusAfter .nop State.reset = some 0x00001808 := by decide
theorem test_errClear_V11 :
    errinfoAfter .errClear { State.reset with err := true, errcode := 0x04, err_op := 0x03 } = some 0 := by decide
theorem test_errClear_V72 : after (exec .errClear fatalState) (·.fatal) = some true := by decide
theorem test_pinConfig_V10 : statusAfter .pinConfig State.reset = some 0x00001828 := by decide
theorem test_rstDriveLow_V12 : statusAfter .rstDriveLow State.reset = some 0x00001810 := by decide
theorem test_rstDriveLow_V16 : after (exec .rstDriveLow armed) (fun t => (t.rm_lastFall, t.rm_phase))
    = some (1000, .armedForRise) := by decide
theorem test_rstRelease_V15 : after (exec .rstRelease { State.reset with ext_rst := false }) (·.rstLine) = some false := by
  decide
theorem test_rstRelease_V16 :
    after (exec .rstRelease (drivenLow 600)) (fun t => (t.rm_pending, t.rm_armed)) = some (true, false) := by decide
theorem test_smLoad_V24 : after (exec .smLoad { State.reset with imem_ext := 0x8000000F })
    (fun t => (t.sm_handle, t.imem_own)) = some (27, 0x78000000) := by decide
theorem test_smLoad_V26 : errinfoAfter .smLoad { State.reset with imem_ext := 0x77777777 } = some 0x00010200 := by decide
theorem test_smConfig_V30 : errinfoAfter .smConfig (running 0 []) = some 0x00000305 := by decide
theorem test_smConfig_V31 : after (exec .smConfig { loaded with fifo := [0x11] })
    (fun t => (t.fifo, t.sm_pc, t.data_oe, t.sm_configured)) = some ([], 28, true, true) := by decide
theorem test_smEnable_V32 : errinfoAfter .smEnable { ready with pins_configured := false } = some 0x00000406 := by decide
theorem test_smEnable_V33 : after (exec .smEnable ready) (fun t => (t.sm_enabled, t.sm_pc)) = some (true, 28) := by decide
theorem test_smDisable_V39 : after (exec .smDisable (running 2 [])) (fun t => (t.sm_enabled, t.sm_pc))
    = some (false, 30) := by decide
theorem test_smRestart_V40 :
    after (exec .smRestart { running 1 [0x22, 0x33] with osr := 0x11, osr_count := 8, data_out := 0x10 })
      (fun t => (t.sm_enabled, t.fifo, t.osr, t.osr_count, t.sm_pc, t.data_out))
    = some (false, [], 0, 0, 28, 0x10) := by decide
theorem test_smRestart_V41 : after (exec .smRestart State.reset) (fun t => (t.sm_pc, t.err)) = some (0, false) := by decide
theorem test_dmaStart_V44 : statusAfter .dmaStart { State.reset with dma_src := 0x10000100, dma_count := 3 }
    = some 0x00001E08 := by decide
theorem test_dmaStart_V46 : after (exec .dmaStart { State.reset with ext_claim := 0x7FF }) (·.res_ch) = some 11 := by
  decide
theorem test_dmaStop_V54 : after (exec (.dmaStop 0) (feeding 3 State.reset)) (fun t => (t.feeder_active, t.readReg 0x2C))
    = some (false, 0) := by decide
theorem test_dmaStop_V56 : errinfoAfter (.dmaStop 12) State.reset = some 0x00000808 := by decide
theorem test_rmArm_V66 : errinfoAfter .rmArm pending = some 0x00000909 := by decide
theorem test_rmArm_V68 : after (exec .rmArm (low 0)) (fun t => (t.rm_armed, t.rm_phase)) = some (true, .armedForFall) := by
  decide
theorem test_rmClear_V67 : after (exec .rmClear pending) (·.rm_pending) = some false := by decide
theorem test_rmClear_V69 : statusAfter .rmClear State.reset = some 0x00001808 := by decide

theorem test_illegal_V2 :
    after (step (State.reset.withHostOp (.write .w32 0 0x0E000000))) (fun t => (t.readReg 0x08, t.readReg 0x04))
    = some (0x00000E01, 0x00005808) := by decide
theorem test_write_V18 :
    after (step (State.reset.withHostOp (.write .w32 0x18 0xFFFFFFFF))) (·.readReg 0x18) = some 0x00000FFF := by decide
theorem test_read_V21 : (State.reset.readReg 0x20, State.reset.readReg 0x24, State.reset.readReg 0x28)
    = (0x0A090800, 0x200C0845, 0x001E8804) := by decide
theorem test_streamer_V34 : after (step ((running 0 [0xA5, 0x5A]).withTurn .streamer))
    (fun t => (t.osr, t.osr_count, t.fifo, t.sm_pc)) = some (0xA5, 8, [0x5A], 29) := by decide
theorem test_streamer_V35 : after (step (({ running 1 [] with osr := 0xA5 } : State).withTurn .streamer))
    (fun t => (t.data_out, t.pad 0, t.pad 1, t.osr, t.sm_pc))
    = some (0xA5, .level true, .level false, 0, 30) := by decide
theorem test_dma_V52 : after (step (({ feeding 2 State.reset with
      ch := State.reset.ch.set 0 { own := true, busy := true, read_addr := 0xFFFFFFFF, count := 2 }
      mem := [(0xFFFFFFFF, 0x77)] } : State).withTurn .dma)) (fun t => (t.fifo, (t.chan 0).read_addr))
    = some ([0x77], 0) := by decide
theorem test_dma_V53 : after (step (({ feeding 4 State.reset with mem := [] } : State).withTurn .dma))
    (fun t => (t.fifo, (t.chan 0).busy, (t.chan 0).own, t.readReg 0x08, (t.chan 0).count))
    = some ([], false, true, 0x0100000A, 4) := by decide
theorem test_env_V59 : after (step ((low 499).withTurn (.rst true))) (fun t => (t.rm_pending, t.rm_armed, t.rm_phase))
    = some (false, true, .armedForFall) := by decide
theorem test_env_V60 : after (step ((low 500).withTurn (.rst true))) (·.readReg 0x04) = some 0x00001809 := by decide
theorem test_reset_V73 : after (step (live.withTurn .blockReset)) (·.readReg 0x04) = some 0x00001808 := by decide

/-! ### Host lines (30_encoding R99, R100) -/

theorem test_line_words : (setupLines.map (Line.op exampleConfig))
    = [.write .w32 0 0x01000000, .write .w32 0 0x02000000, .write .w32 0 0x03000000] := by decide
theorem test_line_poll : Line.op exampleConfig (.POLL statusRstLevel 1) = .poll 0x04 3 1 1 := by decide
/-- PENDING has one bit, so it never equals 2: the POLL stays pending. -/
theorem test_poll_beyond_its_field :
    after (step (State.reset.withHostOp (Line.op exampleConfig (.POLL statusPending 2)))) (·.host.length) = some 1 := by
  decide
/-- V63's state before the rise: `now` has wrapped since the fall. -/
theorem test_elapsed_V63 : ({ State.reset with now := 500, rm_lastFall := 2 ^ 64 - 100 } : State).elapsed = 600 := by decide

/-! ### Witnesses: for every statement with hypotheses, a concrete state and operands that meet them, clause by clause -/

theorem witness_DecodeRecoversEveryEncodedInstruction : Instr.wf (.dmaStop 0) = true ∧ Instr.wf (.dmaStop 255) = true := by
  decide

theorem witness_LegalWordsAreExactlyEncodings :
    decode 0x00000000 = .ok .nop ∧ decode 0x0D000000 = .ok .errClear ∧ decode 0x08FF0000 = .ok (.dmaStop 255) :=
  ⟨rfl, rfl, rfl⟩

/-- OP = 0x0E and 0xFF; RSV ≠ 0 at OP 0x0D and at OP 0x08; ARG ≠ 0 at OP 0x07 and 0x09. -/
theorem witness_IllegalWordsRaiseOnlyTheirError :
    State.reset.cfg.regOffset 0 = 0 ∧ State.reset.fatal = false
    ∧ 0x0E ≤ (0x0E000000 : Word).toNat / 2 ^ 24 ∧ 0x0E ≤ (0xFFFFFFFF : Word).toNat / 2 ^ 24
    ∧ ((0x0D000001 : Word).toNat / 2 ^ 24 < 0x0E ∧ (0x0D000001 : Word).toNat % 2 ^ 16 ≠ 0)
    ∧ ((0x08050001 : Word).toNat / 2 ^ 24 < 0x0E ∧ (0x08050001 : Word).toNat % 2 ^ 16 ≠ 0)
    ∧ ((0x07010000 : Word).toNat / 2 ^ 24 < 0x0E ∧ (0x07010000 : Word).toNat / 2 ^ 16 % 2 ^ 8 ≠ 0
      ∧ (0x07010000 : Word).toNat / 2 ^ 24 ≠ 0x08)
    ∧ ((0x09FF0000 : Word).toNat / 2 ^ 24 < 0x0E ∧ (0x09FF0000 : Word).toNat / 2 ^ 16 % 2 ^ 8 ≠ 0
      ∧ (0x09FF0000 : Word).toNat / 2 ^ 24 ≠ 0x08) := by decide

theorem witness_StepRunsTheDecodedCommand :
    State.reset.cfg.regOffset 0 = 0 ∧ decode 0x08050000 = .ok (.dmaStop 5) := ⟨by decide, rfl⟩

theorem witness_ACommandLineRunsItsCommand : Instr.wf .nop = true ∧ Instr.wf (.dmaStop 255) = true := by decide

theorem witness_FatalStateIgnoresOnlyCommands :
    fatalState.fatal = true ∧ fatalState.cfg.regOffset 0x00 = 0 ∧ fatalState.cfg.regOffset 0x10 = 0x10
    ∧ fatalState.cfg.regOffset 0x14 = 0x14 ∧ fatalState.cfg.regOffset 0x18 = 0x18
    ∧ fatalState.cfg.regOffset 0x1C = 0x1C ∧ (fatalState.cfg.regOffset 0xFC).toNat % 4 = 0 := by decide

/-- Every statement about a command in a block that is not fatal. -/
theorem witness_NopErrClearAndPinConfigTakeEffect : State.reset.fatal = false ∧ live.fatal = false := by decide

theorem witness_ResetLineCommandsMoveTheLineAndTheMonitor :
    State.reset.fatal = false
    ∧ ((low 0).ext_rst = false) ∧ ((drivenLow 0).rst_drive = true)
    ∧ (State.reset.ext_rst = true ∧ State.reset.rst_drive = false ∧ State.reset.rm_armed = false)
    ∧ (armed.ext_rst = true ∧ armed.rst_drive = false ∧ armed.rm_armed = true ∧ armed.rm_phase = .armedForFall)
    ∧ (armed.rst_drive = false)
    ∧ (let s := { State.reset with rst_drive := true }; s.ext_rst = true ∧ s.rst_drive = true ∧ s.rm_armed = false)
    ∧ (let s := drivenLow 500; s.fatal = false ∧ s.ext_rst = true ∧ s.rst_drive = true ∧ s.rm_armed = true
      ∧ s.rm_phase = .armedForRise ∧ 500 ≤ (((s.now : Int) - (s.rm_lastFall : Int)) % ((2 ^ s.cfg.tsWidth : Nat) : Int)).toNat)
    ∧ (let s := drivenLow 499; s.fatal = false ∧ s.ext_rst = true ∧ s.rst_drive = true ∧ s.rm_armed = true
      ∧ s.rm_phase = .armedForRise ∧ (((s.now : Int) - (s.rm_lastFall : Int)) % ((2 ^ s.cfg.tsWidth : Nat) : Int)).toNat < 500) := by decide

theorem witness_TargetMovesTheLineAndTheMonitor :
    ((drivenLow 0).rst_drive = true) ∧ (State.reset.ext_rst = true) ∧ (State.reset.rm_armed = false)
    ∧ (armed.rst_drive = false ∧ armed.ext_rst = true ∧ armed.rm_armed = true ∧ armed.rm_phase = .armedForFall)
    ∧ (let s := { armed with rm_phase := .armedForRise }
      s.rst_drive = false ∧ s.ext_rst = true ∧ s.rm_armed = true ∧ s.rm_phase = .armedForRise)
    ∧ (let s := { armed with ext_rst := false }
      s.rst_drive = false ∧ s.ext_rst = false ∧ s.rm_armed = true ∧ s.rm_phase = .armedForFall)
    ∧ (let s := low 500; s.rst_drive = false ∧ s.ext_rst = false ∧ s.rm_armed = true ∧ s.rm_phase = .armedForRise
      ∧ 500 ≤ (((s.now : Int) - (s.rm_lastFall : Int)) % ((2 ^ s.cfg.tsWidth : Nat) : Int)).toNat)
    ∧ (let s := low 499; s.rst_drive = false ∧ s.ext_rst = false ∧ s.rm_armed = true ∧ s.rm_phase = .armedForRise
      ∧ (((s.now : Int) - (s.rm_lastFall : Int)) % ((2 ^ s.cfg.tsWidth : Nat) : Int)).toNat < 500) := by decide

/-- Loaded; no free region; the top region free; the top word taken, so that the next offset is the highest; only the
lowest region free. -/
theorem witness_SmLoadTakesTheHighestFreeRegion :
    State.reset.cfg.wf = true ∧ State.reset.fatal = false ∧ loaded.sm_loaded = true
    ∧ (let s := { State.reset with imem_ext := 0x77777777 }
      s.sm_loaded = false ∧ ∀ o ≤ 28, ∃ j < 4, (s.imem_own.getLsbD (o + j) || s.imem_ext.getLsbD (o + j)) = true)
    ∧ (let s := State.reset
      s.sm_loaded = false ∧ 28 + s.cfg.progLen ≤ s.cfg.imemWords
      ∧ ∀ j < 4, (s.imem_own.getLsbD (28 + j) || s.imem_ext.getLsbD (28 + j)) = false)
    ∧ (let s := { State.reset with imem_ext := 0xFFFFFFF0 }
      s.sm_loaded = false ∧ 0 + s.cfg.progLen ≤ s.cfg.imemWords
      ∧ (∀ j < 4, (s.imem_own.getLsbD (0 + j) || s.imem_ext.getLsbD (0 + j)) = false)
      ∧ ∀ o < 29, 0 < o → ∃ j < 4, (s.imem_own.getLsbD (o + j) || s.imem_ext.getLsbD (o + j)) = true) := by decide

theorem witness_SmConfigClearsThePipelineAndConfigures :
    State.reset.fatal = false ∧ State.reset.sm_loaded = false
    ∧ ((running 0 []).sm_loaded = true ∧ (running 0 []).sm_enabled = true)
    ∧ (loaded.sm_loaded = true ∧ loaded.sm_enabled = false) := by decide

theorem witness_SmEnableNeedsPinsAndConfiguration :
    ready.fatal = false ∧ ({ ready with pins_configured := false } : State).pins_configured = false
    ∧ loaded.sm_configured = false ∧ (ready.pins_configured = true ∧ ready.sm_configured = true) := by decide

theorem witness_SmDisableFreezesAndSmRestartClears : (running 2 [0x11]).fatal = false := by decide

/-- A feeder already active; every channel claimed; channel 0 free; only the last channel free. -/
theorem witness_DmaStartClaimsTheLowestFreeChannel :
    State.reset.fatal = false ∧ (feeding 3 State.reset).feeder_active = true
    ∧ (let s := { State.reset with ext_claim := 0xFFF }
      s.feeder_active = false ∧ ∀ c < s.cfg.numCh, ((s.chan c).own || s.ext_claim.getLsbD c) = true)
    ∧ (let s := State.reset
      s.feeder_active = false ∧ 0 < s.cfg.numCh ∧ ((s.chan 0).own || s.ext_claim.getLsbD 0) = false)
    ∧ (let s := { State.reset with ext_claim := 0x7FF }
      s.feeder_active = false ∧ 11 < s.cfg.numCh ∧ ((s.chan 11).own || s.ext_claim.getLsbD 11) = false
      ∧ ∀ c' < 11, ((s.chan c').own || s.ext_claim.getLsbD c') = true) := by decide

theorem witness_DmaStopReleasesOnlyAnOwnedChannel :
    (feeding 3 State.reset).fatal = false ∧ (feeding 3 State.reset).cfg.numCh ≤ 12
    ∧ (11 < (feeding 3 State.reset).cfg.numCh ∧ ((feeding 3 State.reset).chan 11).own = false)
    ∧ (0 < (feeding 3 State.reset).cfg.numCh ∧ ((feeding 3 State.reset).chan 0).own = true) := by decide

theorem witness_StoppingTheFeedersChannelFreesThePool : live.Inv ∧ live.fatal = false ∧ live.feeder_active = true :=
  ⟨live_inv, by decide, by decide⟩

theorem witness_RmArmIsRefusedWhilePendingAndRmClearOnlyClears :
    pending.fatal = false ∧ pending.rm_pending = true ∧ State.reset.rm_pending = false := by decide

/-- Both failing checks hold at once. -/
theorem witness_TheFirstFailingCheckOfACommandDecides :
    State.reset.cfg.regOffset 0 = 0 ∧ State.reset.fatal = false
    ∧ (decode 0x02000000).toOption = some .smLoad ∧ (decode 0x03000000).toOption = some .smConfig
    ∧ (decode 0x07000000).toOption = some .dmaStart
    ∧ (let s := { loaded with imem_ext := 0xFFFFFFFF }; s.sm_loaded = true ∧ s.placement = none)
    ∧ (let s := { State.reset with sm_enabled := true }; s.sm_loaded = false ∧ s.sm_enabled = true)
    ∧ (let s := { feeding 3 State.reset with ext_claim := 0xFFE }
      s.feeder_active = true ∧ s.freeChannel = none) := by decide

theorem witness_StatusShowsTheState :
    live.cfg.regOffset 0x04 = 0x04 ∧ ({ live with fifo := List.replicate 15 0xFF } : State).fifo.length < 16 := by decide

theorem witness_ErrinfoResultAndRemainShowTheState :
    live.feeder_active = true ∧ State.reset.feeder_active = false ∧ live.cfg.regOffset 0x08 = 0x08
    ∧ live.cfg.regOffset 0x0C = 0x0C ∧ live.cfg.regOffset 0x2C = 0x2C := by decide

/-- The example parameters, and others at the bounds of 00_scope R6. -/
theorem witness_ConfigurationRegistersShowTheParameters :
    State.reset.cfg.wf = true
    ∧ ({ sidesetEn := true, sidesetBase := 29, shiftDir := false, numPins := 32, dataBase := 24, strobe0Pin := 23,
         strobe1Pin := 31, rstPin := 31, fifoDepth := 15, imemWords := 32, numCh := 31, tsWidth := 10, regBase := 0xFFFFFF00,
         program := List.replicate 32 .stall } : Config).wf = true
    ∧ State.reset.cfg.regOffset 0x20 = 0x20 ∧ State.reset.cfg.regOffset 0x24 = 0x24
    ∧ State.reset.cfg.regOffset 0x28 = 0x28 := by decide

theorem witness_PlainWritesStoreOnlyTheirRegister :
    live.cfg.regOffset 0x10 = 0x10 ∧ live.cfg.regOffset 0x14 = 0x14 ∧ live.cfg.regOffset 0x18 = 0x18
    ∧ live.cfg.regOffset 0x1C = 0x1C
    ∧ ((live.cfg.regOffset 0x04).toNat % 4 = 0 ∧ live.cfg.regOffset 0x04 ∈ ([0x04, 0x08, 0x0C] : List Byte))
    ∧ ((live.cfg.regOffset 0x20).toNat % 4 = 0 ∧ 0x20 ≤ (live.cfg.regOffset 0x20).toNat)
    ∧ ((live.cfg.regOffset 0xFC).toNat % 4 = 0 ∧ 0x20 ≤ (live.cfg.regOffset 0xFC).toNat) := by decide

theorem witness_ReadsReturnTheRegisterAndChangeNothing :
    (live.cfg.regOffset 0xFC).toNat % 4 = 0 ∧ live.cfg.regOffset 0x10 = 0x10 ∧ live.cfg.regOffset 0x14 = 0x14
    ∧ live.cfg.regOffset 0x18 = 0x18 ∧ live.cfg.regOffset 0x1C = 0x1C ∧ live.cfg.regOffset 0x00 = 0x00
    ∧ 0x30 ≤ (live.cfg.regOffset 0x30).toNat := by decide

theorem witness_UndefinedAccessesAreRefused :
    Width.w8 ≠ .w32 ∧ Width.w16 ≠ .w32 ∧ (live.cfg.regOffset 0x01).toNat % 4 ≠ 0
    ∧ (live.cfg.regOffset 0xFF).toNat % 4 ≠ 0 := by decide

theorem witness_PollsAndWaitsHoldTheHostUntilMet :
    (let o := State.reset.cfg.regOffset 0x04
     o.toNat % 4 = 0 ∧ (State.reset.readReg o).toNat / 2 ^ 3 % 2 ^ 1 = 1
      ∧ (State.reset.readReg o).toNat / 2 ^ 0 % 2 ^ 1 ≠ 1 ∧ 2 ^ statusPending.width ≤ 2)
    ∧ (let s := { armed with host_wait := some 100 }
      s.host_wait = some 100 ∧ 100 ≤ 100 ∧ 100 < 101)
    ∧ State.reset.host_wait = none ∧ 0 < 1 := by decide

theorem witness_TheNextReadSeesTheCommandsEffect :
    State.reset.cfg.regOffset 0 = 0 ∧ decode 0x01000000 = .ok .pinConfig
    ∧ exec .pinConfig State.reset = .next { State.reset with pins_configured := true }
    ∧ (State.reset.cfg.regOffset 0x04).toNat % 4 = 0 := ⟨by decide, rfl, rfl, by decide⟩

theorem witness_APulseIsAcceptedExactlyFrom500Ticks :
    armed.rm_armed = true ∧ armed.rm_phase = .armedForFall ∧ armed.ext_rst = true ∧ armed.rst_drive = false
    ∧ armed.fatal = false ∧ armed.now < 2 ^ armed.cfg.tsWidth ∧ 0 < 2 ^ armed.cfg.tsWidth ∧ 499 < 2 ^ armed.cfg.tsWidth
    ∧ 500 < 2 ^ armed.cfg.tsWidth ∧ 2 ^ 64 - 1 < 2 ^ armed.cfg.tsWidth := by decide

/-- A fall, an accepted rise, RM_CLEAR, RM_ARM, a glitch. -/
theorem witness_MonitorFieldsHaveOnlyTheirWriters :
    (∃ t, step (armed.withTurn (.rst false)) = .next t ∧ t.rm_lastFall ≠ armed.rm_lastFall
      ∧ armed.rm_phase = .armedForFall ∧ t.rm_phase = .armedForRise)
    ∧ (∃ t, step ((low 500).withTurn (.rst true)) = .next t ∧ (low 500).rm_pending = false ∧ t.rm_pending = true
      ∧ (low 500).rm_armed = true ∧ t.rm_armed = false)
    ∧ (∃ t, step (pending.withHostOp (.write .w32 0 0x0A000000)) = .next t ∧ pending.rm_pending = true
      ∧ t.rm_pending = false)
    ∧ (∃ t, step (State.reset.withHostOp (.write .w32 0 0x09000000)) = .next t ∧ State.reset.rm_armed = false
      ∧ t.rm_armed = true)
    ∧ (∃ t, step ((low 499).withTurn (.rst true)) = .next t ∧ (low 499).rm_phase = .armedForRise
      ∧ t.rm_phase = .armedForFall) :=
  ⟨⟨_, rfl, by decide⟩, ⟨_, rfl, by decide⟩, ⟨_, rfl, by decide⟩, ⟨_, rfl, by decide⟩, ⟨_, rfl, by decide⟩⟩

/-- A run of three ticks, in which no command runs. -/
theorem run_reaches {n : Nat} {s t u : State} (h : run n s = .next t) (h' : RunsTo n s u) : u = t := by
  unfold RunsTo at h'; rw [h] at h'; cases h'; rfl

/-- In a turn that is not the host's no command runs. -/
theorem no_command {s : State} {turn : Turn} {rest : List Turn} (h : s.sched = turn :: rest) (ht : turn ≠ .host)
    (i : Instr) : ¬ s.runsCommand i := by
  rintro ⟨_, _, _, ⟨rest', h'⟩, _⟩
  rw [h] at h'; cases h'; exact ht rfl

theorem no_turn {s : State} {turn turn' : Turn} {rest : List Turn} (h : s.sched = turn :: rest) (ht : turn ≠ turn') :
    ¬ s.takesTurn turn' := by
  rintro ⟨rest', h'⟩
  rw [h] at h'; cases h'; exact ht rfl

theorem witness_BetweenTwoEventsComeRmClearThenRmArm :
    let s : State := { pending with sched := [.rst false, .tick, .rst true] }
    s.rm_pending = true ∧ s.rm_armed = false ∧ (∃ t, RunsTo 2 s t)
    ∧ (∀ k < 2, ∀ u, RunsTo k s u →
      ¬ u.runsCommand .rmClear ∧ ¬ u.runsCommand .rmArm ∧ ¬ u.takesTurn .blockReset) := by
  refine ⟨rfl, rfl, ⟨_, rfl⟩, ?_⟩
  intro k hk u hu
  have hk' : k = 0 ∨ k = 1 := by omega
  rcases hk' with rfl | rfl
  · have h := run_reaches rfl hu
    have hs : u.sched = .rst false :: [.tick, .rst true] := by rw [h]
    exact ⟨no_command hs (by decide) _, no_command hs (by decide) _, no_turn hs (by decide)⟩
  · have h := run_reaches rfl hu
    have hs : u.sched = .tick :: [.rst true] := by rw [h]; rfl
    exact ⟨no_command hs (by decide) _, no_command hs (by decide) _, no_turn hs (by decide)⟩

/-- A transfer with one place left, a fault, and a turn that passes for each of its three reasons. -/
theorem witness_DmaTurnTransfersOneByteOrFaults :
    (let s := { feeding 1 State.reset with fifo := List.replicate 7 0xFF }
     s.feeder_active = true ∧ (s.chan s.feeder_ch.toNat).busy = true ∧ s.fifo.length < s.cfg.fifoDepth
      ∧ s.mem.read (s.chan s.feeder_ch.toNat).read_addr.toNat = some 0x11)
    ∧ (let s := { feeding 1 State.reset with mem := [] }
      s.feeder_active = true ∧ (s.chan s.feeder_ch.toNat).busy = true ∧ s.fifo.length < s.cfg.fifoDepth
      ∧ s.mem.read (s.chan s.feeder_ch.toNat).read_addr.toNat = none)
    ∧ State.reset.feeder_active = false ∧ (State.reset.chan State.reset.feeder_ch.toNat).busy = false
    ∧ (let s := { feeding 1 State.reset with fifo := List.replicate 8 0xFF }; s.cfg.fifoDepth ≤ s.fifo.length) := by
  decide

/-- A DMA_START on an empty FIFO; a transfer, a pull, both on a FIFO that holds the payload in order. -/
theorem witness_TheFifoHoldsThePayloadInOrder :
    (∃ s t : State, s.Inv ∧ s.fifo = [] ∧ step s = .next t ∧ s.runsCommand .dmaStart)
    ∧ (∃ s t : State, s.Inv ∧ s.feeder_active = true ∧ s.holdsPayload ∧ step s = .next t ∧ t.feeder_active = true
      ∧ (∀ a b, ¬ s.takesTurn (.payload a b)) ∧ s.fifo ≠ t.fifo) := by
  constructor
  · refine ⟨State.reset.withHostOp (.write .w32 0 0x07000000), _, ?_, rfl, rfl, 0, 0x07000000, [], ⟨[], rfl⟩, rfl, ?_⟩
    · have h : State.reset.Inv := by
        constructor <;> decide
      exact inv_inputs h _ _
    · exact ⟨by decide, rfl, rfl⟩
  · refine ⟨live.withTurn .dma, _, inv_inputs live_inv _ _, by decide, ?_, rfl, by decide, ?_, by decide⟩
    · unfold State.holdsPayload; decide
    · intro a b; exact no_turn (turn := .dma) (rest := []) rfl (by intro h; cases h)

theorem witness_ACycleNeverPushesMoreThanItsCount :
    let s : State := { live with sched := [.dma, .streamer, .dma] }
    s.Inv ∧ (∀ k < 2, ∀ u, RunsTo k s u → u.feeder_active = true)
    ∧ (∀ k < 2, ∀ u, RunsTo k s u → ¬ u.runsCommand .smConfig ∧ ¬ u.runsCommand .smRestart)
    ∧ pushesIn 2 s = 1 ∧ pullsIn 2 s = 1 := by
  refine ⟨inv_inputs live_inv _ _, ?_, ?_, by decide, by decide⟩
  · intro k hk u hu
    have hk' : k = 0 ∨ k = 1 := by omega
    rcases hk' with rfl | rfl
    · rw [run_reaches rfl hu]; decide
    · rw [run_reaches rfl hu]; decide
  · intro k hk u hu
    have hk' : k = 0 ∨ k = 1 := by omega
    rcases hk' with rfl | rfl
    · have hs : u.sched = .dma :: [.streamer, .dma] := by rw [run_reaches rfl hu]
      exact ⟨no_command hs (by decide) _, no_command hs (by decide) _⟩
    · have hs : u.sched = .streamer :: [.dma] := by rw [run_reaches rfl hu]; rfl
      exact ⟨no_command hs (by decide) _, no_command hs (by decide) _⟩

theorem witness_NoByteIsPushedAfterDmaStop :
    (∃ t, step ((running 0 [0x11]).withTurn .dma) = .next t ∧ (running 0 [0x11]).feeder_active = false)
    ∧ (∃ t, step (State.reset.withHostOp (.write .w32 0 0x07000000)) = .next t ∧ State.reset.feeder_active = false
      ∧ t.feeder_active = true) := ⟨⟨_, rfl, by decide⟩, ⟨_, rfl, by decide⟩⟩

theorem witness_TheReferenceProgramShiftsBytes :
    (running 0 []).sm_enabled = true ∧ (running 0 []).cfg.program = refProgram
    ∧ (((running 0 []).sm_pc - (running 0 []).sm_handle).toNat = 0 ∧ (running 0 []).fifo = [])
    ∧ (((running 0 [0xA5]).sm_pc - (running 0 [0xA5]).sm_handle).toNat = 0 ∧ (running 0 [0xA5]).fifo = 0xA5 :: [])
    ∧ ((running 1 []).sm_pc - (running 1 []).sm_handle).toNat = 1
    ∧ (((running 2 []).sm_pc - (running 2 []).sm_handle).toNat = 2 ∧ (running 2 []).strobe0_in = false)
    ∧ (((running 3 []).sm_pc - (running 3 []).sm_handle).toNat = 3 ∧ (running 3 []).strobe0_in = false)
    ∧ (let s := { running 2 [] with strobe0_in := true }
      (s.sm_pc - s.sm_handle).toNat = 2 ∧ s.strobe0_in = true)
    ∧ (let s := { running 3 [] with strobe0_in := true }
      (s.sm_pc - s.sm_handle).toNat = 3 ∧ s.strobe0_in = true) := by decide

/-- A configuration with a program whose one effect is `e`. -/
def oneEffect (e : BusEffect) : State :=
  { running 0 [] with cfg := { exampleConfig with program := [.effect e] } }

theorem witness_ADisabledStreamerIsFrozenAndABrokenOneFaults :
    ready.sm_enabled = false
    ∧ ((running 4 []).sm_enabled = true ∧ (running 4 []).cfg.progLen ≤ ((running 4 []).sm_pc - (running 4 []).sm_handle).toNat)
    ∧ (∀ e ∈ ([{ next := 1, acts := [] }, { next := 0, acts := [.pull, .pull] },
          { next := 0, acts := [.writeData .osr, .writeData .osr] },
          { next := 0, acts := [.writeSide 1, .writeSide 1] }, { next := 0, acts := [.writeSide 1] }] : List BusEffect),
        (oneEffect e).sm_enabled = true
        ∧ (oneEffect e).cfg.program[((oneEffect e).sm_pc - (oneEffect e).sm_handle).toNat]? = some (.effect e)
        ∧ BusTree.eval (oneEffect e).busView (.effect e) = some e
        ∧ ((oneEffect e).cfg.progLen ≤ e.next ∨ 2 ≤ e.acts.countP BusAction.isPull
          ∨ 2 ≤ e.acts.countP BusAction.isData ∨ 2 ≤ e.acts.countP BusAction.isSide
          ∨ ((oneEffect e).cfg.sidesetEn = false ∧ ∃ a ∈ e.acts, BusAction.isSide a = true))) := by decide

theorem witness_ProgramStepsWriteOnlyTheDatapath :
    (∃ t, step ((running 0 [0x11]).withTurn .streamer) = .next t ∧ (running 0 [0x11]).cfg.sidesetEn = false)
    ∧ (∃ t, step (live.withTurn .dma) = .next t ∧ live.fifo.length < t.fifo.length) :=
  ⟨⟨_, rfl, by decide⟩, ⟨_, rfl, by decide⟩⟩

theorem witness_EachStrobePulsePresentsOneByte :
    ((running 0 [0x11, 0x22]).sm_enabled = true ∧ (running 0 [0x11, 0x22]).cfg.program = refProgram
      ∧ (running 0 [0x11, 0x22]).sm_pc = (running 0 [0x11, 0x22]).sm_handle
      ∧ (running 0 [0x11, 0x22]).fifo = 0x11 :: [0x22])
    ∧ ((running 2 [0x22, 0x33]).sm_enabled = true ∧ (running 2 [0x22, 0x33]).cfg.program = refProgram
      ∧ (running 2 [0x22, 0x33]).sm_pc = (running 2 [0x22, 0x33]).sm_handle + 2
      ∧ (running 2 [0x22, 0x33]).strobe0_in = false ∧ (running 2 [0x22, 0x33]).fifo = [0x22, 0x33] ++ []) := by decide

theorem witness_EveryStepKeepsTheInvariant :
    ∃ t, (live.withTurn .streamer).Inv ∧ step (live.withTurn .streamer) = .next t :=
  ⟨_, inv_inputs live_inv _ _, rfl⟩

theorem witness_ResetMeetsTheInvariant : exampleConfig.wf = true := by decide

/-- A next state, and a refused access of each kind. -/
theorem witness_OnlyAnUndefinedAccessStopsAWellFormedBlock :
    (live.withTurn .streamer).Inv ∧ after (step (live.withTurn .streamer)) (·.sm_pc) = some 29
    ∧ refusalOf (step (live.withHostOp (.write .w8 0 0))) = some .undefinedAccess
    ∧ refusalOf (step (live.withHostOp (.read .w32 2))) = some .undefinedAccess
    ∧ refusalOf (step (live.withHostOp (.poll 1 0 1 0))) = some .undefinedAccess :=
  ⟨inv_inputs live_inv _ _, by decide, by decide, by decide, by decide⟩

theorem witness_NothingRunsByItselfAfterBlockReset :
    live.cfg.wf = true ∧ (∃ t, step (live.withTurn .blockReset) = .next t) ∧ live.ext_rst = true
    ∧ (low 0).ext_rst = false := ⟨by decide, ⟨_, rfl⟩, by decide, by decide⟩

/-- Each of the five fields changed by its command. -/
theorem witness_OnlyCommandsMoveTheLifeCycle :
    (∃ t, step (State.reset.withHostOp (.write .w32 0 0x02000000)) = .next t ∧ t.sm_loaded ≠ State.reset.sm_loaded)
    ∧ (∃ t, step (loaded.withHostOp (.write .w32 0 0x03000000)) = .next t ∧ t.sm_configured ≠ loaded.sm_configured)
    ∧ (∃ t, step (ready.withHostOp (.write .w32 0 0x04000000)) = .next t ∧ t.sm_enabled ≠ ready.sm_enabled)
    ∧ (∃ t, step ((running 0 []).withHostOp (.write .w32 0 0x05000000)) = .next t
      ∧ t.sm_enabled ≠ (running 0 []).sm_enabled)
    ∧ (∃ t, step (State.reset.withHostOp (.write .w32 0 0x01000000)) = .next t
      ∧ t.pins_configured ≠ State.reset.pins_configured)
    ∧ (∃ t, step (live.withHostOp (.write .w32 0 0x08000000)) = .next t ∧ t.feeder_active ≠ live.feeder_active) :=
  ⟨⟨_, rfl, by decide⟩, ⟨_, rfl, by decide⟩, ⟨_, rfl, by decide⟩, ⟨_, rfl, by decide⟩, ⟨_, rfl, by decide⟩,
    ⟨_, rfl, by decide⟩⟩

theorem witness_ErrorRecordsAreSticky :
    (∃ t, step (fatalState.withTurn .tick) = .next t ∧ fatalState.fatal = true)
    ∧ (∃ t, step (({ State.reset with err := true, errcode := 0x04 } : State).withTurn .tick) = .next t)
    ∧ (∃ t, step (State.reset.withHostOp (.write .w32 0 0x0E000000)) = .next t
      ∧ (t.err, t.errcode, t.err_op, t.err_async)
        ≠ (State.reset.err, State.reset.errcode, State.reset.err_op, State.reset.err_async)) :=
  ⟨⟨_, rfl, by decide⟩, ⟨_, rfl⟩, ⟨_, rfl, by decide⟩⟩

theorem witness_TheFatalStateStopsCommandsOnly :
    Turn.dma ≠ .host ∧ Turn.dma ≠ .blockReset ∧ (∃ t, step (live.withTurn .dma) = .next t ∧ t.fifo ≠ live.fifo) :=
  ⟨by decide, by decide, ⟨_, rfl, by decide⟩⟩

theorem witness_OnlyThePlatformChangesPayloadMemory :
    live.mem.wf = true
    ∧ (∃ t, step (live.withTurn .dma) = .next t ∧ ∀ a b, ¬ (live.withTurn .dma).takesTurn (.payload a b))
    ∧ (∃ t, step (live.withTurn (.payload 0xFFFFFFFF (some 0xFF))) = .next t)
    ∧ (live.withTurn (.payload 0xFFFFFFFF (some 0xFF))).takesTurn (.payload 0xFFFFFFFF (some 0xFF)) :=
  ⟨by decide, ⟨_, rfl, fun a b => no_turn (turn := .dma) rfl (by intro h; cases h)⟩, ⟨_, rfl⟩, ⟨_, rfl⟩⟩

/-- Pins not configured; a data pin without side-set; shared pins of each owner; a pin of neither group. -/
theorem witness_PadsShowTheDrivenLevels :
    (drivenLow 0).rst_drive = true ∧ State.reset.rst_drive = false
    ∧ State.reset.pins_configured = false ∧ loaded.data_oe = false
    ∧ (ready.pins_configured = true ∧ ready.data_oe = true ∧ ready.cfg.sidesetEn = false)
    ∧ (let s := { ready with cfg := { exampleConfig with sidesetEn := true, sidesetBase := 6 }, side_owner := 0b010 }
      s.cfg.sidesetEn = true ∧ s.cfg.dataBase + 5 < s.cfg.sidesetBase
      ∧ s.side_owner.getLsbD (s.cfg.dataBase + 6 - s.cfg.sidesetBase) = false
      ∧ s.side_owner.getLsbD 1 = true ∧ s.cfg.dataBase + 8 ≤ s.cfg.sidesetBase + 2
      ∧ (9 < s.cfg.dataBase ∨ s.cfg.dataBase + 8 ≤ 9) ∧ s.cfg.sidesetBase + 3 ≤ 9) := by decide

/-- A rise after 500 and after 499 ticks, by the target and by the block; and one during which `now` has wrapped. -/
theorem witness_AcceptanceIsR248sOnThe64BitTimebase :
    (let s := low 500; s.cfg.tsWidth = 64 ∧ s.rm_armed = true ∧ s.rm_phase = .armedForRise ∧ s.rst_drive = false
      ∧ s.ext_rst = false ∧ 500 ≤ (BitVec.ofNat 64 s.now - BitVec.ofNat 64 s.rm_lastFall).toNat)
    ∧ (let s := low 499; s.rst_drive = false ∧ s.ext_rst = false
      ∧ (BitVec.ofNat 64 s.now - BitVec.ofNat 64 s.rm_lastFall).toNat < 500)
    ∧ (let s := drivenLow 500; s.cfg.tsWidth = 64 ∧ s.rm_armed = true ∧ s.rm_phase = .armedForRise ∧ s.rst_drive = true
      ∧ s.ext_rst = true ∧ s.fatal = false ∧ 500 ≤ (BitVec.ofNat 64 s.now - BitVec.ofNat 64 s.rm_lastFall).toNat)
    ∧ (let s := drivenLow 499; s.rst_drive = true ∧ s.ext_rst = true ∧ s.fatal = false
      ∧ (BitVec.ofNat 64 s.now - BitVec.ofNat 64 s.rm_lastFall).toNat < 500)
    ∧ (let s := { low 0 with now := 400, rm_lastFall := 2 ^ 64 - 100 }
      500 ≤ (BitVec.ofNat 64 s.now - BitVec.ofNat 64 s.rm_lastFall).toNat) := by decide

/-- Enabled at a word with the one effect `e`, side-set on pins 6 to 8 of which 6 and 7 are data pins. -/
def atEffect (e : BusEffect) (f : List Byte) : State :=
  { running 0 f with
    cfg := { exampleConfig with sidesetEn := true, sidesetBase := 6, program := List.replicate 4 (.effect e) }
    osr := 0xA5 }

/-- Each kind of part once: side-set after data, `osr` put after the pull, the last word next. -/
def everyPart : BusEffect :=
  { next := 3
    acts := [.pull, .writeData .osr, .writeSide 0b101, .setOsr (.const 0x3C), .setOsrCount 4, .setIsr .osr, .setIsrCount 8] }

theorem test_effect_outputs : after (step ((atEffect everyPart [0x11, 0x22]).withTurn .streamer))
    (fun t => (t.fifo, t.data_out, t.sideset_out, t.side_owner, t.sm_pc)) = some ([0x22], 0xA5, 0b101, 0b111, 31) := by decide

theorem test_effect_shift_registers : after (step ((atEffect everyPart [0x11, 0x22]).withTurn .streamer))
    (fun t => (t.osr, t.osr_count, t.isr, t.isr_count)) = some (0x3C, 4, 0xA5, 8) := by decide

/-- `WriteData` takes back the pins that side-set shares with it (41_streamer R164). -/
theorem test_effect_owner :
    after (step ((atEffect { next := 0, acts := [.writeSide 0b101, .writeData (.const 0x5A)] } []).withTurn .streamer))
      (fun t => (t.sideset_out, t.side_owner, t.data_out)) = some (0b101, 0b100, 0x5A) := by decide

/-- A stall, a pull that finds no byte, an effect with a byte to pull, an effect that pulls none. -/
theorem witness_AProgramStepDoesWhatItsPartsSay :
    (let s := running 3 [];
      s.sm_enabled = true ∧ s.cfg.program[(s.sm_pc - s.sm_handle).toNat]? = some refWaitHi
      ∧ refWaitHi.eval s.busView = none)
    ∧ (let s := atEffect everyPart [];
      s.sm_enabled = true ∧ s.cfg.program[(s.sm_pc - s.sm_handle).toNat]? = some (.effect everyPart)
      ∧ (BusTree.effect everyPart).eval s.busView = some everyPart ∧ everyPart.wf s.cfg = true ∧ s.fifo = []
      ∧ .pull ∈ everyPart.acts)
    ∧ (let s := atEffect everyPart [0x11, 0x22];
      everyPart.wf s.cfg = true ∧ s.fifo ≠ [] ∧ .writeData .osr ∈ everyPart.acts ∧ .writeSide 0b101 ∈ everyPart.acts)
    ∧ (let e : BusEffect := { next := 0, acts := [] };
      e.wf (atEffect e []).cfg = true ∧ .pull ∉ e.acts) := by decide

/-- The strobe asserted at WAITHI, the streamer's step past it, the strobe released. -/
theorem witness_HeldStrobePulsesPresentOneByteEach :
    let s : State := { running 3 [0x22] with sched := [.stb0 true, .streamer, .stb0 false] }
    s.sm_loaded = true ∧ s.cfg.program = refProgram ∧ (∃ t, RunsTo 3 s t ∧ t.strobe0_in = false)
    ∧ strobeAssertions 3 s = 1 ∧ s.bytesAhead = 1
    ∧ (∀ k < 3, ∀ u, RunsTo k s u → u.holdsStrobe ∧ u.keepsPipeline) := by
  refine ⟨by decide, by decide, ⟨_, rfl, by decide⟩, by decide, by decide, ?_⟩
  intro k hk u hu
  have hk' : k = 0 ∨ k = 1 ∨ k = 2 := by omega
  rcases hk' with rfl | rfl | rfl
  · have h := run_reaches rfl hu
    have hs : u.sched = .stb0 true :: [.streamer, .stb0 false] := by rw [h]
    exact ⟨⟨fun _ => .inr (by subst h; decide), fun hf => absurd hf (no_turn hs (by decide))⟩,
      no_command hs (by decide) _, no_command hs (by decide) _, no_turn hs (by decide)⟩
  · have h := run_reaches rfl hu
    have hs : u.sched = .streamer :: [.stb0 false] := by rw [h]
    exact ⟨⟨fun hf => absurd hf (no_turn hs (by decide)), fun hf => absurd hf (no_turn hs (by decide))⟩,
      no_command hs (by decide) _, no_command hs (by decide) _, no_turn hs (by decide)⟩
  · have h := run_reaches rfl hu
    have hs : u.sched = .stb0 false :: [] := by rw [h]; rfl
    exact ⟨⟨fun hf => absurd hf (no_turn hs (by decide)), fun _ => .inr (by subst h; decide)⟩,
      no_command hs (by decide) _, no_command hs (by decide) _, no_turn hs (by decide)⟩

end Sys2Proof.Tests
end

section
/-! The invariant of the block (`State.Inv`, `Safety.lean`) is kept by every operation, every command and every agent's
turn. Each lemma gives the clauses that speak of a field it changes; the others are the old state's. -/

namespace Sys2Proof.Machine

/-! ### Results that keep the invariant -/

/-- If the result is a next state, that state meets the invariant. -/
def EndsInInv (r : Result) : Prop := ∀ t, r = .next t → t.Inv

theorem endsInInv_next {t : State} (h : t.Inv) : EndsInInv (.next t) := by
  rintro _ ⟨⟩; exact h

theorem endsInInv_fault (f : Fault) : EndsInInv (.fault f) := by
  rintro _ ⟨⟩

theorem endsInInv_unlessFatal {s : State} {r : Result} (h : s.Inv) (hr : EndsInInv r) :
    EndsInInv (unlessFatal s r) := by
  unfold unlessFatal
  split
  · exact endsInInv_next h
  · exact hr

/-! ### After reset -/

theorem chan_initial (c : Config) (k : Nat) : (State.initial c).chan k = Channel.reset := by
  simp only [State.chan, State.initial, List.getD_eq_getElem?_getD, List.getElem?_replicate]
  split <;> rfl

/-- Keeping the low bits of 0 gives 0. -/
@[simp] theorem lowBits_zero (n : Nat) : lowBits n 0 = 0 := BitVec.zero_and

theorem initial_inv {c : Config} (h : c.wf = true) : (State.initial c).Inv where
  cfg_wf := h
  mem_wf := rfl
  now_bound := Nat.two_pow_pos _
  lastFall_bound := Nat.two_pow_pos _
  fifo_bound := Nat.zero_le _
  channels := List.length_replicate
  feeder_in_pool := nofun
  feeder_owns k _ := by rw [chan_initial]; exact ⟨nofun, fun hk => nomatch hk.1⟩
  busy_remaining k _ := by rw [chan_initial]; exact nofun
  result_channel := nofun
  ext_claim_legal := lowBits_zero _
  imem_ext_legal := lowBits_zero _
  loaded_region := nofun
  unloaded_region _ := ⟨rfl, rfl, rfl⟩
  configured_loaded := nofun
  enabled_ready := nofun
  output_enable := rfl
  pc_in_program := nofun
  pending_disarmed := nofun
  rise_phase := nofun
  error_record := ⟨Nat.zero_le _, iff_of_true rfl rfl⟩
  async_record := ⟨nofun, nofun⟩
  fatal_record := ⟨Nat.zero_le _, iff_of_true rfl rfl⟩
  sideset_off _ := ⟨rfl, rfl⟩

theorem blockReset_inv {s : State} (h : s.Inv) : s.blockReset.Inv :=
  { initial_inv h.cfg_wf with
    mem_wf := h.mem_wf
    rise_phase := nofun }

/-! ### The inputs of the run -/

theorem sameBlock_inv {s u : State} (h : s.Inv) (hu : SameBlock s u) : u.Inv := by
  obtain ⟨_, _, _, _, rfl⟩ := hu
  exact { h with }

theorem tick_inv {s : State} (h : s.Inv) : s.tick.Inv :=
  { h with now_bound := timeAdd_lt s.cfg s.now 1 }

theorem payload_inv {s : State} (h : s.Inv) (a : Word) (b : Option Byte) :
    State.Inv { s with mem := s.mem.update a.toNat b } :=
  { h with mem_wf := Memory.update_wf a.isLt h.mem_wf }

theorem writeReg_inv {s : State} (h : s.Inv) (o : Byte) (v : Word) : (s.writeReg o v).Inv := by
  unfold State.writeReg
  split
  · exact { h with }
  · exact { h with }
  · exact { h with ext_claim_legal := lowBits_lowBits _ _ }
  · exact { h with imem_ext_legal := lowBits_lowBits _ _ }
  · exact h

/-! ### Error records -/

/-- Of the errors that a command records, the DMA's read fault is none (60_exceptions R281). -/
theorem raiseError_inv {s : State} (h : s.Inv) (code : ErrorCode) (op : Byte)
    (hc : code ≠ .dmaReadFault := by decide) : (s.raiseError code op).Inv :=
  { h with
    error_record := by cases code <;> simp [ErrorCode.byte]
    async_record := by cases code <;> simp_all [ErrorCode.byte] }

theorem raiseFatal_inv {s : State} (h : s.Inv) (cause : FatalCause) (op : Byte) : (s.raiseFatal cause op).Inv :=
  { h with fatal_record := by cases cause <;> simp [FatalCause.byte] }

theorem clearError_inv {s : State} (h : s.Inv) : s.clearError.Inv :=
  { h with error_record := by simp, async_record := by simp }

theorem decodeErrorCode_ne_dmaReadFault (e : DecodeError) : decodeErrorCode e ≠ .dmaReadFault := by
  cases e <;> nofun

/-! ### The monitor -/

/-- Whoever moves the reset line, the edge rules keep the invariant: a rise in ArmedForRise leaves that phase, and only
a fall enters it (43_reset_monitor R243 to R250). -/
theorem moveLine_inv {s : State} (h : s.Inv) (ext drive : Bool) :
    (State.lineChanged { s with ext_rst := ext, rst_drive := drive } s.rstLine).Inv := by
  rcases lineChanged_cases { s with ext_rst := ext, rst_drive := drive } s.rstLine with
    e | ⟨_, hlow, harmed, _, e⟩ | ⟨_, _, _, _, _, e⟩ | ⟨_, _, _, _, _, e⟩
  · rw [e]
    refine { h with rise_phase := fun hp => ?_ }
    obtain ⟨harmed, hlow⟩ := h.rise_phase hp
    refine ⟨harmed, Bool.eq_false_iff.2 fun hhigh => ?_⟩
    rw [hlow, lineChanged_rise hhigh harmed hp] at e
    have hfall := congrArg State.rm_phase e
    split at hfall <;> exact absurd (hfall.trans hp) nofun
  · rw [e]
    exact { h with lastFall_bound := h.now_bound, rise_phase := fun _ => ⟨harmed, hlow⟩ }
  · rw [e]
    exact { h with pending_disarmed := fun _ => rfl, rise_phase := nofun }
  · rw [e]
    exact { h with rise_phase := nofun }

theorem setExtRst_inv {s : State} (h : s.Inv) (v : Bool) : (s.setExtRst v).Inv := moveLine_inv h v s.rst_drive

theorem execRmArm_inv {s : State} (h : s.Inv) : EndsInInv (execRmArm s) := by
  refine endsInInv_unlessFatal h ?_
  split
  · exact endsInInv_next (raiseError_inv h _ _)
  · next hp => exact endsInInv_next { h with pending_disarmed := fun hp' => absurd hp' hp, rise_phase := nofun }

theorem execRmClear_inv {s : State} (h : s.Inv) : EndsInInv (execRmClear s) :=
  endsInInv_unlessFatal h (endsInInv_next { h with pending_disarmed := nofun })

/-! ### The control, pin and reset-line commands -/

theorem execPinConfig_inv {s : State} (h : s.Inv) : EndsInInv (execPinConfig s) :=
  endsInInv_unlessFatal h (endsInInv_next { h with enabled_ready := fun he => ⟨rfl, (h.enabled_ready he).2⟩ })

theorem execRstDriveLow_inv {s : State} (h : s.Inv) : EndsInInv (execRstDriveLow s) :=
  endsInInv_unlessFatal h (endsInInv_next (moveLine_inv h s.ext_rst true))

theorem execRstRelease_inv {s : State} (h : s.Inv) : EndsInInv (execRstRelease s) :=
  endsInInv_unlessFatal h (endsInInv_next (moveLine_inv h s.ext_rst false))

/-! ### The streamer -/

theorem progLen_pos {c : Config} (h : c.wf = true) : 0 < c.progLen := (config_bounds h).1

/-- `ClearPipeline()` empties the FIFO and puts `sm_pc` on the program's first word (41_streamer R160). -/
theorem clearPipeline_inv {s : State} (h : s.Inv) : s.clearPipeline.Inv :=
  { h with
    fifo_bound := Nat.zero_le _
    pc_in_program := fun _ => by simpa [State.progOffset] using progLen_pos h.cfg_wf }

/-- A placed program lies inside instruction memory, so its offset survives the widths of `sm_handle` and
`res_handle`. -/
theorem execSmLoad_inv {s : State} (h : s.Inv) : EndsInInv (execSmLoad s) := by
  refine endsInInv_unlessFatal h ?_
  split
  · exact endsInInv_next (raiseError_inv h _ _)
  next hl =>
  have hl : s.sm_loaded = false := by simpa using hl
  obtain ⟨hown, _, _⟩ := h.unloaded_region hl
  split
  · next o hplace =>
    obtain ⟨hfits, _, _⟩ := placement_eq_some.1 hplace
    obtain ⟨hpos, _, himem, _⟩ := config_bounds h.cfg_wf
    have ho : (BitVec.ofNat 5 o).toNat = o := by rw [BitVec.toNat_ofNat]; omega
    have ho8 : (BitVec.ofNat 8 o).toNat = o := by rw [BitVec.toNat_ofNat]; omega
    refine endsInInv_next { h with
      loaded_region := fun _ => ?_
      unloaded_region := nofun
      configured_loaded := fun _ => rfl
      pc_in_program := fun hc => ?_ }
    · simp only [ho, ho8, hown, and_true]
      exact ⟨hfits, BitVec.zero_or⟩
    · exact absurd (h.configured_loaded hc) (by simp [hl])
  · exact endsInInv_next (raiseFatal_inv h _ _)

theorem execSmConfig_inv {s : State} (h : s.Inv) : EndsInInv (execSmConfig s) := by
  refine endsInInv_unlessFatal h ?_
  split
  · exact endsInInv_next (raiseError_inv h _ _)
  next hl =>
  split
  · exact endsInInv_next (raiseError_inv h _ _)
  next he =>
  exact endsInInv_next { clearPipeline_inv h with
    configured_loaded := fun _ => by simpa using hl
    enabled_ready := fun he' => absurd he' he
    output_enable := rfl
    pc_in_program := fun _ => by simpa [State.progOffset] using progLen_pos h.cfg_wf }

theorem execSmEnable_inv {s : State} (h : s.Inv) : EndsInInv (execSmEnable s) := by
  refine endsInInv_unlessFatal h ?_
  split
  · exact endsInInv_next (raiseError_inv h _ _)
  · next hready => exact endsInInv_next { h with enabled_ready := fun _ => by simpa using hready }

/-- Disabling the streamer, the first half of SM_RESTART too (41_streamer R158, R159). -/
theorem disable_inv {s : State} (h : s.Inv) : State.Inv { s with sm_enabled := false } :=
  { h with enabled_ready := nofun }

theorem execSmDisable_inv {s : State} (h : s.Inv) : EndsInInv (execSmDisable s) :=
  endsInInv_unlessFatal h (endsInInv_next (disable_inv h))

theorem execSmRestart_inv {s : State} (h : s.Inv) : EndsInInv (execSmRestart s) :=
  endsInInv_unlessFatal h (endsInInv_next (clearPipeline_inv (disable_inv h)))

/-- The offset that an effect names is the one `sm_pc` then stands at (41_streamer R176). -/
theorem toNat_add_ofNat_sub (p : Offset) {k : Nat} (hk : k < 32) : (p + BitVec.ofNat 5 k - p).toNat = k := by
  rw [BitVec.add_comm, BitVec.add_sub_cancel, BitVec.toNat_ofNat]
  exact Nat.mod_eq_of_lt hk

/-- An effect that obeys the step contract shortens the FIFO, stays inside the program, and leaves side-set alone unless
SIDESET_EN = 1 (41_streamer R165, R177, R178). -/
theorem applyEffect_inv {s : State} (h : s.Inv) {e : BusEffect} (he : e.wf s.cfg = true) : (s.applyEffect e).Inv := by
  obtain ⟨hnext, _, _, _, hside⟩ := effect_wf_iff.1 he
  obtain ⟨_, hlen, himem, _⟩ := config_bounds h.cfg_wf
  have hpc : (s.sm_handle + BitVec.ofNat 5 e.next - s.sm_handle).toNat < s.cfg.progLen := by
    rwa [toNat_add_ofNat_sub _ (by omega)]
  have hfifo : (s.applyEffect e).fifo.length ≤ s.cfg.fifoDepth := by
    rw [applyEffect_fifo, List.length_drop]
    exact Nat.le_trans (Nat.sub_le _ _) h.fifo_bound
  have hoff (hen : s.cfg.sidesetEn = false) :
      (s.applyEffect e).sideset_out = 0 ∧ (s.applyEffect e).side_owner = 0 := by
    obtain ⟨hout, howner⟩ := h.sideset_off hen
    have hnone : e.acts.any BusAction.isSide = false := hside.resolve_left (by simp [hen])
    exact ⟨(acts_sideset_out _ _ s hnone).trans hout, acts_side_owner_zero _ _ s hnone howner⟩
  rw [applyEffect_frame]
  generalize s.applyEffect e = t at hfifo hoff
  exact { h with fifo_bound := hfifo, pc_in_program := fun _ => hpc, sideset_off := hoff }

theorem streamerStep_inv {s : State} (h : s.Inv) : EndsInInv (streamerStep s) := by
  rcases streamerStep_cases s with ⟨_, e⟩ | ⟨_, _, e⟩ | ⟨_, _, _, ⟨_, e⟩ | ⟨_, _, ⟨_, e⟩ | ⟨_, _, e⟩ | ⟨hwf, _, e⟩⟩⟩ <;>
    rw [e]
  · exact endsInInv_next h
  · exact endsInInv_fault _
  · exact endsInInv_next h
  · exact endsInInv_fault _
  · exact endsInInv_next h
  · exact endsInInv_next (applyEffect_inv h hwf)

/-! ### The feeder -/

/-- A channel of the pool that is not the active feeder's is not owned (10_state R34). -/
theorem own_eq_false {s : State} (h : s.Inv) {k : Nat} (hk : k < s.cfg.numCh)
    (hne : s.feeder_active = true → k ≠ s.feederIndex) : (s.chan k).own = false :=
  Bool.eq_false_iff.2 fun ho => have ⟨ha, hi⟩ := (h.feeder_owns k hk).1 ho; hne ha hi

/-- A channel's registers and the feeder's fields change together: the invariant holds when channel `c` is then owned
exactly if the feeder is active on it, and no other channel was owned. -/
theorem setFeeder_inv {s : State} (h : s.Inv) {c : Nat} {x : Channel} {active : Bool} {n r : Byte}
    (hc : c < s.cfg.numCh) (hothers : ∀ k < s.cfg.numCh, k ≠ c → (s.chan k).own = false)
    (hown : x.own = active) (hbusy : x.busy = true → x.own = true ∧ x.count ≠ 0)
    (hn : active = true → n.toNat = c) (hr : active = true → r = n) :
    State.Inv { s.setChan c x with feeder_active := active, feeder_ch := n, res_ch := r } := by
  have hself : (s.setChan c x).chan c = x := chan_setChan_self (h.channels ▸ hc) x
  refine { h with
    channels := (setChan_length s c x).trans h.channels
    feeder_in_pool := fun ha => Nat.lt_of_le_of_lt (Nat.le_of_eq (hn ha)) hc
    feeder_owns := fun k hk => ?_
    busy_remaining := fun k hk => ?_
    result_channel := hr }
  · change ((s.setChan c x).chan k).own = true ↔ active = true ∧ k = n.toNat
    by_cases hkc : k = c
    · subst hkc
      rw [hself, hown]
      exact ⟨fun ha => ⟨ha, (hn ha).symm⟩, And.left⟩
    · rw [chan_setChan_of_ne hkc, hothers k hk hkc]
      exact ⟨nofun, fun ⟨ha, hi⟩ => absurd (hi.trans (hn ha)) hkc⟩
  · change ((s.setChan c x).chan k).busy = true → ((s.setChan c x).chan k).own = true ∧ ((s.setChan c x).chan k).count ≠ 0
    by_cases hkc : k = c
    · subst hkc
      rw [hself]
      exact hbusy
    · rw [chan_setChan_of_ne hkc]
      exact h.busy_remaining k hk

theorem execDmaStart_inv {s : State} (h : s.Inv) : EndsInInv (execDmaStart s) := by
  refine endsInInv_unlessFatal h ?_
  split
  · exact endsInInv_next (raiseError_inv h _ _)
  next hidle =>
  split
  · exact endsInInv_next (raiseFatal_inv h _ _)
  next c hfree =>
  obtain ⟨_, hc, _⟩ := freeChannel_eq_some.1 hfree
  obtain ⟨_, _, _, _, _, _, hpool, _⟩ := config_bounds h.cfg_wf
  exact endsInInv_next (setFeeder_inv h hc
    (hothers := fun k hk _ => own_eq_false h hk fun ha => absurd ha hidle)
    (hown := rfl)
    (hbusy := fun hb => ⟨rfl, of_decide_eq_true hb⟩)
    (hn := fun _ => by rw [BitVec.toNat_ofNat]; omega)
    (hr := fun _ => rfl))

theorem execDmaStop_inv {s : State} (h : s.Inv) (c : Nat) : EndsInInv (execDmaStop c s) := by
  refine endsInInv_unlessFatal h ?_
  split
  · exact endsInInv_next (raiseError_inv h _ _)
  next hc =>
  split
  · exact endsInInv_next h
  next hown =>
  have hc : c < s.cfg.numCh := by omega
  obtain ⟨_, hfeeder⟩ := (h.feeder_owns c hc).1 (by simpa using hown)
  exact endsInInv_next (setFeeder_inv h hc
    (hothers := fun k hk hkc => own_eq_false h hk fun _ hi => hkc (hi.trans hfeeder.symm))
    (hown := rfl) (hbusy := nofun) (hn := nofun) (hr := nofun))

/-- The active feeder's channel takes new registers and stays owned (42_dma_feeder R208, R209). -/
theorem setFeederChan_inv {s : State} (h : s.Inv) (ha : s.feeder_active = true) {x : Channel} (hown : x.own = true)
    (hcount : x.busy = true → x.count ≠ 0) : (s.setChan s.feederIndex x).Inv :=
  setFeeder_inv h (h.feeder_in_pool ha)
    (hothers := fun _ hk hne => own_eq_false h hk fun _ => hne)
    (hown := hown.trans ha.symm) (hbusy := fun hb => ⟨hown, hcount hb⟩) (hn := fun _ => rfl) (hr := h.result_channel)

/-- A read fault leaves the channel claimed and idle, and records its error as asynchronous (42_dma_feeder R209). -/
theorem dmaReadFault_inv {s : State} (h : s.Inv) (ha : s.feeder_active = true) :
    (s.dmaReadFault s.feederIndex).Inv :=
  have hown := (h.feeder_owns _ (h.feeder_in_pool ha)).2 ⟨ha, rfl⟩
  { setFeederChan_inv h ha (x := { s.chan s.feederIndex with busy := false }) hown nofun with
    error_record := by simp [State.dmaReadFault, ErrorCode.byte]
    async_record := by simp [State.dmaReadFault, ErrorCode.byte] }

/-- A transfer fits into the FIFO, and the channel stays busy only while a count remains (42_dma_feeder R208, R210). -/
theorem dmaTransfer_inv {s : State} (h : s.Inv) (ha : s.feeder_active = true) (hroom : s.fifo.length < s.cfg.fifoDepth)
    (b : Byte) : (s.dmaTransfer s.feederIndex b).Inv :=
  have hown := (h.feeder_owns _ (h.feeder_in_pool ha)).2 ⟨ha, rfl⟩
  { setFeederChan_inv h ha (x := (s.chan s.feederIndex).advance) hown
      (fun hb => of_decide_eq_true (Bool.and_eq_true_iff.1 hb).2) with
    fifo_bound := by
      change (s.fifo ++ [b]).length ≤ s.cfg.fifoDepth
      rw [List.length_append]
      exact hroom }

theorem dmaStep_inv {s : State} (h : s.Inv) : (dmaStep s).Inv := by
  rcases dmaStep_cases s with ⟨_, e⟩ | ⟨hready, _, e⟩ | ⟨b, hready, _, e⟩ <;> rw [e]
  · exact h
  · exact dmaReadFault_inv h ((dmaReady_iff s).1 hready).1
  · obtain ⟨ha, _, hroom⟩ := (dmaReady_iff s).1 hready
    exact dmaTransfer_inv h ha hroom b

/-! ### Every command, every step -/

theorem exec_inv {s : State} (h : s.Inv) (i : Instr) : EndsInInv (exec i s) := by
  cases i with
  | nop => exact endsInInv_unlessFatal h (endsInInv_next h)
  | pinConfig => exact execPinConfig_inv h
  | smLoad => exact execSmLoad_inv h
  | smConfig => exact execSmConfig_inv h
  | smEnable => exact execSmEnable_inv h
  | smDisable => exact execSmDisable_inv h
  | smRestart => exact execSmRestart_inv h
  | dmaStart => exact execDmaStart_inv h
  | dmaStop c => exact execDmaStop_inv h c
  | rmArm => exact execRmArm_inv h
  | rmClear => exact execRmClear_inv h
  | rstDriveLow => exact execRstDriveLow_inv h
  | rstRelease => exact execRstRelease_inv h
  | errClear => exact endsInInv_unlessFatal h (endsInInv_next (clearError_inv h))

/-- Settles O42: each thing a step can do keeps the invariant. -/
theorem everyStepKeepsTheInvariant : Obligations.EveryStepKeepsTheInvariant := by
  intro s t h hstep
  rcases step_next_cases hstep with hu | ⟨i, u, _, hu, hexec⟩ | ⟨e, w, u, _, hu, rfl⟩ | ⟨o, v, u, _, hu, rfl⟩
    | ⟨u, _, hu, hstreamer⟩ | ⟨u, _, hu, rfl⟩ | ⟨u, _, hu, rfl⟩ | ⟨v, u, _, hu, rfl⟩ | ⟨v, u, _, hu, rfl⟩
    | ⟨v, u, _, hu, rfl⟩ | ⟨a, b, u, _, hu, rfl⟩ | ⟨u, _, hu, rfl⟩ <;> have h := sameBlock_inv h hu
  · exact h
  · exact exec_inv h i t hexec
  · exact raiseError_inv h _ _ (decodeErrorCode_ne_dmaReadFault e)
  · exact writeReg_inv h o v
  · exact streamerStep_inv h t hstreamer
  · exact dmaStep_inv h
  · exact tick_inv h
  · exact setExtRst_inv h v
  · exact { h with }
  · exact { h with }
  · exact payload_inv h a b
  · exact blockReset_inv h

/-- Settles O43: each clause at the values of 10_state R55. -/
theorem resetMeetsTheInvariant : Obligations.ResetMeetsTheInvariant :=
  ⟨fun _ => initial_inv, initial_inv (by decide)⟩

end Sys2Proof.Machine
end

section
/-! What the register block shows and which writes it ignores (spec/10_state.md R39 to R51), what block reset sets (R55),
and what is on the pads (R25, R27). -/

namespace Sys2Proof

/-! ### Bits and fields of a word -/

/-- What a union of fields shows is the union of what each shows. -/
theorem extract_or (lo width : Nat) (v w : Word) :
    (v ||| w).extractLsb' lo width = v.extractLsb' lo width ||| w.extractLsb' lo width := by
  apply BitVec.eq_of_getLsbD_eq
  intro k hk
  simp [hk]

theorem getElem_flagAt (i : Nat) (b : Bool) {k : Nat} (hk : k < 32) : (flagAt i b)[k] = (b && decide (k = i)) := by
  rw [← BitVec.getLsbD_eq_getElem, getLsbD_flagAt]
  simp [hk]

theorem getElem_fieldAt (lo width v : Nat) {k : Nat} (hk : k < 32) :
    (fieldAt lo width v)[k] = (decide (lo ≤ k) && decide (k - lo < width) && v.testBit (k - lo)) := by
  rw [← BitVec.getLsbD_eq_getElem, getLsbD_fieldAt]
  simp [hk]

/-- A flag shows nothing at another bit. -/
theorem getLsbD_flagAt_of_ne {i k : Nat} (h : k ≠ i) (b : Bool) : (flagAt i b).getLsbD k = false := by
  simp [getLsbD_flagAt, h]

end Sys2Proof

namespace Sys2Proof.Machine

/-! ### Host accesses -/

/-- The offset of a named register is aligned (10_state R39). -/
theorem offset_aligned (r : Reg) : r.offset.toNat % 4 = 0 := by cases r <;> rfl

/-- A read at a named register's offset returns its value. -/
theorem hostRead_reg {s : State} {addr : Word} {r : Reg} (h : s.cfg.regOffset addr = r.offset) :
    hostRead .w32 addr s = .next { s with host_rdata := some (r.value s) } := by
  rw [hostRead_aligned (h ▸ offset_aligned r), h, readReg_offset]

/-- The registers that a write changes or, for CMD, makes a command of; the others ignore it (10_state R39). -/
def Reg.writable : Reg → Bool
  | .CMD | .DMA_SRC | .DMA_COUNT | .EXT_CLAIM | .IMEM_EXT => true
  | .STATUS | .ERRINFO | .RESULT | .CFG0 | .CFG1 | .CFG2 | .DMA_REMAIN => false

theorem writeReg_readOnly (s : State) {r : Reg} (hr : r.writable = false) (v : Word) : s.writeReg r.offset v = s := by
  cases r
  case CMD | DMA_SRC | DMA_COUNT | EXT_CLAIM | IMEM_EXT => cases hr
  all_goals rfl

/-- A write to a read-only register changes nothing (40_control_pins R129). -/
theorem hostWrite_readOnly {s : State} {addr : Word} {r : Reg} (h : s.cfg.regOffset addr = r.offset)
    (hr : r.writable = false) (v : Word) : hostWrite .w32 addr v s = .next s := by
  have hcmd : r.offset ≠ 0 := by
    rintro h0
    have hr0 : r = .CMD := Option.some.inj ((at_offset r).symm.trans (h0 ▸ rfl))
    rw [hr0] at hr
    cases hr
  rw [hostWrite_plain (h ▸ offset_aligned r) (h ▸ hcmd), h, writeReg_readOnly s hr]

/-- Settles O5: the access reaches CMD, and a word that decodes runs its command. -/
theorem stepRunsTheDecodedCommand : Obligations.StepRunsTheDecodedCommand := by
  intro s addr w i haddr hdecode
  rw [step_withHostOp_write, hostWrite_cmd haddr, executeWord_ok hdecode]

/-! ### The fields of the read-only registers -/

theorem phase_flag (p : Phase) : p.flag = decide (p = .armedForRise) := by cases p <;> rfl

/-- From bit 16 on STATUS shows FIFO_LEVEL only (10_state R41). -/
theorem getLsbD_statusWord_level (s : State) {k : Nat} (hk : 16 ≤ k) :
    s.statusWord.getLsbD k = (decide (k < 20) && s.fifo.length.testBit (k - 16)) := by
  simp (disch := omega) only [State.statusWord, BitVec.getLsbD_or, getLsbD_flagAt_of_ne, Bool.false_or,
    getLsbD_fieldAt]
  by_cases h20 : k < 20
  · have h32 : k < 32 := by omega
    have h4 : k - 16 < 4 := by omega
    simp [hk, h20, h32, h4]
  · have h4 : ¬ k - 16 < 4 := by omega
    simp [h20, h4]

/-- Settles O22: each of the bits 15:0 is one flag's, and from bit 16 on stands FIFO_LEVEL. -/
theorem statusShowsTheState : Obligations.StatusShowsTheState := by
  intro s addr haddr _
  refine ⟨⟨s.statusWord, hostRead_reg (r := .STATUS) haddr, ?flags⟩,
    fun x => hostWrite_readOnly (r := .STATUS) haddr rfl x⟩
  refine ⟨?_, ?_, ?_, ?_, ?_, ?_, ?_, ?_, ?_, ?_, ?_, ?_, ?_, ?_, ?_, ?_, fun k hk => ?level, fun k hk => ?reserved⟩
  case level =>
    have h20 : 16 + k < 20 := by omega
    simp [getLsbD_statusWord_level, h20]
  case reserved =>
    have h20 : ¬ k < 20 := by omega
    rw [getLsbD_statusWord_level s (by omega), decide_eq_false h20, Bool.false_and]
  all_goals
    simp [State.statusWord, getElem_flagAt, getElem_fieldAt, phase_flag, State.rstLine, State.dmaBusy, State.dreq,
      State.feederIndex]

/-- Settles O23: a register is the union of its fields, and each field shows nothing in another's place. -/
theorem errinfoResultAndRemainShowTheState : Obligations.ErrinfoResultAndRemainShowTheState := by
  intro s
  have herrinfo (u : State) : u.readReg 0x08 = u.errinfoWord := readReg_offset u .ERRINFO
  have hresult (u : State) : u.readReg 0x0C = Reg.RESULT.value u := readReg_offset u .RESULT
  have hremain (u : State) : u.readReg 0x2C = Reg.DMA_REMAIN.value u := readReg_offset u .DMA_REMAIN
  simp only [herrinfo, hresult, hremain]
  refine ⟨?_, ?_, fun ha => if_pos ha, fun ha => if_neg (ne_true_of_eq_false ha), ?_, ?_⟩
  · simp [State.errinfoWord, extract_or, extract_fieldAt_self, extract_fieldAt_other, extract_flagAt_other,
      getElem_flagAt, getElem_fieldAt]
  · simp [Reg.value, extract_or, extract_fieldAt_self, extract_fieldAt_other]
  · rintro addr x (h | h | h)
    · exact hostWrite_readOnly (r := .ERRINFO) h rfl x
    · exact hostWrite_readOnly (r := .RESULT) h rfl x
    · exact hostWrite_readOnly (r := .DMA_REMAIN) h rfl x
  · simp [State.errinfoWord, Reg.value, State.initial, fieldAt, flagAt]

/-- Settles O24: the bounds of 00_scope R6 make every parameter fit its field. -/
theorem configurationRegistersShowTheParameters : Obligations.ConfigurationRegistersShowTheParameters := by
  intro s hwf
  obtain ⟨_, hprog, himem, _, hfifo, _, hnumCh, hdata, hside, hstrobe0, hstrobe1, hrst⟩ := config_bounds hwf
  have hcfg0 : s.readReg 0x20 = s.cfg.cfg0 := readReg_offset s .CFG0
  have hcfg1 : s.readReg 0x24 = s.cfg.cfg1 := readReg_offset s .CFG1
  have hcfg2 : s.readReg 0x28 = s.cfg.cfg2 := readReg_offset s .CFG2
  rw [hcfg0, hcfg1, hcfg2]
  refine ⟨?_, ?_, ?_, ?_⟩
  · simp (disch := omega) [Config.cfg0, extract_or, extract_fieldAt_self, extract_fieldAt_other, Nat.mod_eq_of_lt]
  · simp (disch := omega) [Config.cfg1, extract_or, extract_fieldAt_self, extract_fieldAt_other, extract_flagAt_other,
      getElem_flagAt, getElem_fieldAt, Nat.mod_eq_of_lt]
  · simp (disch := omega) [Config.cfg2, extract_or, extract_fieldAt_self, extract_fieldAt_other, extract_flagAt_other,
      getElem_flagAt, getElem_fieldAt, Nat.mod_eq_of_lt]
  · rintro addr x (h | h | h)
    · exact hostWrite_readOnly (r := .CFG0) h rfl x
    · exact hostWrite_readOnly (r := .CFG1) h rfl x
    · exact hostWrite_readOnly (r := .CFG2) h rfl x

/-- No register's value reads the monitor's timestamp or the timebase (10_state R41 to R51). -/
theorem value_withTimes (s : State) (a b : Nat) (r : Reg) : r.value { s with rm_lastFall := a, now := b } = r.value s := by
  cases r <;> rfl

/-- Settles O33: an offset reads a named register's value, or 0. -/
theorem noRegisterShowsTheTimestampOrTheTimebase : Obligations.NoRegisterShowsTheTimestampOrTheTimebase := by
  intro s a b o
  unfold State.readReg
  cases Reg.at o with
  | none => rfl
  | some r => exact value_withTimes s a b r

/-! ### Block reset -/

/-- Settles O45: each field of the state after reset, as `State.initial` and `State.blockReset` write it. -/
theorem blockResetSetsEveryField : Obligations.BlockResetSetsEveryField := by
  intro s
  refine ⟨s.blockReset, rfl, ?monitor, ?pins, ?streamer, ⟨List.length_replicate, ?channels, ?feeder⟩, ?errors,
    ?results, ?environment⟩
  case channels =>
    intro x hx
    rw [List.eq_of_mem_replicate hx]
    exact ⟨rfl, rfl, rfl, rfl⟩
  all_goals simp [State.initial]

/-! ### Pads -/

theorem isData_iff (c : Config) (p : Nat) : c.isData p = true ↔ c.dataBase ≤ p ∧ p < c.dataBase + 8 := by
  simp [Config.isData]

theorem isSide_iff (c : Config) (p : Nat) :
    c.isSide p = true ↔ c.sidesetEn = true ∧ c.sidesetBase ≤ p ∧ p < c.sidesetBase + 3 := by
  simp [Config.isSide, and_assoc]

section
variable {s : State} {p : Nat} (hp : s.pins_configured = true) (ho : s.data_oe = true)
include hp ho

/-- A data pin that side-set does not share or does not own shows its bit of `data_out` (10_state R27). -/
theorem pad_data (hd : s.cfg.isData p = true)
    (hfree : s.cfg.isSide p = false ∨ s.side_owner.getLsbD (p - s.cfg.sidesetBase) = false) :
    s.pad p = .level (s.data_out.getLsbD (p - s.cfg.dataBase)) := by
  rcases hfree with h | h <;> simp [State.pad, hp, ho, hd, h]

/-- A side-set pin that is no data pin or that side-set owns shows its bit of `sideset_out` (10_state R27). -/
theorem pad_side (hs : s.cfg.isSide p = true)
    (hfree : s.cfg.isData p = false ∨ s.side_owner.getLsbD (p - s.cfg.sidesetBase) = true) :
    s.pad p = .level (s.sideset_out.getLsbD (p - s.cfg.sidesetBase)) := by
  unfold State.pad
  cases hd : s.cfg.isData p
  · simp [hp, ho, hs]
  · have howner := hfree.resolve_left (by simp [hd])
    simp [hp, ho, hs, howner]

end

/-- A pin that is neither a data pin nor a side-set pin shows nothing (10_state R27). -/
theorem pad_other {s : State} {p : Nat} (hd : s.cfg.isData p = false) (hs : s.cfg.isSide p = false) :
    s.pad p = .z := by
  simp [State.pad, hd, hs]

/-- Settles O51: the pin's place relative to DATA_BASE and SIDESET_BASE says which of the cases of 10_state R27 it is. -/
theorem padsShowTheDrivenLevels : Obligations.PadsShowTheDrivenLevels := by
  intro s
  refine ⟨fun h => if_pos h, fun h => if_neg (ne_true_of_eq_false h), ?notDriven, ?data, ?side, ?other⟩
  case notDriven =>
    rintro (h | h) p <;> simp [State.pad, h]
  case data =>
    intro hp ho i hi hfree
    have hd : s.cfg.isData (s.cfg.dataBase + i) = true := (isData_iff _ _).2 (by omega)
    rw [pad_data hp ho hd, Nat.add_sub_cancel_left]
    rw [Bool.eq_false_iff, ne_eq, isSide_iff]
    rcases hfree with hen | hbelow | habove | howner
    · exact .inl (by simp [hen])
    · exact .inl (by omega)
    · exact .inl (by omega)
    · exact .inr howner
  case side =>
    intro hp ho hen i hi hfree
    have hs : s.cfg.isSide (s.cfg.sidesetBase + i) = true := (isSide_iff _ _).2 ⟨hen, by omega, by omega⟩
    rw [pad_side hp ho hs, Nat.add_sub_cancel_left]
    rw [Bool.eq_false_iff, ne_eq, isData_iff, Nat.add_sub_cancel_left]
    rcases hfree with hbelow | habove | howner
    · exact .inl (by omega)
    · exact .inl (by omega)
    · exact .inr howner
  case other =>
    intro p hdata hside
    refine pad_other ?_ ?_
    · rw [Bool.eq_false_iff, ne_eq, isData_iff]
      omega
    · rw [Bool.eq_false_iff, ne_eq, isSide_iff]
      rintro ⟨hen, hfrom, hto⟩
      rcases hside with hoff | hbelow | habove
      · rw [hoff] at hen; cases hen
      · omega
      · omega

end Sys2Proof.Machine
end

section
/-! Payload memory, the bytes of it that the FIFO holds, and the accesses that have no meaning (spec/20_memory.md R61 to
R84). -/

namespace Sys2Proof.Machine

/-! ### Undefined accesses -/

theorem accessDefined_eq_false_iff {width : Width} {o : Byte} :
    accessDefined width o = false ↔ width ≠ .w32 ∨ o.toNat % 4 ≠ 0 := by
  rw [accessDefined, Bool.and_eq_false_iff, decide_eq_false_iff_not, decide_eq_false_iff_not]

section
variable {s : State} {width : Width} {addr : Word} (h : accessDefined width (s.cfg.regOffset addr) = false)
include h

theorem hostWrite_undefined (v : Word) : hostWrite width addr v s = .refused .undefinedAccess :=
  if_neg (ne_true_of_eq_false h)

theorem hostRead_undefined : hostRead width addr s = .refused .undefinedAccess :=
  if_neg (ne_true_of_eq_false h)

end

/-- Each read of a POLL is 32 bits wide (30_encoding R99). -/
theorem hostPoll_undefined {s : State} {addr : Word} (h : accessDefined .w32 (s.cfg.regOffset addr) = false)
    (line : HostOp) (lo width v : Nat) : hostPoll line addr lo width v s = .refused .undefinedAccess :=
  if_neg (ne_true_of_eq_false h)

/-- Settles O27: none of these accesses is defined, and each kind of host line asks that before it acts. -/
theorem undefinedAccessesAreRefused : Obligations.UndefinedAccessesAreRefused := by
  intro s width addr v
  constructor
  · intro h
    have hundef := accessDefined_eq_false_iff.2 h
    exact ⟨hostWrite_undefined hundef v, hostRead_undefined hundef⟩
  · intro lo n x h
    have hundef : accessDefined .w32 (s.cfg.regOffset addr) = false := accessDefined_eq_false_iff.2 (.inr h)
    exact hostPoll_undefined hundef _ lo n x

/-! ### What the agents' turns leave alone -/

/-- The edge rules write the monitor's fields only (43_reset_monitor R243 to R250). -/
theorem lineChanged_frame (s : State) (old : Bool) :
    s.lineChanged old = { s with
      rm_phase := (s.lineChanged old).rm_phase, rm_lastFall := (s.lineChanged old).rm_lastFall,
      rm_pending := (s.lineChanged old).rm_pending, rm_armed := (s.lineChanged old).rm_armed } := by
  rcases lineChanged_cases s old with e | ⟨_, _, _, _, e⟩ | ⟨_, _, _, _, _, e⟩ | ⟨_, _, _, _, _, e⟩ <;> rw [e] <;> rfl

/-- The target's own change of the line writes its level and the monitor's fields only (43_reset_monitor R242). -/
theorem setExtRst_frame (s : State) (v : Bool) :
    s.setExtRst v = { s with
      ext_rst := v, rm_phase := (s.setExtRst v).rm_phase, rm_lastFall := (s.setExtRst v).rm_lastFall,
      rm_pending := (s.setExtRst v).rm_pending, rm_armed := (s.setExtRst v).rm_armed } :=
  lineChanged_frame { s with ext_rst := v } s.rstLine

/-- A streamer's turn that ends in a next state: it changes nothing, or has one effect. -/
theorem streamerStep_next_cases {s t : State} (h : streamerStep s = .next t) :
    t = s ∨ ∃ e, e.wf s.cfg = true ∧ s.pullWaits e = false ∧ t = s.applyEffect e := by
  rcases streamerStep_cases s with ⟨_, e⟩ | ⟨_, _, e⟩ | ⟨_, _, _, ⟨_, e⟩ | ⟨_, _, ⟨_, e⟩ | ⟨_, _, e⟩ | ⟨hwf, hp, e⟩⟩⟩ <;>
    rw [e] at h <;> cases h
  · exact .inl rfl
  · exact .inl rfl
  · exact .inl rfl
  · exact .inr ⟨_, hwf, hp, rfl⟩

/-- The DMA's turn reads memory and writes none of it (42_dma_feeder R208, log 25). -/
theorem dmaStep_keeps_inputs (s : State) : (dmaStep s).cfg = s.cfg ∧ (dmaStep s).mem = s.mem := by
  rcases dmaStep_cases s with ⟨_, e⟩ | ⟨_, _, e⟩ | ⟨_, _, _, e⟩ <;> rw [e] <;> exact ⟨rfl, rfl⟩

/-- No step writes a parameter, and none but a platform's turn writes payload memory (20_memory R62, 10_state R20). -/
theorem step_keeps_inputs {s t : State} (h : step s = .next t) :
    t.cfg = s.cfg ∧ (t.mem = s.mem ∨ ∃ a b, s.takesTurn (.payload a b)) := by
  rcases step_next_cases h with hu | ⟨i, u, _, hu, hexec⟩ | ⟨e, w, u, _, hu, rfl⟩ | ⟨o, v, u, _, hu, rfl⟩
    | ⟨u, _, hu, hstreamer⟩ | ⟨u, _, hu, rfl⟩ | ⟨u, _, hu, rfl⟩ | ⟨v, u, _, hu, rfl⟩ | ⟨v, u, _, hu, rfl⟩
    | ⟨v, u, _, hu, rfl⟩ | ⟨a, b, u, hturn, hu, rfl⟩ | ⟨u, _, hu, rfl⟩ <;> obtain ⟨_, _, _, _, rfl⟩ := hu
  · exact ⟨rfl, .inl rfl⟩
  · obtain ⟨hcfg, hmem, _⟩ := exec_keeps_inputs i _ t hexec
    exact ⟨hcfg, .inl hmem⟩
  · exact ⟨rfl, .inl rfl⟩
  · rw [writeReg_frame]
    exact ⟨rfl, .inl rfl⟩
  · rcases streamerStep_next_cases hstreamer with rfl | ⟨e, _, _, rfl⟩
    · exact ⟨rfl, .inl rfl⟩
    · rw [applyEffect_frame]
      exact ⟨rfl, .inl rfl⟩
  · exact (dmaStep_keeps_inputs _).imp_right .inl
  · exact ⟨rfl, .inl rfl⟩
  · rw [setExtRst_frame]
    exact ⟨rfl, .inl rfl⟩
  · exact ⟨rfl, .inl rfl⟩
  · exact ⟨rfl, .inl rfl⟩
  · exact ⟨rfl, .inr ⟨a, b, hturn⟩⟩
  · exact ⟨rfl, .inl rfl⟩

/-- A platform's turn updates payload memory at its address (20_memory R78). -/
theorem step_payload_mem {s t : State} {a : Word} {b : Option Byte} (hturn : s.takesTurn (.payload a b))
    (h : step s = .next t) : t.mem = s.mem.update a.toNat b := by
  obtain ⟨rest, hs⟩ := hturn
  rw [step_turn hs] at h
  cases h
  rfl

/-- Settles O50: the canonical form makes a read after the platform's update what the update says. -/
theorem onlyThePlatformChangesPayloadMemory : Obligations.OnlyThePlatformChangesPayloadMemory := by
  intro s t hwf h
  obtain ⟨hcfg, hmem⟩ := step_keeps_inputs h
  refine ⟨hcfg, fun hno => hmem.resolve_right fun ⟨a, b, hturn⟩ => hno a b hturn, fun a b hturn x => ?_⟩
  rw [step_payload_mem hturn h, Memory.read_update hwf]

/-! ### What the DMA's registers and the FIFO can do -/

/-- From `s` to `t` the DMA's registers stay, and the FIFO loses at most some of its first entries. -/
structure KeepsTransfer (s t : State) : Prop where
  ch : t.ch = s.ch
  feeder_active : t.feeder_active = s.feeder_active
  feeder_ch : t.feeder_ch = s.feeder_ch
  fifo : t.fifo <:+ s.fifo

/-- The streamer's turn leaves the DMA's registers and pulls from the front of the FIFO (41_streamer R177). -/
theorem streamerStep_keepsTransfer {s t : State} (h : streamerStep s = .next t) : KeepsTransfer s t := by
  rcases streamerStep_next_cases h with rfl | ⟨e, _, _, rfl⟩
  · exact ⟨rfl, rfl, rfl, List.suffix_rfl⟩
  · have hfifo : (s.applyEffect e).fifo <:+ s.fifo := applyEffect_fifo s e ▸ List.drop_suffix _ _
    rw [applyEffect_frame]
    exact ⟨rfl, rfl, rfl, hfifo⟩

/-- What a command does to the DMA's registers and the FIFO: it leaves the registers and at most clears the FIFO, it
claims a channel, or it releases one (42_dma_feeder R203, R211). -/
theorem exec_transfer_cases {i : Instr} {s t : State} (h : exec i s = .next t) :
    KeepsTransfer s t
      ∨ (i = .dmaStart ∧ s.feeder_active = false ∧ t.feeder_active = true ∧ t.fifo = s.fifo)
      ∨ (∃ c, i = .dmaStop c ∧ t.feeder_active = false ∧ t.fifo = s.fifo) := by
  cases hf : s.fatal
  case true =>
    rw [exec_fatal hf] at h
    cases h
    exact .inl ⟨rfl, rfl, rfl, List.suffix_rfl⟩
  cases i <;> replace h := (unlessFatal_of_not hf _).symm.trans h
  case nop | pinConfig | smDisable | rmClear | errClear =>
    cases h
    exact .inl ⟨rfl, rfl, rfl, List.suffix_rfl⟩
  case smEnable | rmArm =>
    split at h <;> cases h <;> exact .inl ⟨rfl, rfl, rfl, List.suffix_rfl⟩
  case smLoad =>
    split at h
    · cases h
      exact .inl ⟨rfl, rfl, rfl, List.suffix_rfl⟩
    · split at h <;> cases h <;> exact .inl ⟨rfl, rfl, rfl, List.suffix_rfl⟩
  case rstDriveLow | rstRelease =>
    cases h
    rw [lineChanged_frame]
    exact .inl ⟨rfl, rfl, rfl, List.suffix_rfl⟩
  case smConfig =>
    split at h
    · cases h
      exact .inl ⟨rfl, rfl, rfl, List.suffix_rfl⟩
    · split at h <;> cases h
      · exact .inl ⟨rfl, rfl, rfl, List.suffix_rfl⟩
      · exact .inl ⟨rfl, rfl, rfl, List.nil_suffix⟩
  case smRestart =>
    cases h
    exact .inl ⟨rfl, rfl, rfl, List.nil_suffix⟩
  case dmaStart =>
    split at h
    · cases h
      exact .inl ⟨rfl, rfl, rfl, List.suffix_rfl⟩
    next hidle =>
    split at h <;> cases h
    · exact .inl ⟨rfl, rfl, rfl, List.suffix_rfl⟩
    · exact .inr (.inl ⟨rfl, Bool.eq_false_iff.2 hidle, rfl, rfl⟩)
  case dmaStop c =>
    split at h
    · cases h
      exact .inl ⟨rfl, rfl, rfl, List.suffix_rfl⟩
    · split at h <;> cases h
      · exact .inl ⟨rfl, rfl, rfl, List.suffix_rfl⟩
      · exact .inr (.inr ⟨c, rfl, rfl, rfl⟩)

/-- What a step does to the DMA's registers and the FIFO. -/
theorem step_transfer_cases {s t : State} (h : step s = .next t) :
    KeepsTransfer s t
      ∨ s.takesTurn .dma
      ∨ (s.runsCommand .dmaStart ∧ s.feeder_active = false ∧ t.feeder_active = true ∧ t.fifo = s.fifo)
      ∨ (∃ c, s.runsCommand (.dmaStop c) ∧ t.feeder_active = false ∧ t.fifo = s.fifo)
      ∨ (s.takesTurn .blockReset ∧ t.feeder_active = false ∧ t.fifo = []) := by
  rcases step_next_cases h with hu | ⟨i, u, hrun, hu, hexec⟩ | ⟨e, w, u, _, hu, rfl⟩ | ⟨o, v, u, _, hu, rfl⟩
    | ⟨u, _, hu, hstreamer⟩ | ⟨u, hturn, hu, rfl⟩ | ⟨u, _, hu, rfl⟩ | ⟨v, u, _, hu, rfl⟩ | ⟨v, u, _, hu, rfl⟩
    | ⟨v, u, _, hu, rfl⟩ | ⟨a, b, u, _, hu, rfl⟩ | ⟨u, hturn, hu, rfl⟩ <;> obtain ⟨_, _, _, _, rfl⟩ := hu
  · exact .inl ⟨rfl, rfl, rfl, List.suffix_rfl⟩
  · rcases exec_transfer_cases hexec with ⟨hch, ha, hn, hfifo⟩ | ⟨rfl, hstart⟩ | ⟨c, rfl, hstop⟩
    · exact .inl ⟨hch, ha, hn, hfifo⟩
    · exact .inr (.inr (.inl ⟨hrun, hstart⟩))
    · exact .inr (.inr (.inr (.inl ⟨c, hrun, hstop⟩)))
  · exact .inl ⟨rfl, rfl, rfl, List.suffix_rfl⟩
  · rw [writeReg_frame]
    exact .inl ⟨rfl, rfl, rfl, List.suffix_rfl⟩
  · obtain ⟨hch, ha, hn, hfifo⟩ := streamerStep_keepsTransfer hstreamer
    exact .inl ⟨hch, ha, hn, hfifo⟩
  · exact .inr (.inl hturn)
  · exact .inl ⟨rfl, rfl, rfl, List.suffix_rfl⟩
  · rw [setExtRst_frame]
    exact .inl ⟨rfl, rfl, rfl, List.suffix_rfl⟩
  · exact .inl ⟨rfl, rfl, rfl, List.suffix_rfl⟩
  · exact .inl ⟨rfl, rfl, rfl, List.suffix_rfl⟩
  · exact .inl ⟨rfl, rfl, rfl, List.suffix_rfl⟩
  · exact .inr (.inr (.inr (.inr ⟨hturn, rfl, rfl⟩)))

/-- The step that runs a command has the command's effect, and takes the turn and the line from the inputs. -/
theorem step_runsCommand {s : State} {i : Instr} (h : s.runsCommand i) :
    ∃ u, SameBlock s u ∧ step s = exec i u := by
  obtain ⟨addr, w, ops, ⟨rest, hs⟩, hhost, haddr, hdecode, _⟩ := h
  refine ⟨{ s with sched := rest, host := ops }, ⟨_, _, _, _, rfl⟩, ?_⟩
  calc step s
      = hostStep { s with sched := rest } := step_turn hs
    _ = hostWrite .w32 addr w { s with sched := rest, host := ops } := by simp [hostStep, hhost]
    _ = executeWord w { s with sched := rest, host := ops } := hostWrite_cmd (by exact haddr) w
    _ = exec i { s with sched := rest, host := ops } := executeWord_ok hdecode

/-! ### The payload in the FIFO -/

theorem holdsPayload_of_fifo_nil {s : State} (h : s.fifo = []) : s.holdsPayload := by
  intro i hi
  rw [h] at hi
  cases hi

/-- What is left of the FIFO after its first entries are gone ends as before just below the feeder's next address. -/
theorem holdsPayload_of_suffix {s t : State} (hm : t.mem = s.mem)
    (hnext : (t.chan t.feederIndex).read_addr = (s.chan s.feederIndex).read_addr) (hfifo : t.fifo <:+ s.fifo)
    (h : s.holdsPayload) : t.holdsPayload := by
  obtain ⟨gone, hgone⟩ := hfifo
  intro i hi
  have hentry := h (gone.length + i) (by rw [← hgone, List.length_append]; omega)
  rwa [← hgone, List.length_append, Nat.add_sub_add_left, List.getElem?_append_right (Nat.le_add_right _ _),
    Nat.add_sub_cancel_left, ← hm, ← hnext] at hentry

/-- A transfer puts the byte at the feeder's next address behind the others, and the address moves past it
(42_dma_feeder R208). -/
theorem holdsPayload_dmaTransfer {s : State} {b : Byte} (hc : s.feederIndex < s.ch.length)
    (hb : s.mem.read (s.chan s.feederIndex).read_addr.toNat = some b) (h : s.holdsPayload) :
    (s.dmaTransfer s.feederIndex b).holdsPayload := by
  have hchan : (s.dmaTransfer s.feederIndex b).chan s.feederIndex = (s.chan s.feederIndex).advance :=
    chan_setChan_self (s := s.fifoPush b) hc _
  have hback (a : Word) (n : Nat) : a + 1 - BitVec.ofNat 32 (n + 1) = a - BitVec.ofNat 32 n := by
    bv_omega
  intro i hi
  change s.mem.read (((s.dmaTransfer s.feederIndex b).chan s.feederIndex).read_addr
    - BitVec.ofNat 32 ((s.fifo ++ [b]).length - i)).toNat = (s.fifo ++ [b])[i]?
  have hi : i < s.fifo.length + 1 := by simpa [dmaTransfer_eq] using hi
  rw [hchan, List.length_append, List.length_singleton, Nat.sub_add_comm (Nat.le_of_lt_succ hi), Channel.advance, hback]
  rcases Nat.lt_succ_iff_lt_or_eq.1 hi with hold | rfl
  · rw [List.getElem?_append_left hold]
    exact h i hold
  · simpa using hb

theorem holdsPayload_dmaStep {s : State} (hinv : s.Inv) (h : s.holdsPayload) : (dmaStep s).holdsPayload := by
  have hpool (hr : s.dmaReady = true) : s.feederIndex < s.ch.length :=
    hinv.channels ▸ hinv.feeder_in_pool ((dmaReady_iff s).1 hr).1
  rcases dmaStep_cases s with ⟨_, e⟩ | ⟨hr, _, e⟩ | ⟨b, hr, hb, e⟩ <;> rw [e]
  · exact h
  · have hchan : (s.dmaReadFault s.feederIndex).chan s.feederIndex = { s.chan s.feederIndex with busy := false } :=
      chan_setChan_self (hpool hr) _
    have hnext := congrArg Channel.read_addr hchan
    exact holdsPayload_of_suffix (s := s) rfl hnext List.suffix_rfl h
  · exact holdsPayload_dmaTransfer (hpool hr) hb h

/-- Settles O35: a transfer appends the next byte, and every other step that leaves the feeder active leaves its address
and takes entries from the front of the FIFO only. -/
theorem theFifoHoldsThePayloadInOrder : Obligations.TheFifoHoldsThePayloadInOrder := by
  constructor
  · intro s t _ hempty h hrun
    apply holdsPayload_of_fifo_nil
    obtain ⟨_, ⟨_, _, _, _, rfl⟩, hexec⟩ := step_runsCommand hrun
    rcases exec_transfer_cases (hexec.symm.trans h) with hk | ⟨_, _, _, hfifo⟩ | ⟨_, _, _, hfifo⟩
    · exact List.suffix_nil.1 (hempty ▸ hk.fifo)
    · exact hfifo.trans hempty
    · exact hfifo.trans hempty
  · intro s t hinv hactive hpay h hactive' hno
    have hmem : t.mem = s.mem := (step_keeps_inputs h).2.resolve_right fun ⟨a, b, hturn⟩ => hno a b hturn
    rcases step_transfer_cases h with hk | ⟨rest, hs⟩ | ⟨_, hidle, _⟩ | ⟨_, _, hidle, _⟩ | ⟨_, hidle, _⟩
    · have hnext : (t.chan t.feederIndex).read_addr = (s.chan s.feederIndex).read_addr := by
        rw [chan_congr hk.ch, State.feederIndex, hk.feeder_ch, State.feederIndex]
      exact holdsPayload_of_suffix hmem hnext hk.fifo hpay
    · rw [step_turn hs] at h
      cases h
      exact holdsPayload_dmaStep (sameBlock_inv hinv ⟨_, _, _, _, rfl⟩) hpay
    · rw [hactive] at hidle; cases hidle
    · rw [hactive'] at hidle; cases hidle
    · rw [hactive'] at hidle; cases hidle

end Sys2Proof.Machine
end

section
/-! The command word (spec/30_encoding.md R91 to R97): its three fields, what the decoder answers by them, and that the
encoder is its inverse. After that, what a host line makes of a word, and how a POLL or a WAIT is held (R99). -/

namespace Sys2Proof

/-! ### The fields of a word -/

theorem opField_toNat (w : Word) : (opField w).toNat = w.toNat / 2 ^ 24 := by
  rw [opField, BitVec.extractLsb'_toNat, Nat.shiftRight_eq_div_pow]
  omega

theorem argField_toNat (w : Word) : (argField w).toNat = w.toNat / 2 ^ 16 % 2 ^ 8 := by
  rw [argField, BitVec.extractLsb'_toNat, Nat.shiftRight_eq_div_pow]

theorem rsvField_toNat (w : Word) : (rsvField w).toNat = w.toNat % 2 ^ 16 := by
  rw [rsvField, BitVec.extractLsb'_toNat, Nat.shiftRight_zero]

/-- The three fields are the whole word (30_encoding R91). -/
theorem fields_append (w : Word) : opField w ++ argField w ++ rsvField w = w := by
  rw [opField, argField, rsvField, BitVec.extractLsb'_append_extractLsb'_eq_extractLsb' (show 24 = 16 + 8 from rfl),
    BitVec.extractLsb'_append_extractLsb'_eq_extractLsb' (show 16 = 0 + 16 from rfl), BitVec.extractLsb'_eq_self]

@[simp] theorem opField_encode (i : Instr) : opField (encode i) = i.opcode := by
  rw [opField, encode, BitVec.extractLsb'_append_eq_of_le (by decide), BitVec.extractLsb'_append_eq_left]

@[simp] theorem argField_encode (i : Instr) : argField (encode i) = i.arg := by
  rw [argField, encode, BitVec.extractLsb'_append_eq_of_le (by decide), BitVec.extractLsb'_append_eq_right]

@[simp] theorem rsvField_encode (i : Instr) : rsvField (encode i) = 0 := BitVec.extractLsb'_append_eq_right

/-! ### The opcode map -/

/-- An instruction's row of the map is its own (30_encoding R94). -/
theorem commandOf_opcode {i : Instr} (h : i.wf = true) : commandOf i.opcode.toNat i.arg.toNat = some i := by
  cases i with
  | dmaStop c =>
    have hc : (BitVec.ofNat 8 c).toNat = c := Nat.mod_eq_of_lt (of_decide_eq_true h)
    exact congrArg (some <| Instr.dmaStop ·) hc
  | _ => rfl

/-- Only DMA_STOP has an ARG (30_encoding R91). -/
theorem arg_eq_zero_or (i : Instr) : i.arg = 0 ∨ i.opcode = 0x08 := by
  cases i with
  | dmaStop c => exact .inr rfl
  | _ => exact .inl rfl

/-- The map read backwards: the command of a row has that row's OP, and the ARG if there is none but DMA_STOP's
(30_encoding R91, R94). -/
theorem commandOf_some {op arg : Byte} {i : Instr} (h : commandOf op.toNat arg.toNat = some i)
    (harg : arg = 0 ∨ op = 0x08) : i.wf = true ∧ i.opcode = op ∧ i.arg = arg := by
  generalize hop : op.toNat = n at h
  unfold commandOf at h
  split at h <;> cases h
  case h_9 => -- DMA_STOP's row
    exact ⟨decide_eq_true arg.isLt, (BitVec.eq_of_toNat_eq hop).symm, by simp [Instr.arg]⟩
  all_goals
    have hne : op ≠ 0x08 := by rintro rfl; cases hop
    exact ⟨rfl, (BitVec.eq_of_toNat_eq hop).symm, (harg.resolve_right hne).symm⟩

/-- The reserved opcodes (30_encoding R94). -/
theorem commandOf_reserved {op : Nat} (h : 0x0E ≤ op) (arg : Nat) : commandOf op arg = none := by
  obtain ⟨n, rfl⟩ := Nat.exists_eq_add_of_le' h
  rfl

/-- Every other opcode has its row (30_encoding R94). -/
theorem commandOf_defined {op : Nat} (h : op < 0x0E) (arg : Nat) : ∃ i, commandOf op arg = some i := by
  match op with
  | 0 | 1 | 2 | 3 | 4 | 5 | 6 | 7 | 8 | 9 | 10 | 11 | 12 | 13 => exact ⟨_, rfl⟩
  | n + 14 => omega

/-! ### The decoder -/

/-- The opcode check comes first (30_encoding R96). -/
theorem decode_reserved {w : Word} (h : 0x0E ≤ (opField w).toNat) : decode w = .error .illegalOpcode := by
  rw [decode, commandOf_reserved h]

/-- The checks that follow on a row of the map (30_encoding R95, R97). -/
theorem decode_of_commandOf {w : Word} {i : Instr} (h : commandOf (opField w).toNat (argField w).toNat = some i) :
    decode w = if rsvField w = 0 ∧ (argField w = 0 ∨ opField w = 0x08) then .ok i else .error .reservedBits := by
  rw [decode, h]
  by_cases hrsv : rsvField w = 0
  · simp [hrsv, ← not_or]
  · exact (if_pos hrsv).trans (if_neg (hrsv ·.1)).symm

/-- A word that decodes has passed every check (30_encoding R95). -/
theorem decode_ok {w : Word} {i : Instr} (h : decode w = .ok i) :
    commandOf (opField w).toNat (argField w).toNat = some i ∧ rsvField w = 0
      ∧ (argField w = 0 ∨ opField w = 0x08) := by
  cases hmap : commandOf (opField w).toNat (argField w).toNat with
  | none => rw [decode, hmap] at h; cases h
  | some j =>
    rw [decode_of_commandOf hmap] at h
    split at h
    · next hlegal => cases h; exact ⟨rfl, hlegal⟩
    · cases h

/-- A defined opcode with a bit set where its word has none (30_encoding R97). -/
theorem decode_reservedBits {w : Word} (hop : (opField w).toNat < 0x0E)
    (h : ¬(rsvField w = 0 ∧ (argField w = 0 ∨ opField w = 0x08))) : decode w = .error .reservedBits := by
  obtain ⟨i, hmap⟩ := commandOf_defined hop (argField w).toNat
  rw [decode_of_commandOf hmap, if_neg h]

/-- Settles O2: the fields of an encoded word are the instruction's, and its row of the map is its own. -/
theorem decodeRecoversEveryEncodedInstruction : Obligations.DecodeRecoversEveryEncodedInstruction := by
  intro i hwf
  have hmap : commandOf (opField (encode i)).toNat (argField (encode i)).toNat = some i := by
    rw [opField_encode, argField_encode, commandOf_opcode hwf]
  rw [decode_of_commandOf hmap, rsvField_encode, argField_encode, opField_encode, if_pos ⟨rfl, arg_eq_zero_or i⟩]

/-- Settles O3: a word is its fields, and those of a legal word are its instruction's. -/
theorem legalWordsAreExactlyEncodings : Obligations.LegalWordsAreExactlyEncodings := by
  intro w i h
  obtain ⟨hmap, hrsv, harg⟩ := decode_ok h
  obtain ⟨hwf, hop, hi⟩ := commandOf_some hmap harg
  exact ⟨hwf, by rw [encode, hop, hi, ← hrsv, fields_append]⟩

/-- Settles O1: each word is the encoding of its row's command. -/
theorem decodeReadsTheTablesWords : Obligations.DecodeReadsTheTablesWords := by
  have h := decodeRecoversEveryEncodedInstruction
  exact ⟨h .nop rfl, h .pinConfig rfl, h .smLoad rfl, h .smConfig rfl, h .smEnable rfl, h .smDisable rfl,
    h .smRestart rfl, h .dmaStart rfl, h (.dmaStop 5) rfl, h .rmArm rfl, h .rmClear rfl, h .rstDriveLow rfl,
    h .rstRelease rfl, h .errClear rfl⟩

end Sys2Proof

namespace Sys2Proof.Machine

/-! ### Words that the host writes to CMD -/

/-- Settles O6: the line writes the command's encoding, which decodes to it, to the address of CMD. -/
theorem aCommandLineRunsItsCommand : Obligations.ACommandLineRunsItsCommand := by
  intro s i hwf
  have hword : decode (lineWord i) = .ok i := by
    rw [lineWord_eq_encode hwf, decodeRecoversEveryEncodedInstruction i hwf]
  exact stepRunsTheDecodedCommand s _ _ i (regOffset_address s.cfg .CMD) hword

/-- A rejected word, written to CMD, leaves its error and its opcode, and nothing else (30_encoding R96, R97). -/
theorem step_rejectedWord {s : State} {addr w : Word} {e : DecodeError} (haddr : s.cfg.regOffset addr = 0)
    (hfatal : s.fatal = false) (h : decode w = .error e) :
    step (s.withHostOp (.write .w32 addr w)) = .next (s.raiseError (decodeErrorCode e) (opField w)) := by
  rw [step_withHostOp_write, hostWrite_cmd haddr, executeWord_error hfatal h]

/-- Settles O4: the first check of 30_encoding R95 that fails names the error. -/
theorem illegalWordsRaiseOnlyTheirError : Obligations.IllegalWordsRaiseOnlyTheirError := by
  intro s addr w haddr hfatal
  rw [← opField_toNat, ← argField_toNat, ← rsvField_toNat, BitVec.ofNat_toNat, BitVec.setWidth_eq]
  constructor
  · intro hop
    exact step_rejectedWord haddr hfatal (decode_reserved hop)
  · intro hop hbits
    refine step_rejectedWord haddr hfatal (decode_reservedBits hop ?_)
    rintro ⟨hrsv, harg⟩
    rcases hbits with h | ⟨h, h'⟩
    · exact h (congrArg BitVec.toNat hrsv)
    · exact harg.elim (h <| congrArg BitVec.toNat ·) (h' <| congrArg BitVec.toNat ·)

/-! ### Lines that stay pending -/

/-- A POLL's aligned read answers; the line is taken when the field is the number awaited, else it stays
(30_encoding R99). -/
theorem hostPoll_aligned {s : State} {addr : Word} (halign : (s.cfg.regOffset addr).toNat % 4 = 0) (line : HostOp)
    (lo width v : Nat) :
    hostPoll line addr lo width v s
      = if (s.readReg (s.cfg.regOffset addr)).toNat / 2 ^ lo % 2 ^ width = v then
          .next { s with host_rdata := some (s.readReg (s.cfg.regOffset addr)) }
        else .next { s with host_rdata := some (s.readReg (s.cfg.regOffset addr)), host := line :: s.host } := by
  simp [hostPoll, accessDefined, halign, BitVec.extractLsb'_toNat, Nat.shiftRight_eq_div_pow]

/-- A WAIT whose ticks have passed is taken (30_encoding R99). -/
theorem hostWaitStep_passed {s : State} {n : Nat} (h : n ≤ s.host_wait.getD 0) (line : HostOp) :
    hostWaitStep line n s = { s with host_wait := none } := if_pos h

/-- A WAIT whose ticks have not passed has begun, and stays (30_encoding R99). -/
theorem hostWaitStep_waits {s : State} {n : Nat} (h : s.host_wait.getD 0 < n) (line : HostOp) :
    hostWaitStep line n s = { s with host_wait := some (s.host_wait.getD 0), host := line :: s.host } :=
  if_neg (Nat.not_le.2 h)

/-- Settles O28: a POLL asks its field, a WAIT its count of ticks, and a field is below `2 ^ width`. -/
theorem pollsAndWaitsHoldTheHostUntilMet : Obligations.PollsAndWaitsHoldTheHostUntilMet := by
  intro s
  refine ⟨fun addr lo width v halign => ⟨fun hmet => ?met, fun hunmet => ?unmet⟩, fun f v hunmet => ?field,
    fun n passed hbegan => ⟨fun hpassed => ?passed, fun hshort => ?short⟩, fun hnew => ?zero, fun n hnew hpos => ?begin⟩
  case met => rw [step_withHostOp_poll, hostPoll_aligned halign, if_pos hmet]
  case unmet => rw [step_withHostOp_poll, hostPoll_aligned halign, if_neg hunmet]
  case field =>
    have hoffset := regOffset_address s.cfg f.reg
    have hne : (s.readReg f.reg.offset).toNat / 2 ^ f.lo % 2 ^ f.width ≠ v :=
      hunmet.elim id fun hbig => Nat.ne_of_lt (Nat.lt_of_lt_of_le (Nat.mod_lt _ (Nat.two_pow_pos _)) hbig)
    rw [Line.op, step_withHostOp_poll, hostPoll_aligned (hoffset ▸ offset_aligned f.reg), hoffset, if_neg hne]
  case passed =>
    rw [step_withHostOp_wait, hostWaitStep_passed (hbegan ▸ hpassed)]
  case short =>
    rw [step_withHostOp_wait, hostWaitStep_waits (hbegan ▸ hshort), hbegan, Option.getD_some, ← hbegan]
  case zero =>
    rw [step_withHostOp_wait, hostWaitStep_passed (Nat.zero_le _), ← hnew]
  case begin =>
    rw [step_withHostOp_wait, hostWaitStep_waits (hnew ▸ hpos), hnew, Option.getD_none]

end Sys2Proof.Machine
end

section
/-! The control, pin and reset-line commands (spec/40_control_pins.md R121 to R128) and the plain register accesses
(R129, R130). -/

namespace Sys2Proof.Machine

/-! ### Commands that set or clear fields -/

/-- Settles O8: a block that is not fatal runs the command. -/
theorem nopErrClearAndPinConfigTakeEffect : Obligations.NopErrClearAndPinConfigTakeEffect := by
  intro s hfatal
  exact ⟨unlessFatal_of_not hfatal _, unlessFatal_of_not hfatal _, unlessFatal_of_not hfatal _⟩

/-! ### The reset line -/

/-- The line is low when either side pulls it (10_state R25). -/
theorem rstLine_eq_false {s : State} (h : s.ext_rst = false ∨ s.rst_drive = true) : s.rstLine = false := by
  rcases h with h | h <;> simp [State.rstLine, h]

/-- The line is high when neither side pulls it (10_state R25). -/
theorem rstLine_eq_true {s : State} (hext : s.ext_rst = true) (hdrive : s.rst_drive = false) : s.rstLine = true := by
  simp [State.rstLine, hext, hdrive]

/-- The line already had its level: no edge (43_reset_monitor R243). -/
theorem lineChanged_noEdge {s : State} {old : Bool} (h : s.rstLine = old) : s.lineChanged old = s :=
  h ▸ lineChanged_same s

/-- The monitor does not follow a fall unless it is armed and in ArmedForFall (43_reset_monitor R244, R246). -/
theorem lineChanged_unfollowedFall {s : State} (h : s.rm_armed = false ∨ s.rm_phase = .armedForRise) :
    s.lineChanged true = s := by
  have hfall : s.fall = s := if_neg (by rcases h with h | h <;> simp [h])
  unfold State.lineChanged
  cases s.rstLine with
  | false => exact hfall
  | true => exact rfl

/-- The monitor does not follow a rise unless it is armed and in ArmedForRise (43_reset_monitor R244, R247). -/
theorem lineChanged_unfollowedRise {s : State} (h : s.rm_armed = false ∨ s.rm_phase = .armedForFall) :
    s.lineChanged false = s := by
  have hrise : s.rise = s := if_neg (by rcases h with h | h <;> simp [h])
  unfold State.lineChanged
  cases s.rstLine with
  | false => exact rfl
  | true => exact hrise

section
variable {s : State} (hline : s.rstLine = true) (harmed : s.rm_armed = true) (hphase : s.rm_phase = .armedForRise)
include hline harmed hphase

/-- A pulse of T_DEBOUNCE ticks or more is accepted (43_reset_monitor R248, R250). -/
theorem lineChanged_accept (h : tDebounce ≤ s.elapsed) : s.lineChanged false = s.accept := by
  rw [lineChanged_rise hline harmed hphase, if_pos h]

/-- A shorter pulse is a glitch (43_reset_monitor R248, R249). -/
theorem lineChanged_glitch (h : s.elapsed < tDebounce) : s.lineChanged false = s.glitch := by
  rw [lineChanged_rise hline harmed hphase, if_neg (Nat.not_le.2 h)]

end

/-- RST_DRIVE_LOW pulls the line, which had level `old` (40_control_pins R127). -/
theorem exec_rstDriveLow {s : State} {old : Bool} (hfatal : s.fatal = false) (hold : s.rstLine = old) :
    exec .rstDriveLow s = .next (State.lineChanged { s with rst_drive := true } old) :=
  hold ▸ unlessFatal_of_not hfatal _

/-- RST_RELEASE lets go of the line, which had level `old` (40_control_pins R128). -/
theorem exec_rstRelease {s : State} {old : Bool} (hfatal : s.fatal = false) (hold : s.rstLine = old) :
    exec .rstRelease s = .next (State.lineChanged { s with rst_drive := false } old) :=
  hold ▸ unlessFatal_of_not hfatal _

/-- Settles O9: the line's level before and after the command says which edge it is, and the monitor's arming and phase
what the edge does. -/
theorem resetLineCommandsMoveTheLineAndTheMonitor : Obligations.ResetLineCommandsMoveTheLineAndTheMonitor := by
  intro s hfatal
  have hdriven : State.rstLine { s with rst_drive := true } = false := rstLine_eq_false (.inr rfl)
  have hreleased (hext : s.ext_rst = true) : State.rstLine { s with rst_drive := false } = true :=
    rstLine_eq_true hext rfl
  refine ⟨fun hlow => ?staysLow, fun hext hdrive hunfollowed => ?unfollowedFall,
    fun hext hdrive harmed hphase => ?fall, fun hno => ?noRise, fun hext hdrive hunfollowed => ?unfollowedRise,
    fun hext hdrive harmed hphase hlong => ?accept, fun hext hdrive harmed hphase hshort => ?glitch⟩
  case staysLow => rw [exec_rstDriveLow hfatal (rstLine_eq_false hlow), lineChanged_noEdge hdriven]
  case unfollowedFall =>
    rw [exec_rstDriveLow hfatal (rstLine_eq_true hext hdrive),
      lineChanged_unfollowedFall (s := { s with rst_drive := true }) hunfollowed]
  case fall => rw [exec_rstDriveLow hfatal (rstLine_eq_true hext hdrive), lineChanged_fall hdriven harmed hphase]
  case noRise =>
    have hsame : State.rstLine { s with rst_drive := false } = s.rstLine := by
      rcases hno with h | h <;> simp [State.rstLine, h]
    rw [exec_rstRelease hfatal rfl, lineChanged_noEdge hsame]
  case unfollowedRise =>
    rw [exec_rstRelease hfatal (rstLine_eq_false (.inr hdrive)),
      lineChanged_unfollowedRise (s := { s with rst_drive := false }) hunfollowed]
  case accept =>
    rw [exec_rstRelease hfatal (rstLine_eq_false (.inr hdrive)),
      lineChanged_accept (hreleased hext) harmed hphase hlong]
    rfl
  case glitch =>
    rw [exec_rstRelease hfatal (rstLine_eq_false (.inr hdrive)),
      lineChanged_glitch (hreleased hext) harmed hphase hshort]
    rfl

/-! ### Plain register accesses -/

/-- The bits that `lowBits` keeps, of any number of bits: a word has none from bit 32 on (10_state R46, R47). -/
theorem getLsbD_lowBits_anyWidth (n : Nat) (v : Word) (k : Nat) :
    (lowBits n v).getLsbD k = (v.getLsbD k && decide (k < n)) := by
  by_cases hk : k < 32
  · simp only [lowBits, BitVec.getLsbD_and, BitVec.getLsbD_ofNat, Nat.testBit_two_pow_sub_one, hk, decide_true,
      Bool.true_and]
  · simp [BitVec.getLsbD_of_ge _ _ (Nat.le_of_not_lt hk)]

/-- A write at a named register's offset other than CMD's is a plain one. -/
theorem hostWrite_reg {s : State} {addr : Word} {r : Reg} (h : s.cfg.regOffset addr = r.offset) (hr : r.offset ≠ 0)
    (v : Word) : hostWrite .w32 addr v s = .next (s.writeReg r.offset v) := by
  rw [hostWrite_plain (h ▸ offset_aligned r) (h ▸ hr), h]

/-- A plain write is ignored where no writable register stands (40_control_pins R129). -/
theorem writeReg_ignored {o : Byte} (h : ∀ r, Reg.at o = some r → r.writable = false) (s : State) (v : Word) :
    s.writeReg o v = s := by
  unfold State.writeReg
  split
  case h_5 => rfl
  all_goals next hat => cases h _ hat

/-- The offsets of 10_state R39 are the only places of the registers. -/
theorem offset_of_at {o : Byte} {r : Reg} (h : Reg.at o = some r) : r.offset = o := by
  unfold Reg.at at h
  generalize hn : o.toNat = n at h
  split at h <;> cases h
  all_goals exact (BitVec.eq_of_toNat_eq hn).symm

/-- No writable register stands from CFG0's offset on (10_state R39). -/
theorem at_notWritable {o : Byte} (ho : 0x20 ≤ o.toNat) {r : Reg} (h : Reg.at o = some r) : r.writable = false := by
  rw [← offset_of_at h] at ho
  cases r
  case CMD | DMA_SRC | DMA_COUNT | EXT_CLAIM | IMEM_EXT => exact absurd ho (by decide)
  all_goals rfl

/-- Settles O25: each of the four writable registers takes the write; at any other offset nothing does. -/
theorem plainWritesStoreOnlyTheirRegister : Obligations.PlainWritesStoreOnlyTheirRegister := by
  intro s addr v
  refine ⟨fun h => ?src, fun h => ?count, fun h => ?claim, fun h => ?imem, fun halign hplace => ?ignored⟩
  case src => exact hostWrite_reg (r := .DMA_SRC) h (by decide) v
  case count => exact hostWrite_reg (r := .DMA_COUNT) h (by decide) v
  case claim => exact ⟨_, getLsbD_lowBits_anyWidth _ v, hostWrite_reg (r := .EXT_CLAIM) h (by decide) v⟩
  case imem => exact ⟨_, getLsbD_lowBits_anyWidth _ v, hostWrite_reg (r := .IMEM_EXT) h (by decide) v⟩
  case ignored =>
    rcases hplace with hview | hhigh
    · simp only [List.mem_cons, List.not_mem_nil, or_false] at hview
      rcases hview with h | h | h
      · exact hostWrite_readOnly (r := .STATUS) h rfl v
      · exact hostWrite_readOnly (r := .ERRINFO) h rfl v
      · exact hostWrite_readOnly (r := .RESULT) h rfl v
    · have hcmd : s.cfg.regOffset addr ≠ 0 := by
        intro h0
        rw [h0] at hhigh
        cases hhigh
      rw [step_withHostOp_write, hostWrite_plain halign hcmd, writeReg_ignored fun _ => at_notWritable hhigh]

/-- A reserved offset reads 0 (10_state R52). -/
theorem readReg_reserved (s : State) {o : Byte} (h : 0x30 ≤ o.toNat) : s.readReg o = 0 := by
  rw [State.readReg, at_reserved h]

/-- Settles O26: the value returned is the register's, which its row of 10_state R39 gives. -/
theorem readsReturnTheRegisterAndChangeNothing : Obligations.ReadsReturnTheRegisterAndChangeNothing := by
  intro s addr halign
  refine ⟨s.readReg (s.cfg.regOffset addr), hostRead_aligned halign, rfl,
    fun h => ?src, fun h => ?count, fun h k => ?claim, fun h k => ?imem, ?zero⟩
  case src => rw [h]; exact readReg_offset s .DMA_SRC
  case count => rw [h]; exact readReg_offset s .DMA_COUNT
  case claim => rw [h]; exact getLsbD_lowBits_anyWidth s.cfg.numCh s.ext_claim k
  case imem => rw [h]; exact getLsbD_lowBits_anyWidth s.cfg.imemWords s.imem_ext k
  case zero =>
    rintro (h | h)
    · rw [h]; exact readReg_offset s .CMD
    · exact readReg_reserved s h

end Sys2Proof.Machine
end

section
/-! The streamer's commands (spec/41_streamer.md R151 to R160): where SM_LOAD places the program, and what moves each flag
of the life cycle (R150). -/

namespace Sys2Proof.Machine

/-! ### SM_LOAD -/

/-- A region that has the words `o` to `o + len - 1` is in use exactly when one of them is. -/
theorem regionFree_eq_false_iff {s : State} {o len : Nat} (h : o + len ≤ 32) :
    s.regionFree len o = false ↔ ∃ j < len, (s.imem_own.getLsbD (o + j) || s.imem_ext.getLsbD (o + j)) = true := by
  rw [← Bool.not_eq_true, regionFree_iff h]
  simp only [Classical.not_forall, Bool.not_eq_false, exists_prop]

section
variable {s : State} (hfatal : s.fatal = false)
include hfatal

theorem exec_smLoad_loaded (h : s.sm_loaded = true) :
    exec .smLoad s = .next (s.raiseError .alreadyLoaded Instr.smLoad.opcode) :=
  (unlessFatal_of_not hfatal _).trans (if_pos h)

theorem exec_smLoad_exhausted (h : s.sm_loaded = false) (hplace : s.placement = none) :
    exec .smLoad s = .next (s.raiseFatal .imemExhausted Instr.smLoad.opcode) := by
  refine (unlessFatal_of_not hfatal _).trans ?_
  rw [if_neg (ne_true_of_eq_false h), hplace]

theorem exec_smLoad_placed (h : s.sm_loaded = false) {o : Nat} (hplace : s.placement = some o) :
    exec .smLoad s = .next { s with
      imem_own := s.imem_own ||| region o s.cfg.progLen, sm_handle := BitVec.ofNat 5 o,
      res_handle := BitVec.ofNat 8 o, sm_loaded := true } := by
  refine (unlessFatal_of_not hfatal _).trans ?_
  rw [if_neg (ne_true_of_eq_false h), hplace]

end

/-- Settles O12: the loop's answer is the highest offset whose words are free, and the region's bits are those words. -/
theorem smLoadTakesTheHighestFreeRegion : Obligations.SmLoadTakesTheHighestFreeRegion := by
  intro s hwf hfatal
  obtain ⟨_, _, himem, _⟩ := config_bounds hwf
  refine ⟨exec_smLoad_loaded hfatal, fun hnew hfull => ?exhausted, fun hnew o hfits hfree hhigher => ?placed⟩
  case exhausted =>
    have hplace : s.placement = none :=
      placement_eq_none.2 fun o hfits => (regionFree_eq_false_iff (by omega)).2 (hfull o hfits)
    exact exec_smLoad_exhausted hfatal hnew hplace
  case placed =>
    have hplace : s.placement = some o :=
      placement_eq_some.2 ⟨hfits, (regionFree_iff (by omega)).2 hfree, fun o' habove hfits' =>
        (regionFree_eq_false_iff (by omega)).2 (hhigher o' habove hfits')⟩
    refine ⟨s.imem_own ||| region o s.cfg.progLen, fun k => ?_, exec_smLoad_placed hfatal hnew hplace⟩
    rw [BitVec.getLsbD_or, getLsbD_region (by omega)]

/-! ### SM_CONFIG, SM_ENABLE, SM_DISABLE, SM_RESTART -/

/-- Settles O13: SM_CONFIG asks first whether a program is loaded, then whether the streamer is enabled. -/
theorem smConfigClearsThePipelineAndConfigures : Obligations.SmConfigClearsThePipelineAndConfigures := by
  intro s hfatal
  have hrun := unlessFatal_of_not hfatal
  refine ⟨fun hnew => (hrun _).trans ?notLoaded, fun hloaded hon => (hrun _).trans ?enabled,
    fun hloaded hoff => (hrun _).trans ?configured⟩
  case notLoaded => exact if_pos (by simp [hnew])
  case enabled => exact (if_neg (by simp [hloaded])).trans (if_pos hon)
  case configured => exact (if_neg (by simp [hloaded])).trans (if_neg (by simp [hoff]))

/-- Settles O14: SM_ENABLE asks for the pins and for the streamer. -/
theorem smEnableNeedsPinsAndConfiguration : Obligations.SmEnableNeedsPinsAndConfiguration := by
  intro s hfatal
  have hrun := unlessFatal_of_not hfatal
  refine ⟨fun hmissing => (hrun _).trans (if_pos ?_), fun hpins hconfig => (hrun _).trans (if_neg ?_)⟩
  · rcases hmissing with h | h <;> simp [h]
  · simp [hpins, hconfig]

/-- Settles O15: neither command checks anything but the fatal state. -/
theorem smDisableFreezesAndSmRestartClears : Obligations.SmDisableFreezesAndSmRestartClears :=
  fun _ hfatal => ⟨unlessFatal_of_not hfatal _, unlessFatal_of_not hfatal _⟩

/-! ### The life cycle -/

/-- The flags of the life cycle (41_streamer R150; 10_state R26, R34). -/
structure LifeCycle where
  loaded : Bool
  configured : Bool
  enabled : Bool
  pins : Bool
  feeder : Bool

/-- The flags as the state holds them. -/
def State.lifeCycle (s : State) : LifeCycle where
  loaded := s.sm_loaded
  configured := s.sm_configured
  enabled := s.sm_enabled
  pins := s.pins_configured
  feeder := s.feeder_active

/-- The flags after a command that no check of its own stopped. -/
def LifeCycle.moved (l : LifeCycle) : Instr → LifeCycle
  | .smLoad => { l with loaded := true }
  | .smConfig => { l with configured := true }
  | .smEnable => { l with enabled := true }
  | .smDisable | .smRestart => { l with enabled := false }
  | .pinConfig => { l with pins := true }
  | .dmaStart => { l with feeder := true }
  | .dmaStop _ => { l with feeder := false }
  | .nop | .rmArm | .rmClear | .rstDriveLow | .rstRelease | .errClear => l

section
variable {l : LifeCycle} {i : Instr}

theorem moved_loaded (h : (l.moved i).loaded ≠ l.loaded) : (l.moved i).loaded = true ∧ i = .smLoad := by
  cases i
  case smLoad => exact ⟨rfl, rfl⟩
  all_goals exact absurd rfl h

theorem moved_configured (h : (l.moved i).configured ≠ l.configured) :
    (l.moved i).configured = true ∧ i = .smConfig := by
  cases i
  case smConfig => exact ⟨rfl, rfl⟩
  all_goals exact absurd rfl h

theorem moved_enabled (h : (l.moved i).enabled ≠ l.enabled) :
    ((l.moved i).enabled = true ∧ i = .smEnable)
      ∨ ((l.moved i).enabled = false ∧ (i = .smDisable ∨ i = .smRestart)) := by
  cases i
  case smEnable => exact .inl ⟨rfl, rfl⟩
  case smDisable => exact .inr ⟨rfl, .inl rfl⟩
  case smRestart => exact .inr ⟨rfl, .inr rfl⟩
  all_goals exact absurd rfl h

theorem moved_pins (h : (l.moved i).pins ≠ l.pins) : (l.moved i).pins = true ∧ i = .pinConfig := by
  cases i
  case pinConfig => exact ⟨rfl, rfl⟩
  all_goals exact absurd rfl h

theorem moved_feeder (h : (l.moved i).feeder ≠ l.feeder) :
    ((l.moved i).feeder = true ∧ i = .dmaStart) ∨ ((l.moved i).feeder = false ∧ ∃ c, i = .dmaStop c) := by
  cases i
  case dmaStart => exact .inl ⟨rfl, rfl⟩
  case dmaStop c => exact .inr ⟨rfl, c, rfl⟩
  all_goals exact absurd rfl h

end

/-- A command leaves the life cycle, or moves it as its row says. -/
theorem exec_lifeCycle {i : Instr} {s t : State} (h : exec i s = .next t) :
    t.lifeCycle = s.lifeCycle ∨ t.lifeCycle = s.lifeCycle.moved i := by
  cases hf : s.fatal
  case true =>
    rw [exec_fatal hf] at h
    cases h
    exact .inl rfl
  cases i <;> replace h := (unlessFatal_of_not hf _).symm.trans h
  case nop | rmClear | errClear =>
    cases h
    exact .inl rfl
  case pinConfig | smDisable | smRestart =>
    cases h
    exact .inr rfl
  case rstDriveLow | rstRelease =>
    cases h
    rw [lineChanged_frame]
    exact .inl rfl
  case rmArm =>
    split at h <;> cases h <;> exact .inl rfl
  case smEnable =>
    split at h <;> cases h
    · exact .inl rfl
    · exact .inr rfl
  case smLoad =>
    split at h
    · cases h
      exact .inl rfl
    · split at h <;> cases h
      · exact .inr rfl
      · exact .inl rfl
  case smConfig | dmaStart | dmaStop =>
    split at h
    · cases h
      exact .inl rfl
    · split at h <;> cases h
      · exact .inl rfl
      · exact .inr rfl

/-- The DMA's turn writes the FIFO, the channels and the error record only (42_dma_feeder R208, R209). -/
theorem dmaStep_frame (s : State) :
    dmaStep s = { s with
      fifo := (dmaStep s).fifo, ch := (dmaStep s).ch, err := (dmaStep s).err, errcode := (dmaStep s).errcode,
      err_op := (dmaStep s).err_op, err_async := (dmaStep s).err_async } := by
  rcases dmaStep_cases s with ⟨_, e⟩ | ⟨_, _, e⟩ | ⟨_, _, _, e⟩ <;> rw [e] <;> rfl

/-- A step leaves the life cycle, but for a command of its own and block reset (41_streamer R150, R161). -/
theorem step_lifeCycle {s t : State} (h : step s = .next t) :
    t.lifeCycle = s.lifeCycle ∨ (∃ i, s.runsCommand i ∧ t.lifeCycle = s.lifeCycle.moved i)
      ∨ s.takesTurn .blockReset := by
  rcases step_next_cases h with hu | ⟨i, u, hrun, hu, hexec⟩ | ⟨e, w, u, _, hu, rfl⟩ | ⟨o, v, u, _, hu, rfl⟩
    | ⟨u, _, hu, hstreamer⟩ | ⟨u, _, hu, rfl⟩ | ⟨u, _, hu, rfl⟩ | ⟨v, u, _, hu, rfl⟩ | ⟨v, u, _, hu, rfl⟩
    | ⟨v, u, _, hu, rfl⟩ | ⟨a, b, u, _, hu, rfl⟩ | ⟨u, hturn, hu, rfl⟩ <;> obtain ⟨_, _, _, _, rfl⟩ := hu
  · exact .inl rfl
  · exact (exec_lifeCycle hexec).imp_right fun hmoved => .inl ⟨i, hrun, hmoved⟩
  · exact .inl rfl
  · rw [writeReg_frame]
    exact .inl rfl
  · rcases streamerStep_next_cases hstreamer with rfl | ⟨e, _, _, rfl⟩
    · exact .inl rfl
    · rw [applyEffect_frame]
      exact .inl rfl
  · rw [dmaStep_frame]
    exact .inl rfl
  · exact .inl rfl
  · rw [setExtRst_frame]
    exact .inl rfl
  · exact .inl rfl
  · exact .inl rfl
  · exact .inl rfl
  · exact .inr (.inr hturn)

/-- Settles O47: a flag that changes is one that the step's own command moves. -/
theorem onlyCommandsMoveTheLifeCycle : Obligations.OnlyCommandsMoveTheLifeCycle := by
  intro s t h
  rcases step_lifeCycle h with hkeep | ⟨i, hrun, hmove⟩ | hreset
  · injection hkeep with hloaded hconfigured henabled hpins hfeeder
    exact ⟨absurd hloaded, absurd hconfigured, absurd henabled, absurd hpins, absurd hfeeder⟩
  · rw [show t.sm_loaded = _ from congrArg LifeCycle.loaded hmove,
      show t.sm_configured = _ from congrArg LifeCycle.configured hmove,
      show t.sm_enabled = _ from congrArg LifeCycle.enabled hmove,
      show t.pins_configured = _ from congrArg LifeCycle.pins hmove,
      show t.feeder_active = _ from congrArg LifeCycle.feeder hmove]
    refine ⟨fun hne => ?loaded, fun hne => ?configured, fun hne => ?enabled, fun hne => ?pins, fun hne => ?feeder⟩
    case loaded =>
      obtain ⟨hval, rfl⟩ := moved_loaded hne
      exact .inl ⟨hval, hrun⟩
    case configured =>
      obtain ⟨hval, rfl⟩ := moved_configured hne
      exact .inl ⟨hval, hrun⟩
    case pins =>
      obtain ⟨hval, rfl⟩ := moved_pins hne
      exact .inl ⟨hval, hrun⟩
    case enabled =>
      rcases moved_enabled hne with ⟨hval, rfl⟩ | ⟨hval, rfl | rfl⟩
      · exact .inl ⟨hval, hrun⟩
      · exact .inr (.inl ⟨hval, .inl hrun⟩)
      · exact .inr (.inl ⟨hval, .inr hrun⟩)
    case feeder =>
      rcases moved_feeder hne with ⟨hval, rfl⟩ | ⟨hval, c, rfl⟩
      · exact .inl ⟨hval, hrun⟩
      · exact .inr (.inl ⟨hval, c, hrun⟩)
  · exact ⟨fun _ => .inr hreset, fun _ => .inr hreset, fun _ => .inr (.inr hreset), fun _ => .inr hreset,
      fun _ => .inr (.inr hreset)⟩

end Sys2Proof.Machine
end

section
/-! The streamer's turn (spec/41_streamer.md R161 to R178): when it has none, what stops it, and what the parts of an
effect make of each field of the datapath. -/

namespace Sys2Proof.Machine

/-! ### Which turn it is -/

theorem streamerStep_disabled {s : State} (h : s.sm_enabled = false) : streamerStep s = .next s :=
  if_pos (by rw [h]; rfl)

theorem streamerStep_outside {s : State} (hon : s.sm_enabled = true) (h : s.cfg.progLen ≤ s.progOffset) :
    streamerStep s = .fault .pcOutsideProgram := by
  simp [streamerStep, hon, List.getElem?_eq_none h]

theorem isPull_eq_true_iff {a : BusAction} : a.isPull = true ↔ a = .pull := by
  cases a <;> simp [BusAction.isPull]

/-- An effect waits exactly when it pulls and the FIFO is empty (41_streamer R163, R185). -/
theorem pullWaits_iff {s : State} {e : BusEffect} : s.pullWaits e = true ↔ s.fifo = [] ∧ .pull ∈ e.acts := by
  simp [State.pullWaits, isPull_eq_true_iff]

section
variable {s : State} {word : BusTree} (hon : s.sm_enabled = true)
  (hword : s.cfg.program[s.progOffset]? = some word)
include hon hword

theorem streamerStep_stall (heval : word.eval s.busView = none) : streamerStep s = .next s := by
  simp [streamerStep, hon, hword, heval]

variable {e : BusEffect} (heval : word.eval s.busView = some e)
include heval

theorem streamerStep_broken (hwf : e.wf s.cfg = false) : streamerStep s = .fault .busProgramBroken := by
  simp [streamerStep, hon, hword, heval, hwf]

theorem streamerStep_waits (hwf : e.wf s.cfg = true) (hfifo : s.fifo = []) (hpull : .pull ∈ e.acts) :
    streamerStep s = .next s := by
  simp [streamerStep, hon, hword, heval, hwf, pullWaits_iff.2 ⟨hfifo, hpull⟩]

theorem streamerStep_effect (hwf : e.wf s.cfg = true) (hbyte : s.fifo ≠ [] ∨ .pull ∉ e.acts) :
    streamerStep s = .next (s.applyEffect e) := by
  have hgo : s.pullWaits e = false := by
    rw [← Bool.not_eq_true, pullWaits_iff]
    exact fun ⟨hempty, hpull⟩ => hbyte.elim (· hempty) (· hpull)
  simp [streamerStep, hon, hword, heval, hwf, hgo]

end

/-- Settles O39: each breach is the failure of one clause of the step contract. -/
theorem aDisabledStreamerIsFrozenAndABrokenOneFaults : Obligations.ADisabledStreamerIsFrozenAndABrokenOneFaults := by
  intro s
  refine ⟨streamerStep_disabled, streamerStep_outside, fun word e hon hword heval hbreach => ?_⟩
  have hwf : e.wf s.cfg = false := by
    rw [← Bool.not_eq_true, effect_wf_iff]
    rintro ⟨hnext, hpulls, hdata, hsides, hallowed⟩
    rcases hbreach with h | h | h | h | ⟨hoff, hside⟩
    · omega
    · omega
    · omega
    · omega
    · rw [hoff, List.any_eq_true.2 hside] at hallowed
      rcases hallowed with h | h <;> cases h
  exact streamerStep_broken hon hword heval hwf

/-! ### What a program step may write -/

/-- An effect within the contract takes at most the FIFO's head (41_streamer R177). -/
theorem applyEffect_fifo_cases {s : State} {e : BusEffect} (hwf : e.wf s.cfg = true) :
    (s.applyEffect e).fifo = s.fifo ∨ ∃ b, s.fifo = b :: (s.applyEffect e).fifo := by
  obtain ⟨_, hpulls, _⟩ := effect_wf_iff.1 hwf
  rw [applyEffect_fifo]
  rcases Nat.le_one_iff_eq_zero_or_eq_one.1 hpulls with h | h <;> rw [h]
  · exact .inl rfl
  · cases s.fifo with
    | nil => exact .inl rfl
    | cons b rest => exact .inr ⟨b, rfl⟩

/-- Settles O40: an effect's frame and its one pull; and of the agents' turns only the DMA's makes the FIFO longer. -/
theorem programStepsWriteOnlyTheDatapath : Obligations.ProgramStepsWriteOnlyTheDatapath := by
  refine ⟨fun s t h => ?program, fun s t h => ?dma, fun s t h hlonger => ?push⟩
  case program =>
    replace h : streamerStep s = .next t := h
    rcases streamerStep_next_cases h with rfl | ⟨e, hwf, _, rfl⟩
    · exact ⟨rfl, .inl rfl, fun _ => rfl⟩
    · refine ⟨applyEffect_frame s e, applyEffect_fifo_cases hwf, fun hoff => ?_⟩
      obtain ⟨_, _, _, _, hside⟩ := effect_wf_iff.1 hwf
      exact acts_sideset_out _ _ _ (hside.resolve_left (by simp [hoff]))
  case dma =>
    cases h
    rw [dmaStep_frame]
    exact ⟨rfl, rfl, rfl, rfl⟩
  case push =>
    rcases step_transfer_cases h with hkept | hdma | ⟨_, _, _, hfifo⟩ | ⟨_, _, _, hfifo⟩ | ⟨_, _, hfifo⟩
    · exact absurd hkept.fifo.length_le (Nat.not_le.2 hlonger)
    · exact hdma
    all_goals
      rw [hfifo] at hlonger
      simp at hlonger

/-! ### What the parts of an effect make of each field -/

section
variable {σ α β : Type} {f : σ → α → σ} {field : σ → β} {p : α → Bool}
  (hkeep : ∀ x a, p a = false → field (f x a) = field x)
include hkeep

/-- A field that only the parts `p` write stays when there are none. -/
theorem foldl_keeps : ∀ {l : List α} {x : σ}, l.countP p = 0 → field (l.foldl f x) = field x
  | [], _, _ => rfl
  | a :: l, x, h => by
    obtain ⟨ha, hl⟩ := List.forall_mem_cons.1 (List.countP_eq_zero.1 h)
    rw [List.foldl_cons, foldl_keeps (List.countP_eq_zero.2 hl), hkeep x a (Bool.not_eq_true _ ▸ ha)]

/-- A field that only the parts `p` write is what the single one of them makes it. -/
theorem foldl_sets {a : α} {y : β} (hset : ∀ x, field (f x a) = y) (ha : p a = true) :
    ∀ {l : List α} {x : σ}, l.countP p ≤ 1 → a ∈ l → field (l.foldl f x) = y
  | b :: l, x, hone, hmem => by
    rw [List.foldl_cons]
    rw [List.countP_cons] at hone
    rcases List.mem_cons.1 hmem with rfl | hmem
    · rw [if_pos ha] at hone
      rw [foldl_keeps hkeep (by omega), hset]
    · exact foldl_sets hset ha (by omega) hmem

end

/-- A field's value after the parts of an effect, part by part, when the effect pulls at most once and then finds `b`. -/
theorem acts_foldl {β : Type} {v : BusView} {b : Byte} {field : State → β} {g : β → BusAction → β} (c : Config)
    (hpart : ∀ s a, s.cfg = c → (a = .pull → s.fifo.head? = some b) → field (s.act v a) = g (field s) a) :
    ∀ (l : List BusAction) (s : State), s.cfg = c → l.countP BusAction.isPull ≤ 1 →
      (.pull ∈ l → s.fifo.head? = some b) → field (l.foldl (State.act v) s) = l.foldl g (field s)
  | [], _, _, _, _ => rfl
  | a :: l, s, hc, hone, hbyte => by
    have hc' : (s.act v a).cfg = c := by rw [act_frame, hc]
    have hbyte' (h : .pull ∈ l) : (s.act v a).fifo.head? = some b := by
      have hpulls : 0 < l.countP BusAction.isPull := List.countP_pos_iff.2 ⟨_, h, rfl⟩
      rw [List.countP_cons] at hone
      rw [act_fifo, if_neg fun ha => by rw [if_pos ha] at hone; omega]
      exact hbyte (List.mem_cons_of_mem _ h)
    have hone' : l.countP BusAction.isPull ≤ 1 := Nat.le_trans (List.sublist_cons_self a l).countP_le hone
    rw [List.foldl_cons, List.foldl_cons, acts_foldl c hpart l _ hc' hone' hbyte',
      hpart s a hc fun ha => hbyte (ha ▸ List.mem_cons_self)]

/-- A pull writes the FIFO, `osr` and its count only (41_streamer R163). -/
theorem pull_frame (s : State) :
    s.pull = { s with fifo := s.pull.fifo, osr := s.pull.osr, osr_count := s.pull.osr_count } := by
  unfold State.pull
  split <;> rfl

/-- A pull that finds `b` (41_streamer R163). -/
theorem act_pull {v : BusView} {s : State} {b : Byte} (h : s.fifo.head? = some b) :
    s.act v .pull = { s with fifo := s.fifo.tail, osr := b, osr_count := 8 } := by
  obtain ⟨rest, hfifo⟩ := List.head?_eq_some_iff.1 h
  rw [State.act, pull_cons hfifo, hfifo, List.tail_cons]

/-- Only a `WriteData` drives the data pins (41_streamer R164). -/
theorem act_data_out (v : BusView) (s : State) (a : BusAction) (h : a.isData = false) :
    (s.act v a).data_out = s.data_out := by
  cases a
  case writeData => cases h
  case pull => rw [State.act, pull_frame]
  all_goals rfl

/-- `WriteData` takes the shared pins back from side-set (41_streamer R164). -/
theorem getLsbD_takesBack (c : Config) (owner : BitVec 3) {i : Nat} (h : i < 3) :
    (owner &&& ~~~c.sharedSide).getLsbD i
      = (owner.getLsbD i && !(decide (c.dataBase ≤ c.sidesetBase + i) && decide (c.sidesetBase + i < c.dataBase + 8))) := by
  rw [BitVec.getLsbD_and, BitVec.getLsbD_not, getLsbD_sharedSide c h, decide_eq_true h, Bool.true_and]
  rfl

/-- Settles O53: what each part makes of a field, folded over the parts; at most one of them pulls, drives the data pins,
or drives side-set. -/
theorem aProgramStepDoesWhatItsPartsSay : Obligations.AProgramStepDoesWhatItsPartsSay := by
  intro s word hon hword
  refine ⟨streamerStep_stall hon hword, fun e => streamerStep_waits hon hword, fun e heval hwf hbyte => ?_⟩
  obtain ⟨_, hpulls, hdata, hsides, _⟩ := effect_wf_iff.1 hwf
  have hhead (h : .pull ∈ e.acts) : s.fifo.head? = some (s.fifo.headD 0) := by
    have hne : s.fifo ≠ [] := hbyte.resolve_right (· h)
    rw [List.headD_eq_head?_getD, List.head?_eq_some_head hne, Option.getD_some]
  refine ⟨s.applyEffect e, streamerStep_effect hon hword heval hwf hbyte, applyEffect_frame s e, rfl,
    fun h => ?pulled, fun h => ?kept, ?osr, ?osrCount, ?isr, ?isrCount, fun b h => ?data, fun h => ?dataKept,
    fun v h => ?side, fun h => ?sideKept, fun i hi => ?owner⟩
  case pulled =>
    have hone : e.acts.countP BusAction.isPull = 1 := Nat.le_antisymm hpulls (List.countP_pos_iff.2 ⟨_, h, rfl⟩)
    obtain ⟨rest, hfifo⟩ := List.head?_eq_some_iff.1 (hhead h)
    exact ⟨_, by rw [applyEffect_fifo, hone, hfifo]; rfl⟩
  case kept =>
    have hnone : e.acts.countP BusAction.isPull = 0 :=
      List.countP_eq_zero.2 fun a ha hp => h (isPull_eq_true_iff.1 hp ▸ ha)
    rw [applyEffect_fifo, hnone, List.drop_zero]
  case osr =>
    refine acts_foldl (field := State.osr) s.cfg (fun u a _ hb => ?_) e.acts s rfl hpulls hhead
    cases a
    case pull => rw [act_pull (hb rfl)]
    case setOsr b => exact eval_busView s b
    all_goals rfl
  case osrCount =>
    refine acts_foldl (field := State.osr_count) s.cfg (fun u a _ hb => ?_) e.acts s rfl hpulls hhead
    cases a
    case pull => rw [act_pull (hb rfl)]
    all_goals rfl
  case isr =>
    refine acts_foldl (field := State.isr) s.cfg (fun u a _ hb => ?_) e.acts s rfl hpulls hhead
    cases a
    case pull => rw [act_pull (hb rfl)]
    case setIsr b => exact eval_busView s b
    all_goals rfl
  case isrCount =>
    refine acts_foldl (field := State.isr_count) s.cfg (fun u a _ hb => ?_) e.acts s rfl hpulls hhead
    cases a
    case pull => rw [act_pull (hb rfl)]
    all_goals rfl
  case data =>
    exact foldl_sets (field := State.data_out) (a := .writeData b) (act_data_out s.busView) (fun _ => eval_busView s b)
      rfl hdata h
  case dataKept =>
    refine foldl_keeps (field := State.data_out) (act_data_out s.busView) (List.countP_eq_zero.2 fun a ha hd => ?_)
    cases a
    case writeData b => exact h b ha
    all_goals cases hd
  case side =>
    exact foldl_sets (field := State.sideset_out) (a := .writeSide v) (fun u a ha => (act_side s.busView u a ha).1)
      (fun _ => rfl) rfl hsides h
  case sideKept =>
    refine foldl_keeps (field := State.sideset_out) (fun u a ha => (act_side s.busView u a ha).1)
      (List.countP_eq_zero.2 fun a ha hd => ?_)
    cases a
    case writeSide v => exact h v ha
    all_goals cases hd
  case owner =>
    refine acts_foldl (field := fun u => u.side_owner.getLsbD i) s.cfg (fun u a hc hb => ?_) e.acts s rfl hpulls hhead
    cases a
    case pull => rw [act_pull (hb rfl)]
    case writeData b => exact hc ▸ getLsbD_takesBack u.cfg u.side_owner hi
    case writeSide v => exact (BitVec.getLsbD_allOnes (v := 3)).trans (decide_eq_true hi)
    all_goals rfl

end Sys2Proof.Machine
end

section
/-! Which steps answer (spec/41_streamer.md R178, 60_exceptions R304): a command always, the streamer under the
invariant, the host unless its access is undefined. -/

namespace Sys2Proof.Machine

/-- The result is a next state. -/
def Answers (r : Result) : Prop := ∃ t, r = .next t

theorem answers_next (s : State) : Answers (.next s) := ⟨s, rfl⟩

theorem answers_unlessFatal {s : State} {r : Result} (h : Answers r) : Answers (unlessFatal s r) := by
  unfold unlessFatal
  split
  · exact answers_next s
  · exact h

/-- Every command answers, in every state. -/
theorem exec_answers (i : Instr) (s : State) : Answers (exec i s) := by
  cases i <;> refine answers_unlessFatal ?_
  case nop | pinConfig | smDisable | smRestart | rmClear | rstDriveLow | rstRelease | errClear => exact answers_next _
  case smEnable | rmArm => split <;> exact answers_next _
  case smLoad | smConfig | dmaStart | dmaStop =>
    split
    · exact answers_next _
    · split <;> exact answers_next _

theorem executeWord_answers (w : Word) (s : State) : Answers (executeWord w s) := by
  refine answers_unlessFatal ?_
  split
  · exact exec_answers _ s
  · exact answers_next _

/-- Under the invariant `sm_pc` is in the program while the streamer is enabled, and every word obeys the step contract
(41_streamer R178). -/
theorem streamerStep_answers {s : State} (h : s.Inv) : Answers (streamerStep s) := by
  rcases streamerStep_cases s with ⟨_, e⟩ | ⟨hon, hnone, _⟩
    | ⟨w, _, hword, ⟨_, e⟩ | ⟨_, heval, ⟨hbroken, _⟩ | ⟨_, _, e⟩ | ⟨_, _, e⟩⟩⟩
  · exact ⟨_, e⟩
  · obtain ⟨_, hconfigured⟩ := h.enabled_ready hon
    exact absurd (h.pc_in_program hconfigured) (Nat.not_lt.2 (List.getElem?_eq_none_iff.1 hnone))
  · exact ⟨_, e⟩
  · have hwf := eval_wf (config_program h.cfg_wf w (List.mem_of_getElem? hword)) heval
    rw [hbroken] at hwf
    cases hwf
  · exact ⟨_, e⟩
  · exact ⟨_, e⟩

/-- The host's line is a register access that has no meaning (20_memory R70). -/
def HostOp.Undefined (c : Config) : HostOp → Prop
  | .write width addr _ => width ≠ .w32 ∨ (c.regOffset addr).toNat % 4 ≠ 0
  | .read width addr => width ≠ .w32 ∨ (c.regOffset addr).toNat % 4 ≠ 0
  | .poll addr _ _ _ => (c.regOffset addr).toNat % 4 ≠ 0
  | .wait _ => False

/-- The host's turn answers, or refuses its undefined line. -/
theorem hostStep_answers_or (s : State) :
    Answers (hostStep s)
      ∨ (hostStep s = .refused .undefinedAccess ∧ ∃ op ops, s.host = op :: ops ∧ op.Undefined s.cfg) := by
  rcases hostStep_cases s with ⟨_, e⟩ | ⟨width, addr, v, ops, hhost, e⟩ | ⟨width, addr, ops, hhost, e⟩
    | ⟨addr, lo, width, v, ops, hhost, e⟩ | ⟨n, ops, _, e⟩
  · exact .inl ⟨_, e⟩
  · rcases hostWrite_cases width addr v { s with host := ops } with ⟨hundef, e'⟩ | ⟨_, _, e'⟩ | ⟨_, _, e'⟩
    · exact .inr ⟨e.trans e', _, ops, hhost, accessDefined_eq_false_iff.1 hundef⟩
    · exact .inl (e.trans e' ▸ executeWord_answers v _)
    · exact .inl ⟨_, e.trans e'⟩
  · by_cases hdef : accessDefined width (s.cfg.regOffset addr) = true
    · exact .inl ⟨_, e.trans (if_pos hdef)⟩
    · exact .inr ⟨e.trans (if_neg hdef), _, ops, hhost, accessDefined_eq_false_iff.1 (Bool.not_eq_true _ ▸ hdef)⟩
  · by_cases halign : (s.cfg.regOffset addr).toNat % 4 = 0
    · left
      rw [e, hostPoll_aligned (s := { s with host := ops }) halign]
      split <;> exact answers_next _
    · have hundef : accessDefined .w32 (s.cfg.regOffset addr) = false := accessDefined_eq_false_iff.2 (.inr halign)
      exact .inr ⟨e.trans (hostPoll_undefined (s := { s with host := ops }) hundef ..), _, ops, hhost, halign⟩
  · exact .inl ⟨_, e⟩

/-- Settles O44: of all turns only the host's can stop, and only at an undefined access. -/
theorem onlyAnUndefinedAccessStopsAWellFormedBlock : Obligations.OnlyAnUndefinedAccessStopsAWellFormedBlock := by
  intro s hinv
  rcases sched_cases s with hidle | ⟨turn, rest, hs⟩
  · exact .inl ⟨s, step_idle hidle⟩
  rw [step_turn hs]
  have hinv : State.Inv { s with sched := rest } := sameBlock_inv hinv ⟨_, _, _, _, rfl⟩
  cases turn with
  | host =>
    refine (hostStep_answers_or _).imp_right fun ⟨e, op, ops, hhost, hundef⟩ => ⟨e, ⟨rest, hs⟩, op, ops, hhost, ?_⟩
    cases op with
    | write width addr v => exact .inl ⟨width, addr, v, rfl, hundef⟩
    | read width addr => exact .inr (.inl ⟨width, addr, rfl, hundef⟩)
    | poll addr lo width v => exact .inr (.inr ⟨addr, lo, width, v, rfl, hundef⟩)
    | wait n => exact hundef.elim
  | streamer => exact .inl (streamerStep_answers hinv)
  | dma | tick | rst | stb0 | stb1 | payload | blockReset => exact .inl ⟨_, rfl⟩

end Sys2Proof.Machine
end

section
/-! The reference program (spec/41_streamer.md R179 to R186): its four steps, one strobe pulse, and the account of bytes
and strobe assertions over every run. -/

namespace Sys2Proof.Machine

/-! ### Its four steps -/

/-- The reference program obeys the step contract (41_streamer R176 to R179). -/
theorem refProgram_wf {c : Config} (h : c.program = refProgram) : ∀ w ∈ refProgram, w.wf c = true := by
  have hlen : c.progLen = 4 := congrArg List.length h
  simp [List.countP_cons, refProgram, refPull, refOut, refWaitLo, refWaitHi, BusTree.wf, BusEffect.wf, hlen,
    BusAction.isPull, BusAction.isData, BusAction.isSide]

/-- The state with `b` on the data pins, the FIFO `rest`, and the streamer at WAITLO: what OUT leaves of an `osr` that
holds `b` (41_streamer R164, R181). -/
def State.presents (s : State) (b : Byte) (rest : List Byte) : State :=
  { s with data_out := b, side_owner := s.side_owner &&& ~~~s.cfg.sharedSide, osr := 0, osr_count := 0, fifo := rest,
           sm_pc := s.sm_handle + 2 }

section
variable {s : State} (hon : s.sm_enabled = true) (hprog : s.cfg.program = refProgram)
include hon hprog

theorem refStep_stall {k : Nat} {word : BusTree} (hk : s.progOffset = k) (hword : refProgram[k]? = some word)
    (heval : word.eval s.busView = none) : streamerStep s = .next s :=
  streamerStep_stall hon (by rw [hprog, hk, hword]) heval

theorem refStep_effect {k : Nat} {word : BusTree} {e : BusEffect} (hk : s.progOffset = k)
    (hword : refProgram[k]? = some word) (heval : word.eval s.busView = some e)
    (hbyte : s.fifo ≠ [] ∨ .pull ∉ e.acts) : streamerStep s = .next (s.applyEffect e) :=
  streamerStep_effect hon (by rw [hprog, hk, hword]) heval
    (eval_wf (refProgram_wf hprog word (List.mem_of_getElem? hword)) heval) hbyte

theorem pull_stalls (hk : s.progOffset = 0) (hfifo : s.fifo = []) : streamerStep s = .next s :=
  refStep_stall hon hprog hk rfl (by simp [refPull, BusTree.eval, BusTest.eval, State.busView, hfifo])

theorem pull_steps (hk : s.progOffset = 0) {b : Byte} {rest : List Byte} (hfifo : s.fifo = b :: rest) :
    streamerStep s = .next { s with osr := b, osr_count := 8, fifo := rest, sm_pc := s.sm_handle + 1 } := by
  have heval : refPull.eval s.busView = some { next := 1, acts := [.pull] } := by
    simp [refPull, BusTree.eval, BusTest.eval, State.busView, hfifo]
  rw [refStep_effect hon hprog hk rfl heval (.inl (by simp [hfifo]))]
  simp [State.applyEffect, State.act, pull_cons hfifo]

theorem out_steps (hk : s.progOffset = 1) : streamerStep s = .next (s.presents s.osr s.fifo) :=
  refStep_effect hon hprog hk rfl rfl (.inr (by simp))

theorem waitLo_stalls (hk : s.progOffset = 2) (hstrobe : s.strobe0_in = true) : streamerStep s = .next s :=
  refStep_stall hon hprog hk rfl (if_pos hstrobe)

theorem waitLo_steps (hk : s.progOffset = 2) (hstrobe : s.strobe0_in = false) :
    streamerStep s = .next { s with sm_pc := s.sm_handle + 3 } :=
  refStep_effect hon hprog hk rfl (if_neg (ne_true_of_eq_false hstrobe)) (.inr List.not_mem_nil)

theorem waitHi_stalls (hk : s.progOffset = 3) (hstrobe : s.strobe0_in = false) : streamerStep s = .next s :=
  refStep_stall hon hprog hk rfl (if_neg (ne_true_of_eq_false hstrobe))

theorem waitHi_steps (hk : s.progOffset = 3) (hstrobe : s.strobe0_in = true) :
    streamerStep s = .next { s with sm_pc := s.sm_handle } := by
  rw [refStep_effect hon hprog hk rfl (if_pos hstrobe) (.inr List.not_mem_nil)]
  simp [State.applyEffect]

end

/-- Settles O38: each of the four words, with its wait met or not. -/
theorem theReferenceProgramShiftsBytes : Obligations.TheReferenceProgramShiftsBytes := by
  intro s hon hprog
  exact ⟨pull_stalls hon hprog, fun _ _ hk => pull_steps hon hprog hk,
    fun hk => ⟨_, fun _ => getLsbD_takesBack s.cfg s.side_owner, out_steps hon hprog hk⟩,
    waitLo_stalls hon hprog, waitLo_steps hon hprog, waitHi_stalls hon hprog, waitHi_steps hon hprog⟩

/-- Everything the streamer's turn can do under the reference program: nothing, or one of the four steps. -/
theorem refStep_cases {s t : State} (hprog : s.cfg.program = refProgram) (h : streamerStep s = .next t) :
    t = s
      ∨ (s.progOffset = 0 ∧ ∃ b rest, s.fifo = b :: rest
          ∧ t = { s with osr := b, osr_count := 8, fifo := rest, sm_pc := s.sm_handle + 1 })
      ∨ (s.progOffset = 1 ∧ t = s.presents s.osr s.fifo)
      ∨ (s.progOffset = 2 ∧ s.strobe0_in = false ∧ t = { s with sm_pc := s.sm_handle + 3 })
      ∨ (s.progOffset = 3 ∧ s.strobe0_in = true ∧ t = { s with sm_pc := s.sm_handle }) := by
  have hnext {u : State} (e : streamerStep s = .next u) : t = u := Host.Outcome.next.inj (h.symm.trans e)
  obtain hon | hoff := Bool.eq_false_or_eq_true s.sm_enabled
  case inr => exact .inl (hnext (streamerStep_disabled hoff))
  have hplace : s.progOffset = 0 ∨ s.progOffset = 1 ∨ s.progOffset = 2 ∨ s.progOffset = 3 ∨ 4 ≤ s.progOffset := by
    omega
  rcases hplace with hk | hk | hk | hk | hout
  · by_cases hempty : s.fifo = []
    · exact .inl (hnext (pull_stalls hon hprog hk hempty))
    · obtain ⟨b, rest, hfifo⟩ := List.exists_cons_of_ne_nil hempty
      exact .inr (.inl ⟨hk, b, rest, hfifo, hnext (pull_steps hon hprog hk hfifo)⟩)
  · exact .inr (.inr (.inl ⟨hk, hnext (out_steps hon hprog hk)⟩))
  · obtain hhigh | hlow := Bool.eq_false_or_eq_true s.strobe0_in
    · exact .inl (hnext (waitLo_stalls hon hprog hk hhigh))
    · exact .inr (.inr (.inr (.inl ⟨hk, hlow, hnext (waitLo_steps hon hprog hk hlow)⟩)))
  · obtain hhigh | hlow := Bool.eq_false_or_eq_true s.strobe0_in
    · exact .inr (.inr (.inr (.inr ⟨hk, hhigh, hnext (waitHi_steps hon hprog hk hhigh)⟩)))
    · exact .inl (hnext (waitHi_stalls hon hprog hk hlow))
  · have hlen : s.cfg.progLen = 4 := congrArg List.length hprog
    rw [streamerStep_outside hon (hlen ▸ hout)] at h
    cases h

/-! ### One strobe pulse after another -/

/-- A run whose next turn ends in `t` goes on from `t`. -/
theorem run_withTurn {s t : State} (turn : Turn) (h : runTurn turn s = .next t) (n : Nat) :
    run (n + 1) (s.withTurn turn) = run n t :=
  run_of_next ((step_withTurn s turn).trans h) n

theorem progOffset_of_pc {s : State} {k : Nat} (hk : k < 32) (h : s.sm_pc = s.sm_handle + BitVec.ofNat 5 k) :
    s.progOffset = k := by
  rw [State.progOffset, h, toNat_add_ofNat_sub _ hk]

section
variable {s : State} {b : Byte} {rest : List Byte} (hon : s.sm_enabled = true) (hprog : s.cfg.program = refProgram)
include hon hprog

/-- From PULL with a byte in the FIFO, two streamer steps put it on the data pins (41_streamer R180, R181). -/
theorem run_pull_out (hpc : s.sm_pc = s.sm_handle) (hfifo : s.fifo = b :: rest) (n : Nat) :
    run (n + 2) ((s.withTurn .streamer).withTurn .streamer) = run n (s.presents b rest) := by
  have hk : s.progOffset = 0 := progOffset_of_pc (by decide) (by rw [hpc, BitVec.add_zero])
  let atOut : State := { s with osr := b, osr_count := 8, fifo := rest, sm_pc := s.sm_handle + 1 }
  calc run (n + 2) ((s.withTurn .streamer).withTurn .streamer)
      = run (n + 1) (atOut.withTurn .streamer) :=
        run_withTurn .streamer (pull_steps (s := s.withTurn .streamer) hon hprog hk hfifo) _
    _ = run n (s.presents b rest) :=
        run_withTurn .streamer (out_steps (s := atOut) hon hprog (progOffset_of_pc (by decide) rfl)) _

/-- The turns of one strobe pulse that is asserted after WAITLO's step and released after OUT's (41_streamer R184). -/
def strobePulse : List Turn := [.streamer, .stb0 true, .streamer, .streamer, .streamer, .stb0 false]

/-- From WAITLO with the strobe low, one pulse presents the FIFO's head and comes back to WAITLO (41_streamer R184). -/
theorem run_strobePulse (hpc : s.sm_pc = s.sm_handle + 2) (hlow : s.strobe0_in = false) (hfifo : s.fifo = b :: rest)
    (n : Nat) :
    run (n + 6) { s with sched := strobePulse ++ s.sched } = run n { s.presents b rest with strobe0_in := false } := by
  let released : State := s.withTurn (.stb0 false)
  let presenting : State := (released.withTurn .streamer).withTurn .streamer
  let atPull : State := { presenting with sm_pc := s.sm_handle, strobe0_in := true }
  let atWaitHi : State := { presenting with sm_pc := s.sm_handle + 3 }
  calc run (n + 6) { s with sched := strobePulse ++ s.sched }
      = run (n + 5) ((atWaitHi.withTurn .streamer).withTurn (.stb0 true)) :=
        run_withTurn .streamer (waitLo_steps (s := (presenting.withTurn .streamer).withTurn (.stb0 true)) hon hprog
          (progOffset_of_pc (by decide) hpc) hlow) _
    _ = run (n + 4) ({ atWaitHi with strobe0_in := true }.withTurn .streamer) := run_withTurn (.stb0 true) rfl _
    _ = run (n + 3) atPull :=
        run_withTurn .streamer (waitHi_steps (s := { atWaitHi with strobe0_in := true }) hon hprog
          (progOffset_of_pc (by decide) rfl) rfl) _
    _ = run (n + 1) ({ s.presents b rest with strobe0_in := true }.withTurn (.stb0 false)) :=
        run_pull_out (s := { released with sm_pc := s.sm_handle, strobe0_in := true }) hon hprog rfl hfifo _
    _ = run n { s.presents b rest with strobe0_in := false } := run_withTurn (.stb0 false) rfl _

end

/-- Any number of pulses in a row present as many bytes, in order (41_streamer R184). -/
theorem run_strobePulses (rest : List Byte) : ∀ (bs : List Byte) (s : State),
    s.sm_enabled = true → s.cfg.program = refProgram → s.sm_pc = s.sm_handle + 2 → s.strobe0_in = false →
    s.fifo = bs ++ rest →
    ∃ t, run (6 * bs.length) { s with sched := (List.replicate bs.length strobePulse).flatten ++ s.sched } = .next t
      ∧ t.data_out = bs.getLastD s.data_out ∧ t.fifo = rest ∧ t.sm_pc = s.sm_handle + 2 ∧ t.strobe0_in = false
      ∧ t.sched = s.sched
  | [], s, _, _, hpc, hlow, hfifo => ⟨s, rfl, rfl, hfifo, hpc, hlow, rfl⟩
  | b :: bs, s, hon, hprog, hpc, hlow, hfifo => by
    let later : List Turn := (List.replicate bs.length strobePulse).flatten ++ s.sched
    obtain ⟨t, hrun, hdata, hend⟩ :=
      run_strobePulses rest bs { s.presents b (bs ++ rest) with strobe0_in := false } hon hprog rfl rfl rfl
    refine ⟨t, ?_, ?_, hend⟩
    · rw [List.length_cons, List.replicate_succ, List.flatten_cons, List.append_assoc]
      exact (run_strobePulse (s := { s with sched := later }) hon hprog hpc hlow hfifo _).trans hrun
    · rw [hdata, List.getLastD_cons]
      rfl

/-- Settles O41: PULL and OUT present the first byte, and each pulse the next. -/
theorem eachStrobePulsePresentsOneByte : Obligations.EachStrobePulsePresentsOneByte := by
  constructor
  · intro s b rest hon hprog hpc hfifo
    exact ⟨_, run_pull_out hon hprog hpc hfifo 0, rfl, rfl, rfl, rfl⟩
  · intro bs rest s hon hprog hpc hlow hfifo
    exact run_strobePulses rest bs s hon hprog hpc hlow hfifo

/-! ### The account over every run -/

/-- From `s` to `t` the streamer keeps its place, its byte and the data pins. -/
structure KeepsStreamer (s t : State) : Prop where
  sm_handle : t.sm_handle = s.sm_handle
  sm_pc : t.sm_pc = s.sm_pc
  osr : t.osr = s.osr
  data_out : t.data_out = s.data_out

theorem KeepsStreamer.refl (s : State) : KeepsStreamer s s := ⟨rfl, rfl, rfl, rfl⟩

/-- Of the commands only SM_LOAD, which a loaded block refuses, SM_CONFIG and SM_RESTART touch the streamer's place or
the FIFO (41_streamer R151, R154, R159). -/
theorem exec_keepsStreamer {i : Instr} {s t : State} (hloaded : s.sm_loaded = true) (hconfig : i ≠ .smConfig)
    (hrestart : i ≠ .smRestart) (h : exec i s = .next t) : KeepsStreamer s t ∧ t.fifo = s.fifo := by
  cases hf : s.fatal
  case true =>
    rw [exec_fatal hf] at h
    cases h
    exact ⟨.refl s, rfl⟩
  cases i <;> replace h := (unlessFatal_of_not hf _).symm.trans h
  case smConfig => exact absurd rfl hconfig
  case smRestart => exact absurd rfl hrestart
  case nop | pinConfig | smDisable | rmClear | errClear =>
    cases h
    exact ⟨⟨rfl, rfl, rfl, rfl⟩, rfl⟩
  case rstDriveLow | rstRelease =>
    cases h
    rw [lineChanged_frame]
    exact ⟨⟨rfl, rfl, rfl, rfl⟩, rfl⟩
  case smLoad =>
    rw [if_pos hloaded] at h
    cases h
    exact ⟨⟨rfl, rfl, rfl, rfl⟩, rfl⟩
  case smEnable | rmArm =>
    split at h <;> cases h <;> exact ⟨⟨rfl, rfl, rfl, rfl⟩, rfl⟩
  case dmaStart | dmaStop =>
    split at h
    · cases h
      exact ⟨⟨rfl, rfl, rfl, rfl⟩, rfl⟩
    · split at h <;> cases h <;> exact ⟨⟨rfl, rfl, rfl, rfl⟩, rfl⟩

/-- What a step that does not clear the pipeline does to the streamer, the strobe and the FIFO: nothing but a push, a
change of the strobe, or the streamer's own turn. -/
theorem step_streamer_cases {s t : State} (h : step s = .next t) (hloaded : s.sm_loaded = true)
    (hkeeps : s.keepsPipeline) :
    (KeepsStreamer s t ∧ t.strobe0_in = s.strobe0_in ∧ ∃ pushed, t.fifo = s.fifo ++ pushed)
      ∨ (KeepsStreamer s t ∧ t.fifo = s.fifo ∧ s.takesTurn (.stb0 t.strobe0_in))
      ∨ (∃ u, s.takesTurn .streamer ∧ SameBlock s u ∧ streamerStep u = .next t) := by
  obtain ⟨hconfig, hrestart, hreset⟩ := hkeeps
  rcases step_next_cases h with hu | ⟨i, u, hrun, hu, hexec⟩ | ⟨e, w, u, _, hu, rfl⟩ | ⟨o, v, u, _, hu, rfl⟩
    | ⟨u, hturn, hu, hstreamer⟩ | ⟨u, _, hu, rfl⟩ | ⟨u, _, hu, rfl⟩ | ⟨v, u, _, hu, rfl⟩ | ⟨v, u, hturn, hu, rfl⟩
    | ⟨v, u, _, hu, rfl⟩ | ⟨a, b, u, _, hu, rfl⟩ | ⟨u, hturn, hu, rfl⟩
  case inr.inr.inr.inr.inl => exact .inr (.inr ⟨u, hturn, hu, hstreamer⟩)
  all_goals obtain ⟨_, _, _, _, rfl⟩ := hu
  · exact .inl ⟨⟨rfl, rfl, rfl, rfl⟩, rfl, [], (List.append_nil _).symm⟩
  · obtain ⟨_, _, _, _, _, _, _, hstrobe, _⟩ := exec_keeps_inputs i _ t hexec
    obtain ⟨⟨hhandle, hpc, hosr, hdata⟩, hfifo⟩ := exec_keepsStreamer (by exact hloaded)
      (fun hi => hconfig (hi ▸ hrun)) (fun hi => hrestart (hi ▸ hrun)) hexec
    exact .inl ⟨⟨hhandle, hpc, hosr, hdata⟩, hstrobe, [], hfifo.trans (List.append_nil _).symm⟩
  · exact .inl ⟨⟨rfl, rfl, rfl, rfl⟩, rfl, [], (List.append_nil _).symm⟩
  · rw [writeReg_frame]
    exact .inl ⟨⟨rfl, rfl, rfl, rfl⟩, rfl, [], (List.append_nil _).symm⟩
  · rcases dmaStep_cases _ with ⟨_, e⟩ | ⟨_, _, e⟩ | ⟨b, _, _, e⟩ <;> rw [e]
    · exact .inl ⟨⟨rfl, rfl, rfl, rfl⟩, rfl, [], (List.append_nil _).symm⟩
    · exact .inl ⟨⟨rfl, rfl, rfl, rfl⟩, rfl, [], (List.append_nil _).symm⟩
    · exact .inl ⟨⟨rfl, rfl, rfl, rfl⟩, rfl, [b], rfl⟩
  · exact .inl ⟨⟨rfl, rfl, rfl, rfl⟩, rfl, [], (List.append_nil _).symm⟩
  · rw [setExtRst_frame]
    exact .inl ⟨⟨rfl, rfl, rfl, rfl⟩, rfl, [], (List.append_nil _).symm⟩
  · exact .inr (.inl ⟨⟨rfl, rfl, rfl, rfl⟩, rfl, hturn⟩)
  · exact .inl ⟨⟨rfl, rfl, rfl, rfl⟩, rfl, [], (List.append_nil _).symm⟩
  · exact .inl ⟨⟨rfl, rfl, rfl, rfl⟩, rfl, [], (List.append_nil _).symm⟩
  · exact absurd hturn hreset

/-- A loaded block stays loaded, but for block reset (41_streamer R150). -/
theorem step_keepsLoaded {s t : State} (h : step s = .next t) (hloaded : s.sm_loaded = true)
    (hreset : ¬ s.takesTurn .blockReset) : t.sm_loaded = true := by
  obtain ⟨hload, _⟩ := onlyCommandsMoveTheLifeCycle s t h
  by_cases hkept : t.sm_loaded = s.sm_loaded
  · exact hkept.trans hloaded
  · exact (hload hkept).elim And.left (absurd · hreset)

/-- What the step from `s` to `t` pulls, as `pulledBytes` counts it. -/
def pulledBy (s t : State) : List Byte :=
  if s.sched.head? = some .streamer ∧ t.fifo.length < s.fifo.length then s.fifo.take 1 else []

/-- What the step from `s` to `t` pushes, as `pushedBytes` counts it. -/
def pushedBy (s t : State) : List Byte :=
  if s.fifo.length < t.fifo.length then t.fifo.drop s.fifo.length else []

/-- Whether the step from `s` to `t` asserts the strobe, as `strobeAssertions` counts it. -/
def assertedBy (s t : State) : Nat := if s.strobe0_in = false ∧ t.strobe0_in = true then 1 else 0

section
variable {s u : State} (h : step s = .next u) (n : Nat)
include h

theorem pulledBytes_succ : pulledBytes (n + 1) s = pulledBy s u ++ pulledBytes n u := by
  rw [pulledBytes, h]; rfl

theorem pushedBytes_succ : pushedBytes (n + 1) s = pushedBy s u ++ pushedBytes n u := by
  rw [pushedBytes, h]; rfl

theorem strobeAssertions_succ : strobeAssertions (n + 1) s = assertedBy s u + strobeAssertions n u := by
  rw [strobeAssertions, h]; rfl

end

section
variable {s t : State}

theorem pulledBy_of_append {pushed : List Byte} (h : t.fifo = s.fifo ++ pushed) : pulledBy s t = [] :=
  if_neg fun ⟨_, hlt⟩ => by rw [h, List.length_append] at hlt; omega

theorem pulledBy_of_cons {b : Byte} (hturn : s.takesTurn .streamer) (h : s.fifo = b :: t.fifo) : pulledBy s t = [b] := by
  obtain ⟨rest, hs⟩ := hturn
  simp [pulledBy, hs, h]

theorem pushedBy_of_append {pushed : List Byte} (h : t.fifo = s.fifo ++ pushed) : pushedBy s t = pushed := by
  cases pushed with
  | nil => simp [pushedBy, h]
  | cons b rest => simp [pushedBy, h]

theorem pushedBy_of_cons {b : Byte} (h : s.fifo = b :: t.fifo) : pushedBy s t = [] :=
  if_neg (by rw [h, List.length_cons]; omega)

theorem assertedBy_of_eq (h : t.strobe0_in = s.strobe0_in) : assertedBy s t = 0 :=
  if_neg fun ⟨hlow, hhigh⟩ => by rw [h, hlow] at hhigh; cases hhigh

end

/-- From `s` to `t`: the pulled bytes are as many as the assertions, but for the byte that is ahead; the FIFO's bytes are
in order; and the newest byte is the last one pulled (41_streamer R162, R184). -/
structure Accounts (s t : State) (pulled pushed : List Byte) (asserted : Nat) : Prop where
  count : pulled.length + s.bytesAhead = asserted + t.bytesAhead
  order : s.fifo ++ pushed = pulled ++ t.fifo
  newest : t.newestByte = pulled.getLastD s.newestByte

theorem Accounts.refl (s : State) : Accounts s s [] [] 0 := ⟨rfl, List.append_nil _, rfl⟩

theorem Accounts.trans {s u t : State} {p q p' q' : List Byte} {a a' : Nat} (h : Accounts s u p q a)
    (h' : Accounts u t p' q' a') : Accounts s t (p ++ p') (q ++ q') (a + a') where
  count := by
    have := h.count
    have := h'.count
    rw [List.length_append]
    omega
  order := by rw [← List.append_assoc, h.order, List.append_assoc, h'.order, List.append_assoc]
  newest := by
    rw [h'.newest, h.newest]
    simp only [List.getLastD_eq_getLast?, List.getLast?_append]
    cases p'.getLast? <;> rfl

/-! The byte that is ahead, and the newest byte, at each place of the reference program. -/

section
variable {s : State}

theorem bytesAhead_atPull (h : s.progOffset = 0) : s.bytesAhead = 0 := by
  unfold State.progOffset at h
  simp [State.bytesAhead, h]

theorem bytesAhead_atOut (h : s.progOffset = 1) : s.bytesAhead = 1 := if_pos (.inl h)

theorem bytesAhead_atWaitLo (h : s.progOffset = 2) : s.bytesAhead = 1 := if_pos (.inr (.inl h))

theorem bytesAhead_atWaitHi (h : s.progOffset = 3) : s.bytesAhead = if s.strobe0_in then 0 else 1 := by
  unfold State.progOffset at h
  cases hs : s.strobe0_in <;> simp [State.bytesAhead, h, hs]

theorem newestByte_atOut (h : s.progOffset = 1) : s.newestByte = s.osr := if_pos h

theorem newestByte_elsewhere (h : s.progOffset ≠ 1) : s.newestByte = s.data_out := if_neg h

end

theorem KeepsStreamer.newestByte {s t : State} (h : KeepsStreamer s t) : t.newestByte = s.newestByte := by
  simp only [State.newestByte, h.sm_pc, h.sm_handle, h.osr, h.data_out]

theorem KeepsStreamer.bytesAhead {s t : State} (h : KeepsStreamer s t) (hstrobe : t.strobe0_in = s.strobe0_in) :
    t.bytesAhead = s.bytesAhead := by
  simp only [State.bytesAhead, h.sm_pc, h.sm_handle, hstrobe]

/-- Away from WAITHI the strobe's level does not matter. -/
theorem KeepsStreamer.bytesAhead_away {s t : State} (h : KeepsStreamer s t) (hk : s.progOffset ≠ 3) :
    t.bytesAhead = s.bytesAhead := by
  unfold State.progOffset at hk
  simp only [State.bytesAhead, h.sm_pc, h.sm_handle, hk, false_and]

/-- A step that at most pushes. -/
theorem KeepsStreamer.accounts {s t : State} (h : KeepsStreamer s t) (hstrobe : t.strobe0_in = s.strobe0_in)
    {pushed : List Byte} (hfifo : t.fifo = s.fifo ++ pushed) : Accounts s t [] pushed 0 where
  count := by rw [h.bytesAhead hstrobe]; rfl
  order := hfifo.symm
  newest := h.newestByte

/-- A change of the strobe that keeps a level still to be tested: asserting it at WAITHI uses up the byte that is ahead,
and releasing it elsewhere is not part of the account (41_streamer R184). -/
theorem strobe_accounts {s t : State} (h : KeepsStreamer s t) (hfifo : t.fifo = s.fifo)
    (hturn : s.takesTurn (.stb0 t.strobe0_in)) (hholds : s.holdsStrobe) : Accounts s t [] [] (assertedBy s t) := by
  obtain ⟨hassert, hrelease⟩ := hholds
  refine ⟨?_, (List.append_nil _).trans hfifo.symm, h.newestByte⟩
  cases hold : s.strobe0_in <;> cases hnew : t.strobe0_in
  case false.false | true.true =>
    have hsame : t.strobe0_in = s.strobe0_in := hnew.trans hold.symm
    rw [assertedBy_of_eq hsame, h.bytesAhead hsame]
    rfl
  case false.true =>
    have hk : s.progOffset = 3 := (hassert (hnew ▸ hturn)).resolve_left (ne_true_of_eq_false hold)
    have hk' : t.progOffset = 3 := by rwa [State.progOffset, h.sm_pc, h.sm_handle]
    rw [bytesAhead_atWaitHi hk, bytesAhead_atWaitHi hk', assertedBy, hold, hnew]
    rfl
  case true.false =>
    have hk : s.progOffset ≠ 3 := (hrelease (hnew ▸ hturn)).resolve_left (ne_false_of_eq_true hold)
    rw [h.bytesAhead_away hk, assertedBy, hold]
    rfl

/-- A step that takes no byte and asserts nothing. -/
theorem accounts_of_kept {s t : State} (hfifo : t.fifo = s.fifo) (hahead : t.bytesAhead = s.bytesAhead)
    (hnewest : t.newestByte = s.newestByte) : Accounts s t [] [] 0 where
  count := by rw [hahead]; rfl
  order := (List.append_nil _).trans hfifo.symm
  newest := hnewest

/-- One of the reference program's four steps, or none: only PULL takes a byte (41_streamer R180 to R183). -/
theorem streamer_accounts {s t : State} (hprog : s.cfg.program = refProgram) (h : streamerStep s = .next t) :
    (t.fifo = s.fifo ∧ Accounts s t [] [] 0) ∨ ∃ b, s.fifo = b :: t.fifo ∧ Accounts s t [b] [] 0 := by
  rcases refStep_cases hprog h with rfl | ⟨hk, b, rest, hfifo, ht⟩ | ⟨hk, ht⟩ | ⟨hk, hlow, ht⟩ | ⟨hk, hhigh, ht⟩
  case inl => exact .inl ⟨rfl, .refl t⟩
  case inr.inl =>
    have hk' : t.progOffset = 1 := progOffset_of_pc (by decide) (by rw [ht]; rfl)
    have hfifo' : s.fifo = b :: t.fifo := by rw [ht, hfifo]
    refine .inr ⟨b, hfifo', ?_, (List.append_nil _).trans hfifo', ?_⟩
    · rw [bytesAhead_atPull hk, bytesAhead_atOut hk']
      rfl
    · rw [newestByte_atOut hk', ht]
      rfl
  case inr.inr.inl =>
    have hk' : t.progOffset = 2 := progOffset_of_pc (by decide) (by rw [ht]; rfl)
    have hfifo : t.fifo = s.fifo := by rw [ht]; rfl
    refine .inl ⟨hfifo, accounts_of_kept hfifo ?_ ?_⟩
    · rw [bytesAhead_atOut hk, bytesAhead_atWaitLo hk']
    · rw [newestByte_elsewhere (s := t) (by omega), newestByte_atOut hk, ht]
      rfl
  case inr.inr.inr.inl =>
    have hk' : t.progOffset = 3 := progOffset_of_pc (by decide) (by rw [ht]; rfl)
    have hfifo : t.fifo = s.fifo := by rw [ht]
    refine .inl ⟨hfifo, accounts_of_kept hfifo ?_ ?_⟩
    · rw [bytesAhead_atWaitLo hk, bytesAhead_atWaitHi hk', ht, hlow]
      rfl
    · rw [newestByte_elsewhere (s := t) (by omega), newestByte_elsewhere (s := s) (by omega), ht]
  case inr.inr.inr.inr =>
    have hk' : t.progOffset = 0 := progOffset_of_pc (by decide) (by rw [ht]; exact (BitVec.add_zero _).symm)
    have hfifo : t.fifo = s.fifo := by rw [ht]
    refine .inl ⟨hfifo, accounts_of_kept hfifo ?_ ?_⟩
    · rw [bytesAhead_atWaitHi hk, bytesAhead_atPull hk', hhigh]
      rfl
    · rw [newestByte_elsewhere (s := t) (by omega), newestByte_elsewhere (s := s) (by omega), ht]

/-- No turn of the streamer moves the strobe, an input. -/
theorem streamerStep_strobe {s t : State} (h : streamerStep s = .next t) : t.strobe0_in = s.strobe0_in := by
  rcases streamerStep_next_cases h with rfl | ⟨e, _, _, rfl⟩
  · rfl
  · rw [applyEffect_frame]

/-- The account does not read the inputs of the run. -/
theorem Accounts.of_sameBlock {s u t : State} {pulled pushed : List Byte} {asserted : Nat} (hu : SameBlock s u)
    (h : Accounts u t pulled pushed asserted) : Accounts s t pulled pushed asserted := by
  obtain ⟨_, _, _, _, rfl⟩ := hu
  exact ⟨h.count, h.order, h.newest⟩

/-- The account of one step, as `pulledBytes`, `pushedBytes` and `strobeAssertions` count it. -/
theorem step_accounts {s t : State} (h : step s = .next t) (hloaded : s.sm_loaded = true)
    (hprog : s.cfg.program = refProgram) (hholds : s.holdsStrobe) (hkeeps : s.keepsPipeline) :
    Accounts s t (pulledBy s t) (pushedBy s t) (assertedBy s t) := by
  have hnone (hfifo : t.fifo = s.fifo) : t.fifo = s.fifo ++ [] := hfifo.trans (List.append_nil _).symm
  rcases step_streamer_cases h hloaded hkeeps with ⟨hk, hstrobe, pushed, hfifo⟩ | ⟨hk, hfifo, hturn⟩
    | ⟨u, hturn, hu, hstep⟩
  · rw [pulledBy_of_append hfifo, pushedBy_of_append hfifo, assertedBy_of_eq hstrobe]
    exact hk.accounts hstrobe hfifo
  · rw [pulledBy_of_append (hnone hfifo), pushedBy_of_append (hnone hfifo)]
    exact strobe_accounts hk hfifo hturn hholds
  · obtain ⟨hcfg, hfifo, hstrobe⟩ : u.cfg = s.cfg ∧ u.fifo = s.fifo ∧ u.strobe0_in = s.strobe0_in := by
      obtain ⟨_, _, _, _, rfl⟩ := hu
      exact ⟨rfl, rfl, rfl⟩
    rw [assertedBy_of_eq ((streamerStep_strobe hstep).trans hstrobe)]
    rcases streamer_accounts (hcfg ▸ hprog) hstep with ⟨hkept, hacc⟩ | ⟨b, hpull, hacc⟩
    · rw [hfifo] at hkept
      rw [pulledBy_of_append (hnone hkept), pushedBy_of_append (hnone hkept)]
      exact hacc.of_sameBlock hu
    · rw [hfifo] at hpull
      rw [pulledBy_of_cons hturn hpull, pushedBy_of_cons hpull]
      exact hacc.of_sameBlock hu

/-- The account of a run: that of its first step and that of the rest. -/
theorem run_accounts : ∀ (n : Nat) (s t : State), s.sm_loaded = true → s.cfg.program = refProgram → RunsTo n s t →
    (∀ k < n, ∀ u, RunsTo k s u → u.holdsStrobe ∧ u.keepsPipeline) →
    Accounts s t (pulledBytes n s) (pushedBytes n s) (strobeAssertions n s)
  | 0, s, t, _, _, hrun, _ => by
    rw [runsTo_zero.1 hrun]
    exact .refl s
  | n + 1, s, t, hloaded, hprog, hrun, hall => by
    obtain ⟨u, hstep, hrest⟩ := runsTo_succ.1 hrun
    obtain ⟨hholds, hkeeps⟩ := hall 0 (Nat.succ_pos n) s rfl
    have hloaded' : u.sm_loaded = true := step_keepsLoaded hstep hloaded hkeeps.2.2
    have hprog' : u.cfg.program = refProgram := by rw [(step_keeps_inputs hstep).1, hprog]
    rw [pulledBytes_succ hstep, pushedBytes_succ hstep, strobeAssertions_succ hstep]
    exact (step_accounts hstep hloaded hprog hholds hkeeps).trans (run_accounts n u t hloaded' hprog' hrest
      fun k hk v hv => hall (k + 1) (Nat.succ_lt_succ hk) v (runsTo_succ.2 ⟨u, hstep, hv⟩))

/-- Settles O54: the account of the run. -/
theorem heldStrobePulsesPresentOneByteEach : Obligations.HeldStrobePulsesPresentOneByteEach := by
  intro n s t hloaded hprog hrun hall
  obtain ⟨hcount, horder, hnewest⟩ := run_accounts n s t hloaded hprog hrun hall
  exact ⟨hcount, horder, hnewest⟩

end Sys2Proof.Machine
end

section
/-! The DmaFeeder (spec/42_dma_feeder.md R200 to R218): the two commands, the DMA's turn, and how many bytes a cycle
pushes. -/

namespace Sys2Proof.Machine

/-! ### DMA_START and DMA_STOP -/

section
variable {s : State} (hfatal : s.fatal = false)
include hfatal

theorem exec_dmaStart_active (h : s.feeder_active = true) :
    exec .dmaStart s = .next (s.raiseError .dmaAlreadyActive Instr.dmaStart.opcode) :=
  (unlessFatal_of_not hfatal _).trans (if_pos h)

theorem exec_dmaStart_noChannel (h : s.feeder_active = false) (hfree : s.freeChannel = none) :
    exec .dmaStart s = .next (s.raiseFatal .dmaNoChannel Instr.dmaStart.opcode) := by
  refine (unlessFatal_of_not hfatal _).trans ?_
  rw [if_neg (ne_true_of_eq_false h), hfree]

theorem exec_dmaStart_claims (h : s.feeder_active = false) {c : Nat} (hfree : s.freeChannel = some c) :
    exec .dmaStart s = .next { s with
      ch := s.ch.set c { own := true, busy := decide (s.dma_count ≠ 0), read_addr := s.dma_src, count := s.dma_count },
      feeder_active := true, feeder_ch := BitVec.ofNat 8 c, res_ch := BitVec.ofNat 8 c } := by
  refine (unlessFatal_of_not hfatal _).trans ?_
  rw [if_neg (ne_true_of_eq_false h), hfree]
  rfl

theorem exec_dmaStop_badChannel {c : Nat} (hc : s.cfg.numCh ≤ c) :
    exec (.dmaStop c) s = .next (s.raiseError .badChannel (Instr.dmaStop c).opcode) :=
  (unlessFatal_of_not hfatal _).trans (if_pos hc)

theorem exec_dmaStop_notOwned {c : Nat} (hc : c < s.cfg.numCh) (hown : (s.chan c).own = false) :
    exec (.dmaStop c) s = .next s :=
  (unlessFatal_of_not hfatal _).trans <| (if_neg (Nat.not_le.2 hc)).trans (if_pos (by rw [hown]; rfl))

theorem exec_dmaStop_releases {c : Nat} (hc : c < s.cfg.numCh) (hown : (s.chan c).own = true) :
    exec (.dmaStop c) s = .next
      { s.setChan c { own := false, busy := false, read_addr := (s.chan c).read_addr, count := 0 } with
        feeder_active := false } :=
  (unlessFatal_of_not hfatal _).trans <| (if_neg (Nat.not_le.2 hc)).trans (if_neg (by rw [hown]; nofun))

end

/-- Settles O16: the search for a channel ends at the lowest one that nobody claims, or finds none. -/
theorem dmaStartClaimsTheLowestFreeChannel : Obligations.DmaStartClaimsTheLowestFreeChannel := by
  intro s hfatal
  refine ⟨exec_dmaStart_active hfatal, fun hidle hfull => ?full, fun hidle c hc hfree hlower => ?claims⟩
  case full => exact exec_dmaStart_noChannel hfatal hidle (freeChannel_eq_none.2 hfull)
  case claims => exact exec_dmaStart_claims hfatal hidle (freeChannel_eq_some.2 ⟨hfree, hc, hlower⟩)

/-- Settles O17: DMA_STOP asks first whether the pool has the channel, then whether the block owns it. -/
theorem dmaStopReleasesOnlyAnOwnedChannel : Obligations.DmaStopReleasesOnlyAnOwnedChannel :=
  fun _ _ hfatal =>
    ⟨exec_dmaStop_badChannel hfatal, exec_dmaStop_notOwned hfatal, exec_dmaStop_releases hfatal⟩

/-- Settles O18: RESULT names the one channel that the block owns, and DMA_STOP takes that claim back. -/
theorem stoppingTheFeedersChannelFreesThePool : Obligations.StoppingTheFeedersChannelFreesThePool := by
  intro s hinv hfatal hactive
  have hres : s.res_ch.toNat = s.feederIndex := congrArg BitVec.toNat (hinv.result_channel hactive)
  have hpool := hinv.feeder_in_pool hactive
  have hown := (hinv.feeder_owns _ hpool).2 ⟨hactive, rfl⟩
  rw [hres]
  refine ⟨_, exec_dmaStop_releases hfatal hpool hown, rfl, fun c hc => ?_, rfl, rfl⟩
  have hreleased (x : Channel) (hx : x.own = false) : ((s.setChan s.feederIndex x).chan c).own = false := by
    by_cases hcf : c = s.feederIndex
    · rwa [hcf, chan_setChan_self (hinv.channels ▸ hpool)]
    · rw [chan_setChan_of_ne hcf]
      exact own_eq_false hinv hc fun _ => hcf
  exact congrArg (· || s.ext_claim.getLsbD c) (hreleased _ rfl)

/-! ### The DMA's turn -/

theorem dmaStep_notReady {s : State} (h : s.dmaReady = false) : dmaStep s = s := if_neg (ne_true_of_eq_false h)

section
variable {s : State} (hready : s.dmaReady = true)
include hready

theorem dmaStep_refused (hmem : s.mem.read (s.chan s.feederIndex).read_addr.toNat = none) :
    dmaStep s = s.dmaReadFault s.feederIndex := by
  rw [dmaStep, if_pos hready, hmem]

theorem dmaStep_transfers {b : Byte} (hmem : s.mem.read (s.chan s.feederIndex).read_addr.toNat = some b) :
    dmaStep s = s.dmaTransfer s.feederIndex b := by
  rw [dmaStep, if_pos hready, hmem]

end

theorem dmaReady_eq_false {s : State} (h : s.feeder_active = false ∨ (s.chan s.feederIndex).busy = false
    ∨ s.cfg.fifoDepth ≤ s.fifo.length) : s.dmaReady = false := by
  refine Bool.eq_false_iff.2 fun hready => ?_
  obtain ⟨hactive, hbusy, hroom⟩ := (dmaReady_iff s).1 hready
  rcases h with h | h | h
  · exact ne_true_of_eq_false h hactive
  · exact ne_true_of_eq_false h hbusy
  · exact Nat.not_le.2 hroom h

/-- A transfer on a busy channel, field by field: it stays busy while a count remains (42_dma_feeder R210). -/
theorem dmaTransfer_of_busy {s : State} {c : Nat} (h : (s.chan c).busy = true) (b : Byte) :
    s.dmaTransfer c b = { s with
      fifo := s.fifo ++ [b]
      ch := s.ch.set c {
        own := (s.chan c).own
        busy := decide ((s.chan c).count - 1 ≠ 0)
        read_addr := (s.chan c).read_addr + 1
        count := (s.chan c).count - 1 } } := by
  rw [dmaTransfer_eq, Channel.advance, h, Bool.true_and]

/-- Settles O34: the three outcomes of the DMA's turn. -/
theorem dmaTurnTransfersOneByteOrFaults : Obligations.DmaTurnTransfersOneByteOrFaults := by
  intro s
  refine ⟨fun b hactive hbusy hroom hmem => ?transfer, fun hactive hbusy hroom hmem => ?fault, fun hno => ?idle⟩
  case transfer =>
    have hready := (dmaReady_iff s).2 ⟨hactive, hbusy, hroom⟩
    exact congrArg Host.Outcome.next ((dmaStep_transfers hready hmem).trans (dmaTransfer_of_busy hbusy b))
  case fault =>
    have hready := (dmaReady_iff s).2 ⟨hactive, hbusy, hroom⟩
    exact congrArg Host.Outcome.next (dmaStep_refused hready hmem)
  case idle => exact congrArg Host.Outcome.next (dmaStep_notReady (dmaReady_eq_false hno))

/-- Settles O37: only the DMA's turn makes the FIFO longer, and without an active feeder it has no step. -/
theorem noByteIsPushedAfterDmaStop : Obligations.NoByteIsPushedAfterDmaStop := by
  intro s t h hidle
  rcases step_transfer_cases h with hk | ⟨rest, hs⟩ | ⟨hrun, _, _, hfifo⟩ | ⟨_, _, hidle', hfifo⟩ | ⟨_, hidle', hfifo⟩
  · exact ⟨hk.fifo.length_le, fun hactive => absurd (hk.feeder_active.symm.trans hactive) (ne_true_of_eq_false hidle)⟩
  · have hnone : dmaStep { s with sched := rest } = { s with sched := rest } :=
      dmaStep_notReady (dmaReady_eq_false (.inl hidle))
    rw [step_turn hs, runTurn, hnone] at h
    cases h
    exact ⟨Nat.le_refl _, fun hactive => absurd hactive (ne_true_of_eq_false hidle)⟩
  · exact ⟨Nat.le_of_eq (congrArg List.length hfifo), fun _ => hrun⟩
  · exact ⟨Nat.le_of_eq (congrArg List.length hfifo), fun hactive => absurd hactive (ne_true_of_eq_false hidle')⟩
  · exact ⟨by rw [hfifo]; exact Nat.zero_le _, fun hactive => absurd hactive (ne_true_of_eq_false hidle')⟩

/-! ### What one step pushes and pulls -/

/-- How many bytes the step from `s` to `t` pushes, as `pushesIn` counts them. -/
def pushCount (s t : State) : Nat := if s.fifo.length < t.fifo.length then 1 else 0

/-- How many bytes the step from `s` to `t` pulls, as `pullsIn` counts them. -/
def pullCount (s t : State) : Nat :=
  if s.sched.head? = some .streamer ∧ t.fifo.length < s.fifo.length then 1 else 0

section
variable {s t : State}

theorem pushesIn_succ (h : step s = .next t) (n : Nat) : pushesIn (n + 1) s = pushCount s t + pushesIn n t := by
  rw [pushesIn, h]; rfl

theorem pullsIn_succ (h : step s = .next t) (n : Nat) : pullsIn (n + 1) s = pullCount s t + pullsIn n t := by
  rw [pullsIn, h]; rfl

/-- A step that stops pushes nothing. -/
theorem pushesIn_of_stop (h : ¬ Answers (step s)) : ∀ n, pushesIn n s = 0
  | 0 => rfl
  | n + 1 => by
    cases hs : step s with
    | next t => exact absurd ⟨t, hs⟩ h
    | fault r => rw [pushesIn, hs]
    | refused r => rw [pushesIn, hs]

theorem pushCount_of_le (h : t.fifo.length ≤ s.fifo.length) : pushCount s t = 0 := if_neg (Nat.not_lt.2 h)

theorem pushCount_of_push {b : Byte} (h : t.fifo = s.fifo ++ [b]) : pushCount s t = 1 :=
  if_pos (by rw [h, List.length_append]; exact Nat.lt_succ_self _)

theorem pullCount_of_le (h : s.fifo.length ≤ t.fifo.length) : pullCount s t = 0 :=
  if_neg fun ⟨_, hlt⟩ => Nat.not_lt.2 h hlt

theorem pullCount_of_pull {b : Byte} (hturn : s.takesTurn .streamer) (h : s.fifo = b :: t.fifo) :
    pullCount s t = 1 := by
  obtain ⟨rest, hs⟩ := hturn
  simp [pullCount, hs, h]

end

/-! ### The bytes pushed and the count that remains -/

/-- What DMA_REMAIN reads: the count of the active feeder's channel (10_state R51). -/
def State.remaining (s : State) : Nat := (Reg.value s .DMA_REMAIN).toNat

theorem remaining_active {s : State} (h : s.feeder_active = true) :
    s.remaining = (s.chan s.feederIndex).count.toNat := congrArg BitVec.toNat (if_pos h)

theorem remaining_idle {s : State} (h : s.feeder_active = false) : s.remaining = 0 :=
  congrArg BitVec.toNat (if_neg (ne_true_of_eq_false h))

theorem remaining_le_count (s : State) : s.remaining ≤ (s.chan s.feederIndex).count.toNat := by
  cases h : s.feeder_active
  · rw [remaining_idle h]
    exact Nat.zero_le _
  · exact Nat.le_of_eq (remaining_active h)

section
variable {s : State} {c : Nat} (hc : c < s.ch.length)
include hc

theorem chan_dmaReadFault : (s.dmaReadFault c).chan c = { s.chan c with busy := false } := chan_setChan_self hc _

theorem chan_dmaTransfer (b : Byte) : (s.dmaTransfer c b).chan c = (s.chan c).advance :=
  chan_setChan_self (s := s.fifoPush b) hc _

end

/-- A transfer uses up one of the count, which a busy channel has; a read fault uses up none (42_dma_feeder R208,
R209). -/
theorem dmaStep_remaining {s : State} (hinv : s.Inv) :
    pushCount s (dmaStep s) + (dmaStep s).remaining = s.remaining := by
  rcases dmaStep_cases s with ⟨_, e⟩ | ⟨hready, _, e⟩ | ⟨b, hready, _, e⟩ <;> rw [e]
  · rw [pushCount_of_le (Nat.le_refl _), Nat.zero_add]
  all_goals
    obtain ⟨hactive, hbusy, _⟩ := (dmaReady_iff s).1 hready
    have hpool := hinv.feeder_in_pool hactive
    have hc : s.feederIndex < s.ch.length := hinv.channels ▸ hpool
  · have hleft : (s.dmaReadFault s.feederIndex).remaining = (s.chan s.feederIndex).count.toNat :=
      (remaining_active (by exact hactive)).trans (congrArg (·.count.toNat) (chan_dmaReadFault hc))
    rw [pushCount_of_le (by exact Nat.le_refl _), Nat.zero_add, hleft, remaining_active hactive]
  · have hleft : (s.dmaTransfer s.feederIndex b).remaining = ((s.chan s.feederIndex).count - 1).toNat :=
      (remaining_active (by exact hactive)).trans (congrArg (·.count.toNat) (chan_dmaTransfer hc b))
    obtain ⟨_, hcount⟩ := hinv.busy_remaining _ hpool hbusy
    rw [pushCount_of_push (by rfl), hleft, remaining_active hactive]
    bv_omega

/-- While the feeder is active, what a step pushes comes off the count. -/
theorem step_remaining {s t : State} (hinv : s.Inv) (hactive : s.feeder_active = true) (h : step s = .next t) :
    pushCount s t + t.remaining ≤ s.remaining := by
  rcases step_transfer_cases h with hk | ⟨rest, hs⟩ | ⟨_, hidle, _⟩ | ⟨_, _, hidle, hfifo⟩ | ⟨_, hidle, hfifo⟩
  · have hkept : t.remaining = s.remaining := by
      rw [remaining_active hactive, remaining_active (hk.feeder_active.trans hactive), chan_congr hk.ch,
        State.feederIndex, hk.feeder_ch, State.feederIndex]
    rw [pushCount_of_le hk.fifo.length_le, Nat.zero_add]
    exact Nat.le_of_eq hkept
  · rw [step_turn hs] at h
    cases h
    have hinv' : State.Inv { s with sched := rest } := sameBlock_inv hinv ⟨_, _, _, _, rfl⟩
    exact Nat.le_of_eq (dmaStep_remaining hinv')
  · exact absurd hactive (ne_true_of_eq_false hidle)
  · rw [pushCount_of_le (Nat.le_of_eq (congrArg List.length hfifo)), remaining_idle hidle]
    exact Nat.zero_le _
  · rw [pushCount_of_le (by rw [hfifo]; exact Nat.zero_le _), remaining_idle hidle]
    exact Nat.zero_le _

/-- A run under an active feeder pushes at most what DMA_REMAIN read at its start. -/
theorem pushesIn_le_remaining : ∀ (n : Nat) (s : State), s.Inv →
    (∀ k < n, ∀ u, RunsTo k s u → u.feeder_active = true) → pushesIn n s ≤ s.remaining
  | 0, s, _, _ => Nat.zero_le _
  | n + 1, s, hinv, hactive => by
    by_cases hans : Answers (step s)
    case neg => exact pushesIn_of_stop hans _ ▸ Nat.zero_le _
    obtain ⟨t, hstep⟩ := hans
    have hfirst := step_remaining hinv (hactive 0 (Nat.succ_pos n) s rfl) hstep
    have hrest := pushesIn_le_remaining n t (everyStepKeepsTheInvariant s t hinv hstep)
      fun k hk u hu => hactive (k + 1) (Nat.succ_lt_succ hk) u (runsTo_succ.2 ⟨t, hstep, hu⟩)
    rw [pushesIn_succ hstep]
    omega

/-! ### The bytes pushed and the bytes pulled -/

/-- Of the commands only SM_CONFIG and SM_RESTART touch the FIFO (41_streamer R154, R159). -/
theorem exec_keepsFifo {i : Instr} {s t : State} (hconfig : i ≠ .smConfig) (hrestart : i ≠ .smRestart)
    (h : exec i s = .next t) : t.fifo = s.fifo := by
  cases hf : s.fatal
  case true =>
    rw [exec_fatal hf] at h
    cases h
    rfl
  cases i <;> replace h := (unlessFatal_of_not hf _).symm.trans h
  case smConfig => exact absurd rfl hconfig
  case smRestart => exact absurd rfl hrestart
  case nop | pinConfig | smDisable | rmClear | errClear =>
    cases h
    rfl
  case rstDriveLow | rstRelease =>
    cases h
    rw [lineChanged_frame]
  case smEnable | rmArm =>
    split at h <;> cases h <;> rfl
  case smLoad | dmaStart | dmaStop =>
    split at h
    · cases h
      rfl
    · split at h <;> cases h <;> rfl

/-- What a step that does not clear the pipeline does to the FIFO: nothing, the streamer's pull of its head, or a push
of one byte behind its tail. -/
theorem step_fifo_cases {s t : State} (h : step s = .next t) (hkeeps : s.keepsPipeline) :
    t.fifo = s.fifo ∨ (s.takesTurn .streamer ∧ ∃ b, s.fifo = b :: t.fifo) ∨ ∃ b, t.fifo = s.fifo ++ [b] := by
  obtain ⟨hconfig, hrestart, hreset⟩ := hkeeps
  rcases step_next_cases h with hu | ⟨i, u, hrun, hu, hexec⟩ | ⟨e, w, u, _, hu, rfl⟩ | ⟨o, v, u, _, hu, rfl⟩
    | ⟨u, hturn, hu, hstreamer⟩ | ⟨u, _, hu, rfl⟩ | ⟨u, _, hu, rfl⟩ | ⟨v, u, _, hu, rfl⟩ | ⟨v, u, _, hu, rfl⟩
    | ⟨v, u, _, hu, rfl⟩ | ⟨a, b, u, _, hu, rfl⟩ | ⟨u, hturn, hu, rfl⟩ <;> obtain ⟨_, _, _, _, rfl⟩ := hu
  · exact .inl rfl
  · have hfifo := exec_keepsFifo (fun hi => hconfig (hi ▸ hrun)) (fun hi => hrestart (hi ▸ hrun)) hexec
    exact .inl hfifo
  · exact .inl rfl
  · rw [writeReg_frame]
    exact .inl rfl
  · rcases streamerStep_next_cases hstreamer with rfl | ⟨e, hwf, _, rfl⟩
    · exact .inl rfl
    · exact (applyEffect_fifo_cases hwf).imp_right fun hpull => .inl ⟨hturn, hpull⟩
  · rcases dmaStep_cases _ with ⟨_, e⟩ | ⟨_, _, e⟩ | ⟨b, _, _, e⟩ <;> rw [e]
    · exact .inl rfl
    · exact .inl rfl
    · exact .inr (.inr ⟨b, rfl⟩)
  · exact .inl rfl
  · rw [setExtRst_frame]
    exact .inl rfl
  · exact .inl rfl
  · exact .inl rfl
  · exact .inl rfl
  · exact absurd hturn hreset

/-- What goes into the FIFO in a step that does not clear it comes out or stays. -/
theorem step_fifo_account {s t : State} (h : step s = .next t) (hkeeps : s.keepsPipeline) :
    s.fifo.length + pushCount s t = pullCount s t + t.fifo.length := by
  rcases step_fifo_cases h hkeeps with hsame | ⟨hturn, b, hpull⟩ | ⟨b, hpush⟩
  · have hlength := congrArg List.length hsame
    rw [pushCount_of_le (Nat.le_of_eq hlength), pullCount_of_le (Nat.le_of_eq hlength.symm)]
    omega
  · have hlength := congrArg List.length hpull
    rw [List.length_cons] at hlength
    rw [pushCount_of_le (by omega), pullCount_of_pull hturn hpull]
    omega
  · have hlength := congrArg List.length hpush
    rw [List.length_append, List.length_singleton] at hlength
    rw [pushCount_of_push hpush, pullCount_of_le (by omega)]
    omega

/-- Block reset ends every run under an active feeder. -/
theorem step_blockReset {s t : State} (hturn : s.takesTurn .blockReset) (h : step s = .next t) :
    t.feeder_active = false ∧ t.fifo = [] := by
  obtain ⟨rest, hs⟩ := hturn
  rw [step_turn hs] at h
  cases h
  exact ⟨rfl, rfl⟩

/-- A run under an active feeder whose FIFO no command clears: what it pushes is pulled, or has room beside the bytes
that the FIFO held. -/
theorem fifo_add_pushesIn_le : ∀ (n : Nat) (s : State), s.Inv →
    (∀ k < n, ∀ u, RunsTo k s u → u.feeder_active = true) →
    (∀ k < n, ∀ u, RunsTo k s u → ¬ u.runsCommand .smConfig ∧ ¬ u.runsCommand .smRestart) →
    s.fifo.length + pushesIn n s ≤ pullsIn n s + s.cfg.fifoDepth
  | 0, s, hinv, _, _ => Nat.le_trans hinv.fifo_bound (Nat.le_add_left _ _)
  | n + 1, s, hinv, hactive, hkeeps => by
    by_cases hans : Answers (step s)
    case neg =>
      rw [pushesIn_of_stop hans]
      exact Nat.le_trans hinv.fifo_bound (Nat.le_add_left _ _)
    obtain ⟨t, hstep⟩ := hans
    have hlater {k : Nat} {u : State} (hu : RunsTo k t u) : RunsTo (k + 1) s u := runsTo_succ.2 ⟨t, hstep, hu⟩
    by_cases hreset : s.takesTurn .blockReset
    · obtain ⟨hidle, hempty⟩ := step_blockReset hreset hstep
      have hend : n = 0 := Nat.eq_zero_of_not_pos fun hn =>
        ne_true_of_eq_false hidle (hactive 1 (Nat.succ_lt_succ hn) t (hlater rfl))
      rw [hend, pushesIn_succ hstep, pushCount_of_le (by rw [hempty]; exact Nat.zero_le _)]
      exact Nat.le_trans hinv.fifo_bound (Nat.le_add_left _ _)
    · obtain ⟨hconfig, hrestart⟩ := hkeeps 0 (Nat.succ_pos n) s rfl
      have hfirst := step_fifo_account hstep ⟨hconfig, hrestart, hreset⟩
      have hrest := fifo_add_pushesIn_le n t (everyStepKeepsTheInvariant s t hinv hstep)
        (fun k hk u hu => hactive (k + 1) (Nat.succ_lt_succ hk) u (hlater hu))
        (fun k hk u hu => hkeeps (k + 1) (Nat.succ_lt_succ hk) u (hlater hu))
      have hdepth : t.cfg.fifoDepth = s.cfg.fifoDepth := congrArg Config.fifoDepth (step_keeps_inputs hstep).1
      rw [pushesIn_succ hstep, pullsIn_succ hstep]
      omega

/-- Settles O36: the count goes down with each push, and the FIFO's level is what was pushed and not yet pulled. -/
theorem aCycleNeverPushesMoreThanItsCount : Obligations.ACycleNeverPushesMoreThanItsCount :=
  fun n s hinv hactive =>
    ⟨Nat.le_trans (pushesIn_le_remaining n s hinv hactive) (remaining_le_count s),
      fifo_add_pushesIn_le n s hinv hactive⟩

end Sys2Proof.Machine
end

section
/-! The ResetMonitor (spec/43_reset_monitor.md R241 to R257): the environment's turns, RM_ARM and RM_CLEAR, who
writes the monitor's fields, and how long a low pulse has to be. -/

namespace Sys2Proof.Machine

/-! ### The environment's turns -/

/-- Settles O11: each turn writes its own input. -/
theorem ticksAndStrobesChangeNothingElse : Obligations.TicksAndStrobesChangeNothingElse :=
  fun _ _ => ⟨rfl, rfl, rfl, rfl, rfl⟩

/-- The target sets its level on the line, which had level `old` (43_reset_monitor R242). -/
theorem step_rst {s : State} {old : Bool} (hold : s.rstLine = old) (v : Bool) :
    step (s.withTurn (.rst v)) = .next (State.lineChanged { s with ext_rst := v } old) :=
  hold ▸ rfl

/-- Settles O10: the levels before and after the turn say which edge it is, and the monitor's arming and phase what the
edge does. -/
theorem targetMovesTheLineAndTheMonitor : Obligations.TargetMovesTheLineAndTheMonitor := by
  intro s v
  have hlow : State.rstLine { s with ext_rst := false } = false := rstLine_eq_false (.inl rfl)
  have hhigh (hdrive : s.rst_drive = false) : State.rstLine { s with ext_rst := true } = true :=
    rstLine_eq_true rfl hdrive
  refine ⟨fun hno => ?noEdge, fun hdrive hext hv harmed hphase => ?fall,
    fun hdrive hext hv _ hphase => ?unfollowedFall, fun hdrive hext hv _ hphase => ?unfollowedRise,
    fun hdrive hext hv harmed hphase hlong => ?accept, fun hdrive hext hv harmed hphase hshort => ?glitch⟩
  case noEdge =>
    rw [step_rst rfl]
    rcases hno with hdrive | rfl | hdisarmed
    · rw [lineChanged_noEdge (by simp [State.rstLine, hdrive])]
    · rw [lineChanged_noEdge rfl]
    · rw [lineChanged_disarmed (s := { s with ext_rst := v }) hdisarmed]
  all_goals subst hv
  case fall => rw [step_rst (rstLine_eq_true hext hdrive), lineChanged_fall hlow harmed hphase]
  case unfollowedFall =>
    rw [step_rst (rstLine_eq_true hext hdrive),
      lineChanged_unfollowedFall (s := { s with ext_rst := false }) (.inr hphase)]
  case unfollowedRise =>
    rw [step_rst (rstLine_eq_false (.inl hext)),
      lineChanged_unfollowedRise (s := { s with ext_rst := true }) (.inr hphase)]
  case accept =>
    rw [step_rst (rstLine_eq_false (.inl hext)), lineChanged_accept (hhigh hdrive) harmed hphase hlong]
    rfl
  case glitch =>
    rw [step_rst (rstLine_eq_false (.inl hext)), lineChanged_glitch (hhigh hdrive) harmed hphase hshort]
    rfl

/-- Settles O52: with TS_WIDTH = 64 the elapsed time of O10 and O9 is the 64-bit difference. -/
theorem acceptanceIsR248sOnThe64BitTimebase : Obligations.AcceptanceIsR248sOnThe64BitTimebase := by
  intro s hwidth harmed hphase
  rw [← timeSub_eq_bitVec hwidth]
  obtain ⟨_, _, _, _, haccept, hglitch⟩ := targetMovesTheLineAndTheMonitor s true
  refine ⟨fun hdrive hext => ⟨haccept hdrive hext rfl harmed hphase, hglitch hdrive hext rfl harmed hphase⟩,
    fun hdrive hext hfatal => ?_⟩
  obtain ⟨_, _, _, _, _, haccept, hglitch⟩ := resetLineCommandsMoveTheLineAndTheMonitor s hfatal
  exact ⟨haccept hext hdrive harmed hphase, hglitch hext hdrive harmed hphase⟩

/-! ### RM_ARM and RM_CLEAR -/

section
variable {s : State} (hfatal : s.fatal = false)
include hfatal

theorem exec_rmArm_refused (h : s.rm_pending = true) :
    exec .rmArm s = .next (s.raiseError .armWhilePending Instr.rmArm.opcode) :=
  (unlessFatal_of_not hfatal _).trans (if_pos h)

theorem exec_rmArm_arms (h : s.rm_pending = false) :
    exec .rmArm s = .next { s with rm_armed := true, rm_phase := .armedForFall } :=
  (unlessFatal_of_not hfatal _).trans (if_neg (ne_true_of_eq_false h))

theorem exec_rmClear : exec .rmClear s = .next { s with rm_pending := false } := unlessFatal_of_not hfatal _

end

/-- Settles O19: RM_ARM's one check is on `rm_pending`, and RM_CLEAR has none. -/
theorem rmArmIsRefusedWhilePendingAndRmClearOnlyClears :
    Obligations.RmArmIsRefusedWhilePendingAndRmClearOnlyClears :=
  fun _ hfatal => ⟨exec_rmArm_refused hfatal, exec_rmArm_arms hfatal, exec_rmClear hfatal⟩

/-! ### Who writes the monitor's fields -/

/-- The monitor's own fields (10_state R23). -/
structure Monitor where
  phase : Phase
  lastFall : Nat
  pending : Bool
  armed : Bool

/-- The fields as the state holds them. -/
def State.monitor (s : State) : Monitor where
  phase := s.rm_phase
  lastFall := s.rm_lastFall
  pending := s.rm_pending
  armed := s.rm_armed

/-- What the step from `s` to `t` does to the monitor, and what made it do so (43_reset_monitor R254). -/
inductive MonitorMove (s t : State) : Prop
  /-- nothing that concerns the monitor -/
  | keeps (h : t.monitor = s.monitor)
  /-- the monitor records a fall (R245) -/
  | fall (harmed : s.rm_armed = true) (hphase : s.rm_phase = .armedForFall) (hhigh : s.rstLine = true)
      (hlow : t.rstLine = false) (h : t.monitor = { s.monitor with phase := .armedForRise, lastFall := s.now })
  /-- the rise ends a pulse that is long enough (R248, R250) -/
  | accept (harmed : s.rm_armed = true) (hphase : s.rm_phase = .armedForRise) (hlow : s.rstLine = false)
      (hhigh : t.rstLine = true) (hlong : tDebounce ≤ s.elapsed)
      (h : t.monitor = { s.monitor with phase := .armedForFall, pending := true, armed := false })
  /-- the rise ends a pulse that is too short (R249) -/
  | glitch (harmed : s.rm_armed = true) (hphase : s.rm_phase = .armedForRise) (hlow : s.rstLine = false)
      (hhigh : t.rstLine = true) (h : t.monitor = { s.monitor with phase := .armedForFall })
  /-- RM_ARM with nothing pending (R251) -/
  | arm (hrun : s.runsCommand .rmArm) (hpending : s.rm_pending = false)
      (h : t.monitor = { s.monitor with phase := .armedForFall, armed := true })
  /-- RM_CLEAR (R253) -/
  | clear (hrun : s.runsCommand .rmClear) (h : t.monitor = { s.monitor with pending := false })
  /-- block reset (10_state R55) -/
  | reset (hturn : s.takesTurn .blockReset) (h : t.monitor = (State.initial s.cfg).monitor)

/-- Whoever moves the line, the edge rules are all that happens to the monitor (43_reset_monitor R243 to R250). -/
theorem moveLine_monitorMove {s u : State} (hu : SameBlock s u) (ext drive : Bool) :
    MonitorMove s (State.lineChanged { u with ext_rst := ext, rst_drive := drive } u.rstLine) := by
  obtain ⟨_, _, _, _, rfl⟩ := hu
  rcases lineChanged_cases _ _ with e | ⟨hold, hnew, harmed, hphase, e⟩ | ⟨hold, hnew, harmed, hphase, hlong, e⟩
    | ⟨hold, hnew, harmed, hphase, _, e⟩ <;> rw [e]
  · exact .keeps rfl
  · exact .fall harmed hphase hold hnew rfl
  · exact .accept harmed hphase hold hnew hlong rfl
  · exact .glitch harmed hphase hold hnew rfl

/-- Of the commands only RM_ARM, RM_CLEAR and the two that move the line touch the monitor. -/
theorem exec_monitorMove {i : Instr} {s u t : State} (hrun : s.runsCommand i) (hu : SameBlock s u)
    (h : exec i u = .next t) : MonitorMove s t := by
  have hf : u.fatal = false := by
    obtain ⟨_, _, _, _, _, _, _, hf⟩ := hrun
    obtain ⟨_, _, _, _, rfl⟩ := hu
    exact hf
  cases i
  case rstDriveLow =>
    cases (exec_rstDriveLow hf rfl).symm.trans h
    exact moveLine_monitorMove hu u.ext_rst true
  case rstRelease =>
    cases (exec_rstRelease hf rfl).symm.trans h
    exact moveLine_monitorMove hu u.ext_rst false
  all_goals obtain ⟨_, _, _, _, rfl⟩ := hu
  case rmClear =>
    cases (exec_rmClear hf).symm.trans h
    exact .clear hrun rfl
  case rmArm =>
    cases hpending : s.rm_pending with
    | true =>
      cases (exec_rmArm_refused hf hpending).symm.trans h
      exact .keeps rfl
    | false =>
      cases (exec_rmArm_arms hf hpending).symm.trans h
      exact .arm hrun hpending rfl
  all_goals replace h := (unlessFatal_of_not hf _).symm.trans h
  case nop | pinConfig | smDisable | smRestart | errClear =>
    cases h
    exact .keeps rfl
  case smEnable =>
    split at h <;> cases h <;> exact .keeps rfl
  case smLoad | smConfig | dmaStart | dmaStop =>
    split at h
    · cases h
      exact .keeps rfl
    · split at h <;> cases h <;> exact .keeps rfl

/-- Everything a step can do to the monitor. -/
theorem step_monitorMove {s t : State} (h : step s = .next t) : MonitorMove s t := by
  rcases step_next_cases h with hu | ⟨i, u, hrun, hu, hexec⟩ | ⟨e, w, u, _, hu, rfl⟩ | ⟨o, v, u, _, hu, rfl⟩
    | ⟨u, _, hu, hstreamer⟩ | ⟨u, _, hu, rfl⟩ | ⟨u, _, hu, rfl⟩ | ⟨v, u, _, hu, rfl⟩ | ⟨v, u, _, hu, rfl⟩
    | ⟨v, u, _, hu, rfl⟩ | ⟨a, b, u, _, hu, rfl⟩ | ⟨u, hturn, hu, rfl⟩
  case inr.inl => exact exec_monitorMove hrun hu hexec
  case inr.inr.inr.inr.inr.inr.inr.inl => exact moveLine_monitorMove hu v u.rst_drive
  all_goals obtain ⟨_, _, _, _, rfl⟩ := hu
  · exact .keeps rfl
  · exact .keeps rfl
  · rw [writeReg_frame]
    exact .keeps rfl
  · rcases streamerStep_next_cases hstreamer with rfl | ⟨e, _, _, rfl⟩
    · exact .keeps rfl
    · rw [applyEffect_frame]
      exact .keeps rfl
  · rw [dmaStep_frame]
    exact .keeps rfl
  · exact .keeps rfl
  · exact .keeps rfl
  · exact .keeps rfl
  · exact .keeps rfl
  · exact .reset hturn rfl

/-- Settles O31: each move of the monitor says which fields change and who moves it. -/
theorem monitorFieldsHaveOnlyTheirWriters : Obligations.MonitorFieldsHaveOnlyTheirWriters := by
  intro s t h
  cases step_monitorMove h with
  | keeps => simp_all [State.monitor]
  | fall => simp_all [State.monitor]
  | accept => simp_all [State.monitor, State.elapsed, Config.timeSub]
  | glitch => simp_all [State.monitor]
  | arm => simp_all [State.monitor]
  | clear => simp_all [State.monitor]
  | reset => simp_all [State.monitor, State.initial]

/-! ### From one accepted event to the next -/

/-- What every step from an allowed state keeps, a run through allowed states keeps. -/
theorem runsTo_keeps {P allowed : State → Prop}
    (hkeep : ∀ s t, P s → allowed s → step s = .next t → P t) :
    ∀ (n : Nat) (s t : State), P s → RunsTo n s t → (∀ k < n, ∀ u, RunsTo k s u → allowed u) → P t
  | 0, s, t, hs, hrun, _ => runsTo_zero.1 hrun ▸ hs
  | n + 1, s, t, hs, hrun, hallowed => by
    obtain ⟨u, hstep, hrest⟩ := runsTo_succ.1 hrun
    have hu : P u := hkeep s u hs (hallowed 0 (Nat.succ_pos n) s rfl) hstep
    exact runsTo_keeps hkeep n u t hu hrest fun k hk v hv =>
      hallowed (k + 1) (Nat.succ_lt_succ hk) v (runsTo_succ.2 ⟨u, hstep, hv⟩)

/-- A pending event stays, and keeps the monitor disarmed, until RM_CLEAR or block reset (43_reset_monitor R252). -/
theorem step_keepsPending {s t : State} (hs : s.rm_pending = true ∧ s.rm_armed = false)
    (hno : ¬ s.runsCommand .rmClear ∧ ¬ s.takesTurn .blockReset) (h : step s = .next t) :
    t.rm_pending = true ∧ t.rm_armed = false := by
  obtain ⟨hpending, hdisarmed⟩ := hs
  obtain ⟨_, _, hclears, harms, _⟩ := monitorFieldsHaveOnlyTheirWriters s t h
  constructor
  · exact eq_true_of_ne_false fun hlost => (hclears hpending hlost).elim hno.1 hno.2
  · refine eq_false_of_ne_true fun harmed => ?_
    obtain ⟨_, hidle⟩ := harms hdisarmed harmed
    exact absurd (hpending.symm.trans hidle) nofun

/-- A disarmed monitor accepts no event and stays disarmed until RM_ARM (43_reset_monitor R244). -/
theorem step_keepsDisarmed {s t : State} (hdisarmed : s.rm_armed = false) (hno : ¬ s.runsCommand .rmArm)
    (h : step s = .next t) : t.rm_armed = false ∧ (t.rm_pending = true → s.rm_pending = true) := by
  obtain ⟨_, haccepts, _, harms, _⟩ := monitorFieldsHaveOnlyTheirWriters s t h
  constructor
  · exact eq_false_of_ne_true fun harmed => hno (harms hdisarmed harmed).1
  · refine fun hpending => eq_true_of_ne_false fun hidle => ?_
    obtain ⟨harmed, _⟩ := haccepts hidle hpending
    exact absurd (hdisarmed.symm.trans harmed) nofun

/-- Settles O32: a step without the command keeps each of the two predicates. -/
theorem betweenTwoEventsComeRmClearThenRmArm : Obligations.BetweenTwoEventsComeRmClearThenRmArm := by
  constructor
  · intro n s t hpending hdisarmed
    exact runsTo_keeps (P := fun u => u.rm_pending = true ∧ u.rm_armed = false) (fun _ _ => step_keepsPending) n s t
      ⟨hpending, hdisarmed⟩
  · intro n s t hdisarmed
    refine runsTo_keeps (P := fun u => u.rm_armed = false ∧ (u.rm_pending = true → s.rm_pending = true))
      (fun u v ⟨hu, hsince⟩ hno hstep => ?_) n s t ⟨hdisarmed, id⟩
    exact (step_keepsDisarmed hu hno hstep).imp_right (hsince ∘ ·)

/-! ### How long a low pulse has to be -/

/-- `d` ticks in a row (43_reset_monitor R241). -/
theorem run_ticks (m : Nat) : ∀ (d : Nat) (s : State) (rest : List Turn), s.now < 2 ^ s.cfg.tsWidth →
    run (d + m) { s with sched := List.replicate d .tick ++ rest }
      = run m { s with now := s.cfg.timeAdd s.now d, host_wait := s.host_wait.map (· + d), sched := rest }
  | 0, s, rest, hnow => by
    have hzero : s.cfg.timeAdd s.now 0 = s.now := Nat.mod_eq_of_lt hnow
    simp [hzero]
  | d + 1, s, rest, _ => by
    let later : State := { s with sched := List.replicate d .tick ++ rest }
    calc run (d + 1 + m) { s with sched := List.replicate (d + 1) .tick ++ rest }
        = run (d + m + 1) (later.withTurn .tick) := by rw [Nat.add_right_comm]; rfl
      _ = run (d + m) later.tick := run_withTurn .tick rfl _
      _ = run m { later.tick with
            now := s.cfg.timeAdd (s.cfg.timeAdd s.now 1) d
            host_wait := later.tick.host_wait.map (· + d), sched := rest } :=
          run_ticks m d later.tick rest (timeAdd_lt _ _ _)
      _ = _ := by
          rw [timeAdd_timeAdd, Nat.add_comm 1 d]
          simp [later, State.tick, Function.comp_def, Nat.add_assoc, Nat.add_comm 1 d]

/-- `s`, `d` ticks into a low pulse whose fall the monitor has recorded (43_reset_monitor R245, R241). -/
def State.inPulse (s : State) (d : Nat) : State :=
  { s with
    now := s.cfg.timeAdd s.now d, host_wait := s.host_wait.map (· + d), rm_lastFall := s.now,
    rm_phase := .armedForRise }

/-- `s`, after a low pulse of `d` ticks (43_reset_monitor R256). -/
def State.afterPulse (s : State) (d : Nat) : State :=
  { s with
    now := (s.now + d) % 2 ^ s.cfg.tsWidth, host_wait := s.host_wait.map (· + d), rm_lastFall := s.now,
    rm_pending := s.rm_pending || decide (500 ≤ d), rm_armed := decide (d < 500) }

section
variable {s : State} {d : Nat} (harmed : s.rm_armed = true) (hphase : s.rm_phase = .armedForFall)
  (hext : s.ext_rst = true) (hdrive : s.rst_drive = false) (hnow : s.now < 2 ^ s.cfg.tsWidth)
  (hd : d < 2 ^ s.cfg.tsWidth)
include harmed hphase hext hdrive hd

/-- At the rise `d` ticks have elapsed, wherever the timebase wraps (43_reset_monitor R256, R257). -/
theorem lineChanged_inPulse : (s.inPulse d).lineChanged false = s.afterPulse d := by
  have hhigh : (s.inPulse d).rstLine = true := rstLine_eq_true hext hdrive
  have helapsed : (s.inPulse d).elapsed = d := timeSub_timeAdd hd
  by_cases hlong : 500 ≤ d
  · rw [lineChanged_accept hhigh harmed rfl (by rwa [helapsed])]
    simp [State.accept, State.inPulse, State.afterPulse, Config.timeAdd, hphase, hlong, Nat.not_lt.2 hlong]
  · rw [lineChanged_glitch hhigh harmed rfl (by rw [helapsed]; exact Nat.not_le.1 hlong)]
    simp [State.glitch, State.inPulse, State.afterPulse, Config.timeAdd, hphase, harmed, hlong, Nat.not_le.1 hlong]

include hnow

/-- The target makes the pulse (43_reset_monitor R242). -/
theorem run_targetPulse :
    run (d + 2) { s with sched := .rst false :: (List.replicate d .tick ++ .rst true :: s.sched) }
      = .next (s.afterPulse d) := by
  let start : State := { s with sched := List.replicate d .tick ++ .rst true :: s.sched }
  let fallen : State := { s with ext_rst := false, rm_lastFall := s.now, rm_phase := .armedForRise }
  let low : State := { s.inPulse d with ext_rst := false }
  have hend : { low with ext_rst := true } = s.inPulse d := by rw [← hext]; rfl
  obtain ⟨_, hfall, _⟩ := targetMovesTheLineAndTheMonitor start false
  calc run (d + 2) (start.withTurn (.rst false))
      = run (d + 1) { fallen with sched := List.replicate d .tick ++ .rst true :: s.sched } :=
        run_of_next (hfall hdrive hext rfl harmed hphase) _
    _ = run 1 (low.withTurn (.rst true)) := run_ticks 1 d fallen (.rst true :: s.sched) hnow
    _ = run 0 (s.afterPulse d) := run_of_next ?_ _
  rw [step_rst (rstLine_eq_false (.inl rfl)), hend, lineChanged_inPulse harmed hphase hext hdrive hd]

/-- The block makes the pulse (40_control_pins R127, R128). -/
theorem run_blockPulse (hfatal : s.fatal = false) :
    run (d + 2) { s with
        sched := .host :: (List.replicate d .tick ++ .host :: s.sched)
        host := .write .w32 s.cfg.regBase 0x0B000000 :: .write .w32 s.cfg.regBase 0x0C000000 :: s.host }
      = .next (s.afterPulse d) := by
  let release : HostOp := .write .w32 s.cfg.regBase 0x0C000000
  let start : State := { s with sched := List.replicate d .tick ++ .host :: s.sched, host := release :: s.host }
  let fallen : State := { s with
    rst_drive := true, rm_lastFall := s.now, rm_phase := .armedForRise, host := release :: s.host }
  let low : State := { s.inPulse d with rst_drive := true }
  have hcmd : s.cfg.regOffset s.cfg.regBase = 0 := by simp [Config.regOffset]
  have hend : { low with rst_drive := false } = s.inPulse d := by rw [← hdrive]; rfl
  obtain ⟨_, _, hfall, _⟩ := resetLineCommandsMoveTheLineAndTheMonitor start hfatal
  calc run (d + 2) (start.withHostOp (.write .w32 s.cfg.regBase 0x0B000000))
      = run (d + 1) { fallen with sched := List.replicate d .tick ++ .host :: s.sched } :=
        run_of_next ((stepRunsTheDecodedCommand start _ _ .rstDriveLow hcmd rfl).trans
          (hfall hext hdrive harmed hphase)) _
    _ = run 1 (low.withHostOp release) := run_ticks 1 d fallen (.host :: s.sched) hnow
    _ = run 0 (s.afterPulse d) := run_of_next ?_ _
  rw [stepRunsTheDecodedCommand low _ _ .rstRelease hcmd rfl,
    exec_rstRelease (s := low) hfatal (rstLine_eq_false (.inr rfl)), hend,
    lineChanged_inPulse harmed hphase hext hdrive hd]

end

/-- Settles O30: whoever makes the pulse, the monitor sees `d` ticks elapse in it. -/
theorem aPulseIsAcceptedExactlyFrom500Ticks : Obligations.APulseIsAcceptedExactlyFrom500Ticks :=
  fun _ _ harmed hphase hext hdrive hnow hd =>
    ⟨run_targetPulse harmed hphase hext hdrive hnow hd, run_blockPulse harmed hphase hext hdrive hnow hd⟩

end Sys2Proof.Machine
end

section
/-! The error and fatal records (spec/60_exceptions.md R280 to R290): what a command does to them, what else writes them,
and that a fatal block ignores its commands only. -/

namespace Sys2Proof.Machine

/-! ### The two records -/

/-- From `s` to `t` neither the error record nor the fatal record changes. -/
structure KeepsRecords (s t : State) : Prop where
  err : t.err = s.err
  errcode : t.errcode = s.errcode
  err_op : t.err_op = s.err_op
  err_async : t.err_async = s.err_async
  fatal : t.fatal = s.fatal
  fatal_cause : t.fatal_cause = s.fatal_cause

theorem KeepsRecords.refl (s : State) : KeepsRecords s s := ⟨rfl, rfl, rfl, rfl, rfl, rfl⟩

/-- Whoever moves the reset line, the edge rules write neither record (43_reset_monitor R243 to R250). -/
theorem moveLine_keepsRecords (s : State) (ext drive old : Bool) :
    KeepsRecords s (State.lineChanged { s with ext_rst := ext, rst_drive := drive } old) := by
  rw [lineChanged_frame]
  exact ⟨rfl, rfl, rfl, rfl, rfl, rfl⟩

/-- The streamer's turn writes neither record (41_streamer R178). -/
theorem streamerStep_keepsRecords {s t : State} (h : streamerStep s = .next t) : KeepsRecords s t := by
  rcases streamerStep_next_cases h with rfl | ⟨e, _, _, rfl⟩
  · exact .refl _
  · rw [applyEffect_frame]
    exact ⟨rfl, rfl, rfl, rfl, rfl, rfl⟩

/-- The DMA's turn leaves the fatal record, and takes back no error (42_dma_feeder R208, R209). -/
theorem dmaStep_records (s : State) :
    (dmaStep s).fatal = s.fatal ∧ (dmaStep s).fatal_cause = s.fatal_cause ∧ (s.err = true → (dmaStep s).err = true) := by
  rcases dmaStep_cases s with ⟨_, e⟩ | ⟨_, _, e⟩ | ⟨_, _, _, e⟩ <;> rw [e]
  · exact ⟨rfl, rfl, id⟩
  · exact ⟨rfl, rfl, fun _ => rfl⟩
  · exact ⟨rfl, rfl, id⟩

/-! ### Commands -/

/-- The ways a command can end: an error, which is never the DMA's read fault, a fatal error, ERR_CLEAR, or the records
untouched (60_exceptions R283, R284, R286). -/
inductive EndsPrecisely (i : Instr) (s : State) : Result → Prop
  | error (code : ErrorCode) (h : code ≠ .dmaReadFault) : EndsPrecisely i s (.next (s.raiseError code i.opcode))
  | fatal (cause : FatalCause) : EndsPrecisely i s (.next (s.raiseFatal cause i.opcode))
  | cleared (h : i = .errClear) : EndsPrecisely i s (.next s.clearError)
  | kept {t : State} (h : KeepsRecords s t) : EndsPrecisely i s (.next t)

theorem endsPrecisely_unlessFatal {i : Instr} {s : State} {r : Result} (h : EndsPrecisely i s r) :
    EndsPrecisely i s (unlessFatal s r) := by
  unfold unlessFatal
  split
  · exact .kept (.refl s)
  · exact h

theorem exec_endsPrecisely (i : Instr) (s : State) : EndsPrecisely i s (exec i s) := by
  cases i <;> refine endsPrecisely_unlessFatal ?_
  case nop | pinConfig | smDisable | smRestart | rmClear => exact .kept ⟨rfl, rfl, rfl, rfl, rfl, rfl⟩
  case errClear => exact .cleared rfl
  case rstDriveLow => exact .kept (moveLine_keepsRecords s s.ext_rst true s.rstLine)
  case rstRelease => exact .kept (moveLine_keepsRecords s s.ext_rst false s.rstLine)
  case smEnable | rmArm =>
    split
    · exact .error _ nofun
    · exact .kept ⟨rfl, rfl, rfl, rfl, rfl, rfl⟩
  case smLoad =>
    split
    · exact .error _ nofun
    · split
      · exact .kept ⟨rfl, rfl, rfl, rfl, rfl, rfl⟩
      · exact .fatal _
  case smConfig =>
    split
    · exact .error _ nofun
    · split
      · exact .error _ nofun
      · exact .kept ⟨rfl, rfl, rfl, rfl, rfl, rfl⟩
  case dmaStart =>
    split
    · exact .error _ nofun
    · split
      · exact .fatal _
      · exact .kept ⟨rfl, rfl, rfl, rfl, rfl, rfl⟩
  case dmaStop =>
    split
    · exact .error _ nofun
    · split <;> exact .kept ⟨rfl, rfl, rfl, rfl, rfl, rfl⟩

/-- The codes that a command can record are 0x01 to 0x09 (60_exceptions R281). -/
theorem errorCode_byte_bounds {code : ErrorCode} (h : code ≠ .dmaReadFault) :
    0x01 ≤ code.byte.toNat ∧ code.byte.toNat ≤ 0x09 := by
  cases code
  case dmaReadFault => exact absurd rfl h
  all_goals decide

theorem fatalCause_byte_cases (cause : FatalCause) : cause.byte = 0x01 ∨ cause.byte = 0x02 := by
  cases cause
  · exact .inl rfl
  · exact .inr rfl

/-- Settles O20: the codes and causes of the four ways are those of 60_exceptions R281 and R282. -/
theorem everyCommandEndsInOneOfFourWays : Obligations.EveryCommandEndsInOneOfFourWays := by
  intro i s
  have hend := exec_endsPrecisely i s
  generalize exec i s = r at hend ⊢
  cases hend with
  | error code h =>
    obtain ⟨hlow, hhigh⟩ := errorCode_byte_bounds h
    exact .inl ⟨code.byte, hlow, hhigh, rfl⟩
  | fatal cause => exact .inr (.inl ⟨cause.byte, fatalCause_byte_cases cause, rfl⟩)
  | cleared h => exact .inr (.inr (.inl ⟨h, rfl⟩))
  | kept h => exact .inr (.inr (.inr ⟨_, rfl, h.err, h.errcode, h.err_op, h.err_async, h.fatal, h.fatal_cause⟩))

/-- Settles O21: each command asks its checks in the order of 60_exceptions R290. -/
theorem theFirstFailingCheckOfACommandDecides : Obligations.TheFirstFailingCheckOfACommandDecides := by
  intro s addr w i haddr hdecode hfatal
  have hstep := stepRunsTheDecodedCommand s addr w i haddr hdecode
  refine ⟨?load, ?config, ?start⟩ <;> rintro rfl hfirst _
  case load => exact hstep.trans (exec_smLoad_loaded hfatal hfirst)
  case config =>
    obtain ⟨hnotLoaded, _⟩ := smConfigClearsThePipelineAndConfigures s hfatal
    exact hstep.trans (hnotLoaded hfirst)
  case start => exact hstep.trans (exec_dmaStart_active hfatal hfirst)

/-! ### Every step -/

/-- No command but ERR_CLEAR takes back an error (60_exceptions R285). -/
theorem exec_keepsErr {i : Instr} {s t : State} (hne : i ≠ .errClear) (h : exec i s = .next t) (herr : s.err = true) :
    t.err = true := by
  have hend := exec_endsPrecisely i s
  rw [h] at hend
  cases hend with
  | error code _ => rfl
  | fatal cause => exact herr
  | cleared hclear => exact absurd hclear hne
  | kept hkept => exact hkept.err.trans herr

/-- What a step does to the records: nothing, but for a command, an illegal word, the DMA's turn and block reset. The
DMA's turn leaves the fatal record, and of all but block reset only ERR_CLEAR takes back an error. -/
theorem step_record_cases {s t : State} (h : step s = .next t) :
    KeepsRecords s t
      ∨ (∃ i, s.runsCommand i ∧ (i ≠ .errClear → s.err = true → t.err = true))
      ∨ (s.runsIllegalWord ∧ t.err = true)
      ∨ (s.takesTurn .dma ∧ t.fatal = s.fatal ∧ t.fatal_cause = s.fatal_cause ∧ (s.err = true → t.err = true))
      ∨ s.takesTurn .blockReset := by
  rcases step_next_cases h with hu | ⟨i, u, hrun, hu, hexec⟩ | ⟨e, w, u, hillegal, hu, rfl⟩ | ⟨o, v, u, _, hu, rfl⟩
    | ⟨u, _, hu, hstreamer⟩ | ⟨u, hturn, hu, rfl⟩ | ⟨u, _, hu, rfl⟩ | ⟨v, u, _, hu, rfl⟩ | ⟨v, u, _, hu, rfl⟩
    | ⟨v, u, _, hu, rfl⟩ | ⟨a, b, u, _, hu, rfl⟩ | ⟨u, hturn, hu, rfl⟩ <;> obtain ⟨_, _, _, _, rfl⟩ := hu
  · exact .inl ⟨rfl, rfl, rfl, rfl, rfl, rfl⟩
  · exact .inr (.inl ⟨i, hrun, fun hne herr => exec_keepsErr hne hexec herr⟩)
  · exact .inr (.inr (.inl ⟨hillegal, rfl⟩))
  · rw [writeReg_frame]
    exact .inl ⟨rfl, rfl, rfl, rfl, rfl, rfl⟩
  · obtain ⟨herr, hcode, hop, hasync, hfatal, hcause⟩ := streamerStep_keepsRecords hstreamer
    exact .inl ⟨herr, hcode, hop, hasync, hfatal, hcause⟩
  · exact .inr (.inr (.inr (.inl ⟨hturn, dmaStep_records _⟩)))
  · exact .inl ⟨rfl, rfl, rfl, rfl, rfl, rfl⟩
  · rw [setExtRst_frame]
    exact .inl ⟨rfl, rfl, rfl, rfl, rfl, rfl⟩
  · exact .inl ⟨rfl, rfl, rfl, rfl, rfl, rfl⟩
  · exact .inl ⟨rfl, rfl, rfl, rfl, rfl, rfl⟩
  · exact .inl ⟨rfl, rfl, rfl, rfl, rfl, rfl⟩
  · exact .inr (.inr (.inr (.inr hturn)))

theorem fatal_eq_false_of_runsCommand {s : State} {i : Instr} (h : s.runsCommand i) : s.fatal = false := by
  obtain ⟨_, _, _, _, _, _, _, hfatal⟩ := h
  exact hfatal

theorem fatal_eq_false_of_runsIllegalWord {s : State} (h : s.runsIllegalWord) : s.fatal = false := by
  obtain ⟨_, _, _, _, _, _, _, _, hfatal⟩ := h
  exact hfatal

/-- Settles O48: a fatal block runs no word that the host writes to CMD. -/
theorem errorRecordsAreSticky : Obligations.ErrorRecordsAreSticky := by
  intro s t h
  rcases step_record_cases h with hkept | ⟨i, hrun, herr⟩ | ⟨hillegal, herr⟩ | ⟨hdma, hfatal, hcause, herr⟩ | hreset
  · refine ⟨fun hs => .inl ⟨hkept.fatal.trans hs, hkept.fatal_cause⟩, fun hs => .inl (hkept.err.trans hs),
      fun hne => absurd ?_ hne⟩
    rw [hkept.err, hkept.errcode, hkept.err_op, hkept.err_async]
  · refine ⟨fun hs => absurd hs (ne_true_of_eq_false (fatal_eq_false_of_runsCommand hrun)), fun hs => ?_,
      fun _ => .inl ⟨i, hrun⟩⟩
    by_cases hclear : i = .errClear
    · exact .inr (.inl (hclear ▸ hrun))
    · exact .inl (herr hclear hs)
  · exact ⟨fun hs => absurd hs (ne_true_of_eq_false (fatal_eq_false_of_runsIllegalWord hillegal)), fun _ => .inl herr,
      fun _ => .inr (.inl hillegal)⟩
  · exact ⟨fun hs => .inl ⟨hfatal.trans hs, hcause⟩, fun hs => .inl (herr hs), fun _ => .inr (.inr (.inl hdma))⟩
  · exact ⟨fun _ => .inr hreset, fun _ => .inr (.inr hreset), fun _ => .inr (.inr (.inr hreset))⟩

/-! ### The fatal state -/

/-- Settles O7: the fatal check stands before every command and in front of no other access. -/
theorem fatalStateIgnoresOnlyCommands : Obligations.FatalStateIgnoresOnlyCommands := by
  intro s hfatal
  refine ⟨exec_fatal hfatal, fun addr w h => ?cmd, fun addr v => ?src, fun addr v => ?count, fun addr v => ?claim,
    fun addr v => ?imem, fun addr => hostRead_aligned⟩
  case cmd => exact (hostWrite_cmd h w).trans (executeWord_fatal hfatal w)
  all_goals obtain ⟨hsrc, hcount, hclaim, himem, _⟩ := plainWritesStoreOnlyTheirRegister s addr v
  case src => exact hsrc
  case count => exact hcount
  case claim => exact hclaim
  case imem => exact himem

/-- `s`, but in the fatal state with this cause. -/
def State.madeFatal (s : State) (cause : Byte) : State := { s with fatal := true, fatal_cause := cause }

section
variable (s : State) (cause : Byte)

theorem pull_madeFatal : (s.madeFatal cause).pull = s.pull.madeFatal cause := by
  cases hfifo : s.fifo with
  | nil =>
    rw [pull_nil hfifo]
    exact pull_nil hfifo
  | cons b rest =>
    rw [pull_cons hfifo]
    exact pull_cons hfifo

theorem act_madeFatal (v : BusView) (a : BusAction) :
    (s.madeFatal cause).act v a = (s.act v a).madeFatal cause := by
  cases a
  case pull => exact pull_madeFatal s cause
  all_goals rfl

theorem acts_madeFatal (v : BusView) : ∀ (l : List BusAction) (s : State),
    l.foldl (State.act v) (s.madeFatal cause) = (l.foldl (State.act v) s).madeFatal cause
  | [], _ => rfl
  | a :: l, s => by rw [List.foldl_cons, List.foldl_cons, act_madeFatal, acts_madeFatal v l]

theorem applyEffect_madeFatal (e : BusEffect) :
    (s.madeFatal cause).applyEffect e = (s.applyEffect e).madeFatal cause := by
  unfold State.applyEffect
  rw [acts_madeFatal]
  rfl

/-- The streamer's turn does not read the fatal record. -/
theorem streamerStep_madeFatal {t : State} (h : streamerStep s = .next t) :
    streamerStep (s.madeFatal cause) = .next (t.madeFatal cause) := by
  rcases streamerStep_cases s with ⟨hoff, e⟩ | ⟨_, _, e⟩
    | ⟨w, hon, hword, ⟨hstall, e⟩ | ⟨_, heval, ⟨_, e⟩ | ⟨hwf, hwaits, e⟩ | ⟨hwf, hgo, e⟩⟩⟩ <;> rw [e] at h <;> cases h
  · exact streamerStep_disabled hoff
  · exact streamerStep_stall (s := s.madeFatal cause) hon hword hstall
  · obtain ⟨hempty, hpull⟩ := pullWaits_iff.1 hwaits
    exact streamerStep_waits (s := s.madeFatal cause) hon hword heval hwf hempty hpull
  · rw [← Bool.not_eq_true, pullWaits_iff] at hgo
    have hbyte := Classical.not_and_iff_not_or_not.1 hgo
    rw [← applyEffect_madeFatal]
    exact streamerStep_effect (s := s.madeFatal cause) hon hword heval hwf hbyte

/-- The DMA's turn does not read the fatal record. -/
theorem dmaStep_madeFatal : dmaStep (s.madeFatal cause) = (dmaStep s).madeFatal cause := by
  rcases dmaStep_cases s with ⟨hready, e⟩ | ⟨hready, hmem, e⟩ | ⟨b, hready, hmem, e⟩ <;> rw [e]
  · exact dmaStep_notReady hready
  · exact dmaStep_refused (s := s.madeFatal cause) hready hmem
  · exact dmaStep_transfers (s := s.madeFatal cause) hready hmem

theorem fall_madeFatal : (s.madeFatal cause).fall = s.fall.madeFatal cause := by
  unfold State.fall
  rw [apply_ite (State.madeFatal · cause) (_ = true)]
  rfl

theorem rise_madeFatal : (s.madeFatal cause).rise = s.rise.madeFatal cause := by
  unfold State.rise
  rw [apply_ite (State.madeFatal · cause) (_ = true),
    apply_ite (State.madeFatal · cause) (tDebounce ≤ s.elapsed)]
  rfl

/-- The edge rules do not read the fatal record. -/
theorem lineChanged_madeFatal (old : Bool) :
    (s.madeFatal cause).lineChanged old = (s.lineChanged old).madeFatal cause := by
  have hline : (s.madeFatal cause).rstLine = s.rstLine := rfl
  unfold State.lineChanged
  rw [hline]
  cases old <;> cases s.rstLine
  · rfl
  · exact rise_madeFatal s cause
  · exact fall_madeFatal s cause
  · rfl

end

/-- Settles O49: the agents' turns neither read nor write the fatal record. -/
theorem theFatalStateStopsCommandsOnly : Obligations.TheFatalStateStopsCommandsOnly := by
  intro s t turn cause hhost hreset h
  rw [step_withTurn] at h
  change runTurn turn (s.madeFatal cause) = .next (t.madeFatal cause)
  cases turn with
  | host => exact absurd rfl hhost
  | blockReset => exact absurd rfl hreset
  | streamer => exact streamerStep_madeFatal s cause h
  | dma =>
    cases h
    exact congrArg _ (dmaStep_madeFatal s cause)
  | rst v =>
    cases h
    exact congrArg _ (lineChanged_madeFatal { s with ext_rst := v } cause s.rstLine)
  | tick | stb0 | stb1 | payload =>
    cases h
    rfl

end Sys2Proof.Machine
end

section
/-! Reset and hazards (spec/70_reset_and_hazards.md R320, R321, R334): a command does not read the host's lines to come,
so that the next of them sees its whole effect; and after block reset nothing runs by itself. -/

namespace Sys2Proof.Machine

/-! ### Commands under a pending host line -/

section
variable (s : State) (op : HostOp)

theorem fall_withHostOp : (s.withHostOp op).fall = s.fall.withHostOp op := by
  unfold State.fall
  rw [apply_ite (State.withHostOp · op) (_ = true)]
  rfl

theorem rise_withHostOp : (s.withHostOp op).rise = s.rise.withHostOp op := by
  unfold State.rise
  rw [apply_ite (State.withHostOp · op) (_ = true), apply_ite (State.withHostOp · op) (tDebounce ≤ s.elapsed)]
  rfl

/-- The edge rules do not read the host's lines. -/
theorem lineChanged_withHostOp (old : Bool) :
    (s.withHostOp op).lineChanged old = (s.lineChanged old).withHostOp op := by
  have hline : (s.withHostOp op).rstLine = s.rstLine := rfl
  unfold State.lineChanged
  rw [hline]
  cases old <;> cases s.rstLine
  · rfl
  · exact rise_withHostOp s op
  · exact fall_withHostOp s op
  · rfl

end

/-- `r'` is the answer `r`, with the line `op` still pending. -/
def CarriesHostOp (op : HostOp) (r r' : Result) : Prop := ∀ t, r = .next t → r' = .next (t.withHostOp op)

section
variable {op : HostOp}

theorem carriesHostOp_next {t u : State} (h : u = t.withHostOp op) : CarriesHostOp op (.next t) (.next u) := by
  rintro _ ⟨⟩
  rw [h]

theorem carriesHostOp_ite {c : Prop} [Decidable c] {r r' q q' : Result} (hr : CarriesHostOp op r r')
    (hq : CarriesHostOp op q q') : CarriesHostOp op (if c then r else q) (if c then r' else q') := by
  split
  · exact hr
  · exact hq

theorem carriesHostOp_unlessFatal {s : State} {r r' : Result} (h : CarriesHostOp op r r') :
    CarriesHostOp op (unlessFatal s r) (unlessFatal (s.withHostOp op) r') :=
  carriesHostOp_ite (carriesHostOp_next rfl) h

/-- A command neither reads nor writes the turns and the host's lines to come. -/
theorem exec_carriesHostOp (i : Instr) (s : State) : CarriesHostOp op (exec i s) (exec i (s.withHostOp op)) := by
  cases i <;> refine carriesHostOp_unlessFatal ?_
  case nop | pinConfig | smDisable | smRestart | rmClear | errClear => exact carriesHostOp_next rfl
  case smEnable | rmArm => exact carriesHostOp_ite (carriesHostOp_next rfl) (carriesHostOp_next rfl)
  case smConfig | dmaStop =>
    exact carriesHostOp_ite (carriesHostOp_next rfl) <|
      carriesHostOp_ite (carriesHostOp_next rfl) (carriesHostOp_next rfl)
  case smLoad =>
    refine carriesHostOp_ite (carriesHostOp_next rfl) ?_
    have hplace : (s.withHostOp op).placement = s.placement := rfl
    rw [hplace]
    cases s.placement <;> exact carriesHostOp_next rfl
  case dmaStart =>
    refine carriesHostOp_ite (carriesHostOp_next rfl) ?_
    have hfree : (s.withHostOp op).freeChannel = s.freeChannel := rfl
    rw [hfree]
    cases s.freeChannel <;> exact carriesHostOp_next rfl
  case rstDriveLow => exact carriesHostOp_next (lineChanged_withHostOp { s with rst_drive := true } op _)
  case rstRelease => exact carriesHostOp_next (lineChanged_withHostOp { s with rst_drive := false } op _)

end

/-- Settles O29: the command runs with the read still pending, which then reads the state it left. -/
theorem theNextReadSeesTheCommandsEffect : Obligations.TheNextReadSeesTheCommandsEffect := by
  intro s t cmd w addr i hcmd hdecode hexec haligned
  obtain ⟨hcfg, _⟩ := exec_keeps_inputs i s t hexec
  have hrun : step ((s.withHostOp (.read .w32 addr)).withHostOp (.write .w32 cmd w))
      = .next (t.withHostOp (.read .w32 addr)) :=
    (stepRunsTheDecodedCommand (s.withHostOp _) cmd w i hcmd hdecode).trans (exec_carriesHostOp i s t hexec)
  have hread : step (t.withHostOp (.read .w32 addr))
      = .next { t with host_rdata := some (t.readReg (t.cfg.regOffset addr)) } :=
    hostRead_aligned (hcfg ▸ haligned)
  rw [run_of_next hrun, run_of_next hread, hcfg]
  rfl

/-! ### After block reset -/

section
variable (s : State)

/-- No feeder is active, so the DMA has no step (42_dma_feeder R208). -/
theorem dmaStep_blockReset : dmaStep s.blockReset = s.blockReset :=
  dmaStep_notReady (dmaReady_eq_false (.inl rfl))

/-- The monitor is disarmed, so no edge moves it (43_reset_monitor R244). -/
theorem setExtRst_blockReset (v : Bool) : s.blockReset.setExtRst v = { s.blockReset with ext_rst := v } :=
  lineChanged_disarmed (s := { s.blockReset with ext_rst := v }) rfl _

/-- Of STATUS only RST_LEVEL, DREQ and FIFO_EMPTY are left: the FIFO is empty and has room (10_state R41). -/
theorem statusWord_blockReset (h : s.cfg.wf = true) :
    s.blockReset.statusWord = flagAt 3 s.ext_rst ||| 0x00001800 := by
  obtain ⟨_, _, _, hdepth, _⟩ := config_bounds h
  have hempty : s.blockReset.fifoLevel = 0 := rfl
  have hroom : s.blockReset.dreq = true := decide_eq_true hdepth
  have hnotFull : 0 ≠ s.cfg.fifoDepth := Nat.ne_of_lt hdepth
  have hline : s.blockReset.rstLine = s.ext_rst := Bool.and_true _
  simp [State.statusWord, hempty, hroom, hnotFull, hline, State.dmaBusy, State.initial, Phase.flag, flagAt, fieldAt,
    BitVec.or_assoc]

end

/-- Settles O46: block reset disables the streamer, idles the DMA and disarms the monitor. -/
theorem nothingRunsByItselfAfterBlockReset : Obligations.NothingRunsByItselfAfterBlockReset := by
  intro s t hwf h
  rw [step_withTurn] at h
  cases h
  have hstatus : s.blockReset.readReg 0x04 = flagAt 3 s.ext_rst ||| 0x00001800 :=
    (readReg_offset _ .STATUS).trans (statusWord_blockReset s hwf)
  rw [hstatus]
  refine ⟨streamerStep_disabled (s := s.blockReset) rfl, congrArg _ (dmaStep_blockReset s),
    fun v => congrArg _ (setExtRst_blockReset s v), fun hhigh => ?high, fun hlow => ?low⟩
  case high => rw [hhigh]; rfl
  case low => rw [hlow]; rfl

end Sys2Proof.Machine
end
